-- ==== Sys2Proof/Word.lean ====
section
/-! DEFINITION. The word types of the BSC block and the element size code (spec/00_scope.md R6, R8, R9). -/

namespace Sys2Proof

/-- A byte of the data memory (R8). -/
abbrev Byte := BitVec 8

/-- A 64-bit register, command word or data-memory address (R6 `ADDR_W`, R70). -/
abbrev Word := BitVec 64

/-- A capacity, batch size or reservation size (R6 `CAP_W`, the `ARG32` field). -/
abbrev Count := BitVec 32

/-- The element size a command selects: the four values of the `ESZ` field, 1, 2, 4 or 8 bytes (R6, R71). -/
inductive ElemSize where
  | b | h | w | d
  deriving DecidableEq, Repr

end Sys2Proof
end

