-- ==== Sys2Proof/Config.lean ====
section
/-! DEFINITION. The parameters of the block (spec/00_scope.md R5, R6) and the model's free values. -/

namespace Sys2Proof.Config

/-- `ACC_W`: width in bits of the accumulator and of the read window (R5). -/
abbrev accW : Nat := 64

/-- `MAX_NB`: the largest legal bit width of a packed value (R5). -/
abbrev maxNb : Nat := 32

/-- `MAX_VLQ`: the largest number of bytes of one varint (R5). -/
abbrev maxVlq : Nat := 5

/-- `BULK_GROUP`: values in one group of the bulk unpack unit (R5). -/
abbrev bulkGroup : Nat := 32

/-- `BULK_OUT_W`: native output width in bits of the bulk unpack unit (R5). -/
abbrev bulkOutW : Nat := 32

/-- `CONV_BUF`: entries of the intermediate conversion buffer (R5). -/
abbrev convBufSize : Nat := 1024

/-- The number of data-memory addresses, `2^ADDR_W` (R6, R43). -/
abbrev addressSpace : Nat := 2 ^ 64

/-- What a byte of data memory that the memory's list does not hold reads as.
DESIGN CHOICE, unsafe (log entry 1): the spec leaves the launch contents `M0` open (R42). -/
abbrev unlistedByte : Byte := 0

/-- `MMIO_BASE`, OPEN: where the platform puts the register map in the host's address space (R6, R40).
DESIGN CHOICE, unsafe for a claim that names a bus address (log entry 20): the spec gives no width of the host's address
space (`ADDR_W` is the data memory's). The model takes 64 bits, and a register window that does not wrap. -/
opaque mmioBase : Word

/-- How far the block's register window reaches past its least size, OPEN (R41). -/
opaque windowExtra : Nat

/-- The size in bytes of the block's register window: "size OPEN, at least `0xA0` bytes" (R41). -/
def windowBytes : Nat := 0xA0 + windowExtra

/-- A FREE VALUE (log entry 9): what GET_NEXT_BYTE_PTR leaves in `RES` when the reserved window's address is `2^64`,
which a 64-bit register cannot hold. Applied to State's `freeCount`. -/
opaque freeReservedAddress : Nat → Word

end Sys2Proof.Config
end

