-- ==== Sys2Proof/Syntax.lean ====
section
/-! DEFINITION. The commands of the block, one constructor per row of spec/opcode_table.json. -/

namespace Sys2Proof

/-- The sixteen commands (spec/30_encoding.md R73), each with exactly the fields of the command word it uses (R71).
The operand register `ARG` is state, not part of the command. -/
inductive Instr where
  /-- `W_INIT` (R104): bind the packer; `ARG` is the base address. -/
  | wInit (cap : Count)
  /-- `W_REBIND` (R105): replace the packer's buffer and keep its cursor. -/
  | wRebind (cap : Count)
  /-- `PUT_VALUE` (R106): append the low `n` bits of `ARG`. -/
  | putValue (n : BitVec 6)
  /-- `PUT_ALIGNED` (R109): align and write the low `n` bytes of `ARG`. -/
  | putAligned (n : BitVec 6) (esz : ElemSize)
  /-- `GET_NEXT_BYTE_PTR` (R110): align and reserve `count` bytes. -/
  | getNextBytePtr (count : Count)
  /-- `FLUSH` (R107): store the partial bytes; `al` is the `AL` bit. -/
  | flush (al : Bool)
  /-- `PUT_VLQ` (R186): align and append the varint of `ARG[31:0]`. -/
  | putVlq
  /-- `PUT_ZZVLQ` (R187): align and append the varint of the zigzag code of `ARG[31:0]`. -/
  | putZzvlq
  /-- `BYTES_WRITTEN` (R111). -/
  | bytesWritten
  /-- `R_INIT` (R144): attach the unpacker; `ARG` is the base address. -/
  | rInit (cap : Count)
  /-- `GET_VALUE` (R145): read one value of `n` bits. -/
  | getValue (n : BitVec 6) (esz : ElemSize)
  /-- `GET_BATCH` (R146): read up to `batch` values of `n` bits into the array at `ARG`. -/
  | getBatch (n : BitVec 6) (esz : ElemSize) (batch : Count)
  /-- `GET_ALIGNED` (R153): skip to a byte boundary and read `n` bytes. -/
  | getAligned (n : BitVec 6) (esz : ElemSize)
  /-- `GET_VLQ` (R188): read one varint. -/
  | getVlq
  /-- `GET_ZZVLQ` (R189): read one varint and zigzag-decode it. -/
  | getZzvlq
  /-- `BYTES_LEFT` (R154). -/
  | bytesLeft
  deriving DecidableEq, Repr

end Sys2Proof
end

