-- ==== Sys2Proof/WellFormed.lean ====
section
/-! DEFINITION. Which commands have field values the command admits (spec/30_encoding.md R76). -/

namespace Sys2Proof

/-- A bit width `num_bits` of the source's range `0..=32` (R76). -/
def bitWidthAdmitted (n : BitVec 6) : Bool := decide (n.toNat ≤ Config.maxNb)

/-- The source's `sizeof(T)` for each size code (R71). -/
def ElemSize.sizeOf : ElemSize → Nat
  | .b => 1
  | .h => 2
  | .w => 4
  | .d => 8

/-- Every field of a command has its width by its type (R71); what is left to check is R76: the field values the word
pattern admits but the command does not. A command that is not well formed still decodes, and faults with cause `WIDTH`.
`GET_ALIGNED` with `n > E` is well formed: it fails, it does not fault. -/
def Instr.wellFormed : Instr → Bool
  | .putValue n => bitWidthAdmitted n
  | .getValue n _ => bitWidthAdmitted n
  | .getBatch n _ _ => bitWidthAdmitted n
  | .putAligned n esz => decide (1 ≤ n.toNat ∧ n.toNat ≤ esz.sizeOf)
  | .getAligned n _ => decide (1 ≤ n.toNat)
  | .wInit _ => true
  | .wRebind _ => true
  | .getNextBytePtr _ => true
  | .flush _ => true
  | .putVlq => true
  | .putZzvlq => true
  | .bytesWritten => true
  | .rInit _ => true
  | .getVlq => true
  | .getZzvlq => true
  | .bytesLeft => true

end Sys2Proof
end

