-- ==== Sys2Proof/Decode.lean ====
section
/-! DEFINITION. The decoder of a 64-bit command word and the encoder (spec/30_encoding.md R70–R78). -/

namespace Sys2Proof

/-- Why a word is no command (R78): the first check that applies. -/
inductive DecodeReject where
  /-- `OPC` is not in R73 (R75). -/
  | illegalOpcode
  /-- A bit of the word outside the command's fields is 1 (R74). -/
  | reservedField
  deriving DecidableEq, Repr

/-- The fields of a command word (R71). -/
def opcField (w : Word) : Byte := w.extractLsb' 0 8
def nField (w : Word) : BitVec 6 := w.extractLsb' 8 6
def eszField (w : Word) : BitVec 2 := w.extractLsb' 14 2
def alField (w : Word) : Bool := w.getLsbD 16
def arg32Field (w : Word) : Count := w.extractLsb' 32 32

/-- The element size of an `ESZ` code (R71). -/
def ElemSize.ofCode (c : BitVec 2) : ElemSize :=
  match c.toNat with
  | 0 => .b
  | 1 => .h
  | 2 => .w
  | _ => .d

/-- The `ESZ` code of an element size (R71). -/
def ElemSize.code : ElemSize → BitVec 2
  | .b => 0
  | .h => 1
  | .w => 2
  | .d => 3

/-- One row of the opcode table: its match, its mask (R74), and the command the word's fields make (R71, R73). -/
structure OpcodeRow where
  pattern : Word
  mask : Word
  build : Word → Instr

/-- The opcode table (R73, R74). -/
def opcodeTable : List OpcodeRow :=
  [ ⟨0x0000000000000010, 0x00000000FFFFFFFF, fun w => .wInit (arg32Field w)⟩,
    ⟨0x0000000000000011, 0x00000000FFFFFFFF, fun w => .wRebind (arg32Field w)⟩,
    ⟨0x0000000000000012, 0xFFFFFFFFFFFFC0FF, fun w => .putValue (nField w)⟩,
    ⟨0x0000000000000013, 0xFFFFFFFFFFFF00FF, fun w => .putAligned (nField w) (ElemSize.ofCode (eszField w))⟩,
    ⟨0x0000000000000014, 0x00000000FFFFFFFF, fun w => .getNextBytePtr (arg32Field w)⟩,
    ⟨0x0000000000000015, 0xFFFFFFFFFFFEFFFF, fun w => .flush (alField w)⟩,
    ⟨0x0000000000000016, 0xFFFFFFFFFFFFFFFF, fun _ => .putVlq⟩,
    ⟨0x0000000000000017, 0xFFFFFFFFFFFFFFFF, fun _ => .putZzvlq⟩,
    ⟨0x0000000000000018, 0xFFFFFFFFFFFFFFFF, fun _ => .bytesWritten⟩,
    ⟨0x0000000000000020, 0x00000000FFFFFFFF, fun w => .rInit (arg32Field w)⟩,
    ⟨0x0000000000000021, 0xFFFFFFFFFFFF00FF, fun w => .getValue (nField w) (ElemSize.ofCode (eszField w))⟩,
    ⟨0x0000000000000022, 0x00000000FFFF00FF,
      fun w => .getBatch (nField w) (ElemSize.ofCode (eszField w)) (arg32Field w)⟩,
    ⟨0x0000000000000023, 0xFFFFFFFFFFFF00FF, fun w => .getAligned (nField w) (ElemSize.ofCode (eszField w))⟩,
    ⟨0x0000000000000024, 0xFFFFFFFFFFFFFFFF, fun _ => .getVlq⟩,
    ⟨0x0000000000000025, 0xFFFFFFFFFFFFFFFF, fun _ => .getZzvlq⟩,
    ⟨0x0000000000000026, 0xFFFFFFFFFFFFFFFF, fun _ => .bytesLeft⟩ ]

/-- The row whose opcode is `opc` (R73): a row's opcode is the low byte of its match. -/
def rowOf (opc : Byte) : Option OpcodeRow :=
  opcodeTable.find? fun r => opcField r.pattern == opc

/-- The decoder (R78): total on every word, which is one command, an illegal opcode or a reserved-field violation. -/
def decode (w : Word) : Except DecodeReject Instr :=
  match rowOf (opcField w) with
  | none => .error .illegalOpcode
  | some r => if w &&& r.mask = r.pattern then .ok (r.build w) else .error .reservedField

/-- The opcode of each command (R73). -/
def Instr.opcode : Instr → Byte
  | .wInit _ => 0x10
  | .wRebind _ => 0x11
  | .putValue _ => 0x12
  | .putAligned _ _ => 0x13
  | .getNextBytePtr _ => 0x14
  | .flush _ => 0x15
  | .putVlq => 0x16
  | .putZzvlq => 0x17
  | .bytesWritten => 0x18
  | .rInit _ => 0x20
  | .getValue _ _ => 0x21
  | .getBatch _ _ _ => 0x22
  | .getAligned _ _ => 0x23
  | .getVlq => 0x24
  | .getZzvlq => 0x25
  | .bytesLeft => 0x26

/-- A command word from its fields, the reserved bits 31:17 zero (R71). -/
def packFields (arg32 : Count) (al : Bool) (esz : BitVec 2) (n : BitVec 6) (opc : Byte) : Word :=
  arg32 ++ (0 : BitVec 15) ++ BitVec.ofBool al ++ esz ++ n ++ opc

/-- The command word of a command (R71, R73): the fields it uses, every other field 0 (R74). -/
def encode (i : Instr) : Word :=
  match i with
  | .wInit cap => packFields cap false 0 0 i.opcode
  | .wRebind cap => packFields cap false 0 0 i.opcode
  | .putValue n => packFields 0 false 0 n i.opcode
  | .putAligned n esz => packFields 0 false esz.code n i.opcode
  | .getNextBytePtr count => packFields count false 0 0 i.opcode
  | .flush al => packFields 0 al 0 0 i.opcode
  | .putVlq => packFields 0 false 0 0 i.opcode
  | .putZzvlq => packFields 0 false 0 0 i.opcode
  | .bytesWritten => packFields 0 false 0 0 i.opcode
  | .rInit cap => packFields cap false 0 0 i.opcode
  | .getValue n esz => packFields 0 false esz.code n i.opcode
  | .getBatch n esz batch => packFields batch false esz.code n i.opcode
  | .getAligned n esz => packFields 0 false esz.code n i.opcode
  | .getVlq => packFields 0 false 0 0 i.opcode
  | .getZzvlq => packFields 0 false 0 0 i.opcode
  | .bytesLeft => packFields 0 false 0 0 i.opcode

/-- The command of a table word (spec/opcode_table.json): the low `nbits` bits of `w`, every higher bit 0.
A number of more than 64 bits is no command word (R70). -/
def decodeTableWord (nbits w : Nat) : Option Instr :=
  if w % 2 ^ nbits < 2 ^ 64 then (decode (BitVec.ofNat 64 (w % 2 ^ nbits))).toOption else none

end Sys2Proof
end

