-- ==== Sys2Proof/Machine/State.lean ====
section
/-! DEFINITION. The state of the block, of its data memory and of its host (spec/10_state.md), and why a step can stop. -/

namespace Sys2Proof.Machine

/-- The cause of a block fault (spec/60_exceptions.md R212). A block fault is a next state, never a stop of the model. -/
inductive FaultCause where
  | illegalOpcode
  | reservedField
  | width
  | valueRange
  | sequence
  | addressRange
  | aliased
  | bus
  deriving DecidableEq, Repr

/-- A register of the host's map (spec/10_state.md R40); `reserved` is every offset R41 reserves. -/
inductive HostReg where
  | arg | cmd | res | status | ctrl | fcmd | farg
  | wBase | wCap | wAcc | wCommitted | wPending
  | rBase | rCap | rPos
  | reserved
  deriving DecidableEq, Repr

/-- An action of the host or of the platform (spec/60_exceptions.md R225, spec/70_reset_and_hazards.md R240).
Register accesses are 64 bits wide and aligned by construction: R41 gives no other access an action. -/
inductive HostAction where
  | writeReg (r : HostReg) (v : Word)
  | readReg (r : HostReg)
  | writeMem (addr : Word) (bytes : List Byte)
  | readMem (addr : Word) (n : Nat)
  | hardwareReset
  deriving DecidableEq, Repr

/-- What a host read returned (R225). -/
inductive Reply where
  | reg (r : HostReg) (v : Word)
  | mem (addr : Word) (bytes : List Byte)
  deriving DecidableEq, Repr

/-- A range of data-memory addresses the platform admits: `lo` up to and without `hi` (R51). -/
structure AddrRange where
  lo : Nat
  hi : Nat
  deriving DecidableEq, Repr

/-- The data memory as a list of (address, byte), addresses rising, no entry that reads as an unlisted byte. -/
abbrev Memory := List Host.Cell

/-- Every piece of state of the block (R42), the data memory (R43), the platform's admission map (R51), and the host's
program with the index of its next action (spec/00_scope.md R16, R24). -/
structure State where
  /-- `ARG`, the operand of the next command (R21). -/
  arg : Word
  /-- `RES`, the result of the last value-producing command (R23). -/
  res : Word
  /-- `STATUS.OK` (R26). -/
  ok : Bool
  /-- `STATUS.FAULT` (R25, R214). -/
  fault : Bool
  /-- `STATUS.FCAUSE` (R25, R212). -/
  fcause : BitVec 4
  /-- `FCMD`, the faulting command word (R27). -/
  fcmd : Word
  /-- `FARG`, the value of `ARG` at the fault (R27). -/
  farg : Word
  /-- `W_BASE` (R28). -/
  wBase : Word
  /-- `W_CAP` (R28). -/
  wCap : Count
  /-- `W_ACC`, the accumulator (R29). -/
  wAcc : Word
  /-- `W_COMMITTED` (R30). -/
  wCommitted : Count
  /-- `W_PENDING` (R31). -/
  wPending : BitVec 7
  /-- `W_NAF`, a non-aligned flush came last (R32). -/
  wNaf : Bool
  /-- `R_BASE` (R34). -/
  rBase : Word
  /-- `R_CAP` (R34). -/
  rCap : Count
  /-- `R_CONSUMED` (R35). -/
  rConsumed : Count
  /-- `R_PENDING` (R35). -/
  rPending : BitVec 6
  /-- `R_WINDOW`, the read window (R36). -/
  rWindow : Word
  /-- The bulk unit's intermediate buffer (R150): the entries written since reset, entry 0 first. -/
  convBuf : List (BitVec 32)
  /-- The data memory (R50). -/
  mem : Memory
  /-- `MemAdmits` as the ranges the platform admits (R51). -/
  admitted : List AddrRange
  /-- The host actions not yet performed, next first (R16). -/
  hostActions : List HostAction
  /-- The index of the next host action (R24). -/
  actionIndex : Nat
  /-- The model's own: what the host's reads returned, newest first. -/
  replies : List Reply
  /-- The model's own: how many free values have been taken. -/
  freeCount : Nat
  deriving DecidableEq, Repr

/-- A stop of the model that is no fault of the block. -/
inductive Fault where
  /-- Raised by a host read or write of data memory that passes `2^64`: no such address exists (R43). Safe: the spec gives
  the host no such access. -/
  | noSuchAddress
  deriving DecidableEq, Repr

/-- Where the model has no move. -/
inductive Refusal where
  /-- An instruction whose meaning is not written yet. Safe. -/
  | notModelled (mnemonic : String)
  /-- Raised by a host write of data memory into the reader's unread region: the host must not, "no move in the model"
  (R225, R227). Safe. -/
  | hostWroteUnreadRegion
  deriving DecidableEq, Repr

/-- How a step of this machine ends. -/
abbrev Outcome := Host.Outcome State Fault Refusal

/-- Right after reset (R42, R241): every register 0. The data memory lists nothing (log entry 1), every address is admitted
(the default of R6), the host has no action left to perform. -/
def State.reset : State where
  arg := 0
  res := 0
  ok := false
  fault := false
  fcause := 0
  fcmd := 0
  farg := 0
  wBase := 0
  wCap := 0
  wAcc := 0
  wCommitted := 0
  wPending := 0
  wNaf := false
  rBase := 0
  rCap := 0
  rConsumed := 0
  rPending := 0
  rWindow := 0
  convBuf := []
  mem := []
  admitted := [⟨0, Config.addressSpace⟩]
  hostActions := []
  actionIndex := 0
  replies := []
  freeCount := 0

end Sys2Proof.Machine
end

