-- ==== Sys2Proof/Machine/Operands.lean ====
section
/-! DEFINITION. Operand assembly and the conversions of results (spec/30_encoding.md R72, spec/00_scope.md R8, R9, R14). -/

namespace Sys2Proof.Machine

/-- `ceil8(p) = (p + 7) div 8` (R8). -/
def ceil8 (p : Nat) : Nat := (p + 7) / 8

/-- `E = 2^ESZ`, the element size in bytes (R72). -/
def elemBytes (esz : ElemSize) : Nat := 2 ^ esz.code.toNat

/-- `conv_E(x) = x mod 2^(8E)` (R14). -/
def convElem (E x : Nat) : Nat := x % 2 ^ (8 * E)

/-- `ARG[31:0]` as a 32-bit pattern: the `u32` of `PUT_VLQ`, the `i32` of `PUT_ZZVLQ` (R72). -/
def argLow32 (s : State) : BitVec 32 := s.arg.setWidth 32

/-- `zext_64` of a natural below `2^64` (R9). -/
def zext64 (x : Nat) : Word := BitVec.ofNat 64 x

/-- `sext_64` of a 32-bit two's-complement pattern (R9). -/
def sext64 (x : BitVec 32) : Word := x.signExtend 64

end Sys2Proof.Machine
end

