-- ==== Sys2Proof/Machine/Flags.lean ====
section
/-! DEFINITION. The status register: `OK`, the fault record, and how a command ends (spec/10_state.md R23, R25–R27,
spec/60_exceptions.md R210–R217). -/

namespace Sys2Proof.Machine

/-- The code of a fault cause in `STATUS.FCAUSE` (R212). -/
def FaultCause.code : FaultCause → BitVec 4
  | .illegalOpcode => 1
  | .reservedField => 2
  | .width => 3
  | .valueRange => 4
  | .sequence => 5
  | .addressRange => 6
  | .aliased => 7
  | .bus => 8

/-- `STATUS` as the host reads it: bits 63:12 and 7:3 read 0 (R25). -/
def statusWord (s : State) : Word :=
  (0 : BitVec 52) ++ s.fcause ++ (0 : BitVec 5) ++ BitVec.ofBool s.wNaf ++ BitVec.ofBool s.fault ++ BitVec.ofBool s.ok

/-- `succeed`: the command completes with `STATUS.OK <- 1` (R11, R26). -/
def succeed (s : State) : Outcome := .next { s with ok := true }

/-- `succeed` of a command that produces a value (R23). -/
def succeedWith (v : Word) (s : State) : Outcome := .next { s with ok := true, res := v }

/-- `fail` of a command that produces no value: only `STATUS.OK <- 0` (R11, R102). -/
def failCommand (s : State) : Outcome := .next { s with ok := false }

/-- `RES <- 0; fail`, of a command that produces a value (R23, R143). -/
def failWithZero (s : State) : Outcome := .next { s with ok := false, res := 0 }

/-- TAKING AN EXCEPTION: fault entry (R214) records the cause, the command word and `ARG`, and changes nothing else. -/
def faultEntry (c : FaultCause) (w : Word) (s : State) : State :=
  { s with fault := true, fcause := c.code, fcmd := w, farg := s.arg }

/-- `raise Fault(c)` in the rule of command `i`. The recorded word is the word of `i` (log entry 13). -/
def raise (i : Instr) (c : FaultCause) (s : State) : Outcome := .next (faultEntry c (encode i) s)

/-- THE RETURN FROM IT: the host's `FAULT_CLEAR` (R217). -/
def faultClear (s : State) : State :=
  { s with fault := false, fcause := 0, fcmd := 0, farg := 0 }

end Sys2Proof.Machine
end

