-- ==== Sys2Proof/Machine/Memory.lean ====
section
/-! DEFINITION. Reading and writing the data memory, and the stream bits of a buffer (spec/00_scope.md R11, R13,
spec/20_memory.md R50–R53). -/

namespace Sys2Proof.Machine

/-- The canonical form: addresses strictly rising, no entry that reads as an unlisted byte. -/
abbrev Memory.wf (m : Memory) : Prop :=
  m.Pairwise (fun c d => c.1 < d.1) ∧ ∀ c ∈ m, c.2 ≠ Config.unlistedByte

/-- `M[a]` (R50). -/
def Memory.read : Memory → Nat → Byte
  | [], _ => Config.unlistedByte
  | (k, b) :: rest, a => if a < k then Config.unlistedByte else if a = k then b else Memory.read rest a

/-- `M[a] <- b` (R50), keeping the canonical form. -/
def Memory.write : Memory → Nat → Byte → Memory
  | [], a, b => if b = Config.unlistedByte then [] else [(a, b)]
  | (k, c) :: rest, a, b =>
    if a < k then (if b = Config.unlistedByte then (k, c) :: rest else (a, b) :: (k, c) :: rest)
    else if a = k then (if b = Config.unlistedByte then rest else (a, b) :: rest)
    else (k, c) :: Memory.write rest a b

/-- `MemRead(addr, n)`: the `n` bytes at `addr` as one little-endian number (R11, R52). -/
def Memory.readLE (m : Memory) (a : Nat) : Nat → Nat
  | 0 => 0
  | n + 1 => (m.read a).toNat + 256 * Memory.readLE m (a + 1) n

/-- `MemWrite(addr, n, v)`: the low `n` bytes of `v` at `addr`, little-endian (R11, R52). -/
def Memory.writeLE (m : Memory) (a : Nat) : Nat → Nat → Memory
  | 0, _ => m
  | n + 1, v => Memory.writeLE (m.write a (BitVec.ofNat 8 v)) (a + 1) n (v / 256)

/-- The bytes at `a`, `a + 1`, … (R225). -/
def Memory.readBytes (m : Memory) (a : Nat) : Nat → List Byte
  | 0 => []
  | n + 1 => m.read a :: Memory.readBytes m (a + 1) n

/-- Write a list of bytes at `a`, `a + 1`, … (R186, R225). -/
def Memory.writeBytes (m : Memory) (a : Nat) : List Byte → Memory
  | [] => m
  | b :: bs => Memory.writeBytes (m.write a b) (a + 1) bs

/-- Stream bit `p` of the buffer at `base`: bit `p mod 8` of the byte at `base + p div 8` (R13). -/
def Memory.streamBit (m : Memory) (base p : Nat) : Nat :=
  ((m.read (base + p / 8)).toNat >>> (p % 8)) % 2

/-- `StreamBits(B, p, n)`: the `n`-bit value at stream bit `p`, least significant bit first (R13). -/
def Memory.streamBits (m : Memory) (base p : Nat) : Nat → Nat
  | 0 => 0
  | n + 1 => m.streamBit base p + 2 * Memory.streamBits m base (p + 1) n

/-- `sum_{i<n} b_i * 2^(8i)` with `b_i = M[base + off + i]` inside the buffer of `cap` bytes and 0 past its end
(R36, R141). -/
def Memory.windowLE (m : Memory) (base cap off : Nat) : Nat → Nat
  | 0 => 0
  | n + 1 => (if off < cap then (m.read (base + off)).toNat else 0) + 256 * Memory.windowLE m base cap (off + 1) n

/-- `MemAdmits(a)` (R51). -/
def memAdmits (rs : List AddrRange) (a : Nat) : Bool :=
  rs.any fun r => decide (r.lo ≤ a) && decide (a < r.hi)

/-- Every address of `[lo, hi)` is admitted: what one range leaves of the interval, on either side of it, must be
admitted by the others (R51). Computed on the ranges, so that a large buffer needs no enumeration. -/
def admitsRange : List AddrRange → Nat → Nat → Bool
  | [], lo, hi => decide (hi ≤ lo)
  | r :: rs, lo, hi => decide (hi ≤ lo) || (admitsRange rs lo (min hi r.lo) && admitsRange rs (max lo r.hi) hi)

end Sys2Proof.Machine
end

