-- ==== Sys2Proof/Machine/Ops.lean ====
section
/-! DEFINITION. The operations the commands share: positions, address checks, align-flush, window refill, scalar
extraction and the bulk unpack unit. -/

namespace Sys2Proof.Machine

/-- `wpos = 8*W_COMMITTED + W_PENDING` (spec/40_packer.md R100). -/
def wpos (s : State) : Nat := 8 * s.wCommitted.toNat + s.wPending.toNat

/-- `ceil8(W_PENDING)`: the partial bytes an align-flush writes (R103). -/
def partialBytes (s : State) : Nat := ceil8 s.wPending.toNat

/-- Where the accumulator is stored: `W_BASE + W_COMMITTED` (R101). -/
def packAddr (s : State) : Nat := s.wBase.toNat + s.wCommitted.toNat

/-- The offset of the next byte-aligned field, `W_COMMITTED + ceil8(W_PENDING)` (R100). -/
def alignedOffset (s : State) : Nat := s.wCommitted.toNat + partialBytes s

/-- `R_POS = 8*R_CONSUMED + R_PENDING` (spec/41_unpacker.md R140). -/
def rPos (s : State) : Nat := 8 * s.rConsumed.toNat + s.rPending.toNat

/-- `rem = 8*R_CAP - R_POS` (R140). -/
def remBits (s : State) : Nat := 8 * s.rCap.toNat - rPos s

/-- The first address of the unread region `U` (spec/20_memory.md R57). -/
def unreadLo (s : State) : Nat := s.rBase.toNat + rPos s / 8

/-- One past the last address of the unread region (R57). -/
def unreadHi (s : State) : Nat := s.rBase.toNat + s.rCap.toNat

/-- `[lo, lo + len)` meets the unread region of an attached reader (R57). An empty range meets nothing. -/
def meetsUnread (s : State) (lo len : Nat) : Bool :=
  decide (0 < s.rCap.toNat) && decide (max lo (unreadLo s) < min (lo + len) (unreadHi s))

/-- `base + len > 2^64` (R67). -/
def passesAddressSpace (base len : Nat) : Bool := decide (Config.addressSpace < base + len)

/-- The first of the checks on the range of a buffer or output array that it breaks: `ADDRESS_RANGE`, then `BUS`
(R51, R67, R216). -/
def rangeFault (s : State) (base len : Nat) : Option FaultCause :=
  if passesAddressSpace base len then some .addressRange
  else if admitsRange s.admitted base (base + len) then none
  else some .bus

/-- `AlignFlush()` (R103). -/
def alignFlush (s : State) : State :=
  { s with
    mem := s.mem.writeLE (packAddr s) (partialBytes s) s.wAcc.toNat
    wCommitted := BitVec.ofNat 32 (alignedOffset s)
    wAcc := 0
    wPending := 0
    wNaf := false }

/-- `Refill()` (R141): the window becomes the function of memory R36 gives. Whatever changes that function performs it: a
change of the read cursor's byte or of the bound buffer (R141), and, since "the window always equals that function of
memory" (R36, R37), every write of data memory (log entry 8). -/
def refill (s : State) : State :=
  { s with rWindow := BitVec.ofNat 64 (s.mem.windowLE s.rBase.toNat s.rCap.toNat s.rConsumed.toNat 8) }

/-- Move the read cursor to byte `off` and refill the window (R153, R188). -/
def seekByte (off : Nat) (s : State) : State :=
  refill { s with rConsumed := BitVec.ofNat 32 off, rPending := 0 }

/-- The cursor after `ScalarGet(nb)` (R148). -/
def scalarAdvance (nb : Nat) (s : State) : State :=
  if Config.accW ≤ s.rPending.toNat + nb then
    refill { s with
      rConsumed := BitVec.ofNat 32 (s.rConsumed.toNat + 8)
      rPending := BitVec.ofNat 6 (s.rPending.toNat + nb - Config.accW) }
  else { s with rPending := BitVec.ofNat 6 (s.rPending.toNat + nb) }

/-- The value of `ScalarGet(nb)` (R148): the window's bits from `R_PENDING` on, and where the value straddles the window's
end the rest from the refilled window. -/
def scalarValue (nb : Nat) (s : State) : Nat :=
  let low := (s.rWindow.toNat >>> s.rPending.toNat) % 2 ^ nb
  let t := s.rPending.toNat + nb
  if Config.accW < t then
    low ||| (((scalarAdvance nb s).rWindow.toNat % 2 ^ (t - Config.accW)) <<< (nb - (t - Config.accW)))
  else low

/-- `Unpack32(addr, max, nb)` (R149): the values of the whole groups of 32 among `max`. -/
def unpack32 (m : Memory) (addr max nb : Nat) : List (BitVec Config.bulkOutW) :=
  (List.range (Config.bulkGroup * (max / Config.bulkGroup))).map fun j =>
    BitVec.ofNat Config.bulkOutW (m.streamBits addr (j * nb) nb)

/-- Write `conv_E` of values to the elements `i`, `i + 1`, … of the array at `out` (R146, R149). -/
def writeElems (m : Memory) (E out i : Nat) : List (BitVec 32) → Memory
  | [] => m
  | v :: vs => writeElems (m.writeLE (out + i * E) E (convElem E v.toNat)) E out (i + 1) vs

end Sys2Proof.Machine
end

