-- ==== Sys2Proof/Machine/Packer.lean ====
section
/-! DEFINITION. The packer's commands (spec/40_packer.md). -/

namespace Sys2Proof.Machine

/-- `W_INIT` (R104). -/
def execWInit (cap : Count) (s : State) : Outcome :=
  match rangeFault s s.arg.toNat cap.toNat with
  | some c => raise (.wInit cap) c s
  | none =>
    succeed { s with
      wBase := s.arg, wCap := cap, wAcc := 0, wCommitted := 0, wPending := 0, wNaf := false }

/-- `W_REBIND` (R105). -/
def execWRebind (cap : Count) (s : State) : Outcome :=
  match rangeFault s s.arg.toNat cap.toNat with
  | some c => raise (.wRebind cap) c s
  | none =>
    if 8 * cap.toNat < wpos s then failCommand s
    else succeed { s with wBase := s.arg, wCap := cap }

/-- The state after a PUT_VALUE of `nb` bits that leaves the accumulator short of 64 bits (R106). -/
def packShort (nb : Nat) (s : State) : State :=
  { s with
    wAcc := s.wAcc ||| BitVec.ofNat 64 (s.arg.toNat <<< s.wPending.toNat)
    wPending := BitVec.ofNat 7 (s.wPending.toNat + nb) }

/-- The state after a PUT_VALUE of `nb` bits whose sum reaches 64: the carry store of the full accumulator, the bits of
`v` that did not fit in the new one (R106). -/
def packCarry (nb : Nat) (s : State) : State :=
  let t := s.wPending.toNat + nb
  { s with
    mem := s.mem.writeLE (packAddr s) 8
      (s.wAcc ||| BitVec.ofNat 64 (s.arg.toNat <<< s.wPending.toNat)).toNat
    wCommitted := BitVec.ofNat 32 (s.wCommitted.toNat + 8)
    wPending := BitVec.ofNat 7 (t - Config.accW)
    wAcc := BitVec.ofNat 64 (s.arg.toNat >>> (nb - (t - Config.accW))) }

/-- `PUT_VALUE` (R106). -/
def execPutValue (n : BitVec 6) (s : State) : Outcome :=
  let nb := n.toNat
  if Config.maxNb < nb then raise (.putValue n) .width s
  else if 2 ^ nb ≤ s.arg.toNat then raise (.putValue n) .valueRange s
  else if s.wNaf then raise (.putValue n) .sequence s
  else if 8 * s.wCap.toNat < wpos s + nb then failCommand s
  else if Config.accW ≤ s.wPending.toNat + nb then
    if meetsUnread s (packAddr s) 8 then raise (.putValue n) .aliased s
    else succeed (refill (packCarry nb s))
  else succeed (packShort nb s)

/-- `FLUSH` (R107). -/
def execFlush (al : Bool) (s : State) : Outcome :=
  if meetsUnread s (packAddr s) (partialBytes s) then raise (.flush al) .aliased s
  else if al then succeed (refill (alignFlush s))
  else succeed (refill { s with mem := s.mem.writeLE (packAddr s) (partialBytes s) s.wAcc.toNat, wNaf := true })

/-- Align-flush, then append bytes at the aligned offset: what every command that writes a byte-aligned field does once
its checks have passed (R109, R186). -/
def appendAligned (bytes : List Byte) (s : State) : State :=
  { alignFlush s with
    mem := (alignFlush s).mem.writeBytes (s.wBase.toNat + alignedOffset s) bytes
    wCommitted := BitVec.ofNat 32 (alignedOffset s + bytes.length) }

/-- The low `n` bytes of a number, least significant first (R52, R109). -/
def bytesLE : Nat → Nat → List Byte
  | 0, _ => []
  | n + 1, v => BitVec.ofNat 8 v :: bytesLE n (v / 256)

/-- Append a byte-aligned field: capacity check on the partial byte and the whole field, alias check, then the writes
(R109, R186). -/
def putBytes (i : Instr) (bytes : List Byte) (s : State) : Outcome :=
  if s.wCap.toNat < alignedOffset s + bytes.length then failCommand s
  else if meetsUnread s (packAddr s) (partialBytes s + bytes.length) then raise i .aliased s
  else succeed (refill (appendAligned bytes s))

/-- `PUT_ALIGNED` (R109). -/
def execPutAligned (n : BitVec 6) (esz : ElemSize) (s : State) : Outcome :=
  if n.toNat = 0 ∨ elemBytes esz < n.toNat then raise (.putAligned n esz) .width s
  else putBytes (.putAligned n esz) (bytesLE n.toNat s.arg.toNat) s

/-- The address of the window GET_NEXT_BYTE_PTR reserves, as `RES` receives it (R110). It can be `2^64` when no byte is
reserved at the very top of memory: `RES` cannot hold that number and the spec states no value, so it is a free value
(log entry 9). -/
def reservedAddress (s : State) : Word :=
  if s.wBase.toNat + alignedOffset s < Config.addressSpace then
    BitVec.ofNat 64 (s.wBase.toNat + alignedOffset s)
  else Config.freeReservedAddress s.freeCount

/-- `GET_NEXT_BYTE_PTR` (R110). -/
def execGetNextBytePtr (count : Count) (s : State) : Outcome :=
  if s.wCap.toNat < alignedOffset s + count.toNat then failWithZero s
  else if meetsUnread s (packAddr s) (partialBytes s) then raise (.getNextBytePtr count) .aliased s
  else
    succeedWith (reservedAddress s)
      (refill { alignFlush s with
        wCommitted := BitVec.ofNat 32 (alignedOffset s + count.toNat)
        freeCount := if s.wBase.toNat + alignedOffset s < Config.addressSpace then s.freeCount else s.freeCount + 1 })

/-- `BYTES_WRITTEN` (R111). -/
def execBytesWritten (s : State) : Outcome :=
  succeedWith (zext64 (alignedOffset s)) s

end Sys2Proof.Machine
end

