-- ==== Sys2Proof/Machine/Unpacker.lean ====
section
/-! DEFINITION. The unpacker's commands and the phases of its batch extraction (spec/41_unpacker.md). -/

namespace Sys2Proof.Machine

/-- `R_INIT` (R144). -/
def execRInit (cap : Count) (s : State) : Outcome :=
  match rangeFault s s.arg.toNat cap.toNat with
  | some c => raise (.rInit cap) c s
  | none => succeed (refill { s with rBase := s.arg, rCap := cap, rConsumed := 0, rPending := 0 })

/-- `GET_VALUE` (R145). -/
def execGetValue (n : BitVec 6) (esz : ElemSize) (s : State) : Outcome :=
  if Config.maxNb < n.toNat then raise (.getValue n esz) .width s
  else if 8 * s.rCap.toNat < rPos s + n.toNat then failWithZero s
  else succeedWith (zext64 (convElem (elemBytes esz) (scalarValue n.toNat s))) (scalarAdvance n.toNat s)

/-- The clamp of phase 1 (R146, R147): how many values the remaining bits satisfy. -/
def batchCount (nb batch : Nat) (s : State) : Nat :=
  if nb = 0 then batch else min batch (remBits s / nb)

/-- One value of a scalar phase: `conv_E(ScalarGet(nb))` to element `i` (R148). -/
def scalarStep (nb E out i : Nat) (s : State) : State :=
  { scalarAdvance nb s with mem := s.mem.writeLE (out + i * E) E (convElem E (scalarValue nb s)) }

/-- Phase 2 (R148): scalar values while the cursor is not byte-aligned, at most `k` of them. Answers the number of values
done so far and the state. -/
def headPhase (nb E out : Nat) : Nat → Nat → State → Nat × State
  | 0, i, s => (i, s)
  | k + 1, i, s => if rPos s % 8 = 0 then (i, s) else headPhase nb E out k (i + 1) (scalarStep nb E out i s)

/-- One iteration of phase 3 (R149, R150): whole groups from byte `R_POS div 8`, written directly where elements are 4
bytes wide, else through the intermediate buffer, at most 1024 at a time. Answers the number of values produced. -/
def bulkStep (nb E out i left : Nat) (s : State) : Nat × State :=
  let b := rPos s / 8
  let addr := s.rBase.toNat + b
  if E = 4 then
    let vals := unpack32 s.mem addr left nb
    (vals.length,
      { s with
        mem := writeElems s.mem E out i vals
        rConsumed := BitVec.ofNat 32 (b + vals.length * nb / 8), rPending := 0 })
  else
    let vals := unpack32 s.mem addr (min Config.convBufSize left) nb
    let buf := vals ++ s.convBuf.drop vals.length
    (vals.length,
      { s with
        convBuf := buf
        mem := writeElems s.mem E out i (buf.take vals.length)
        rConsumed := BitVec.ofNat 32 (b + vals.length * nb / 8), rPending := 0 })

/-- Phase 3 (R149): the bulk loop, while a whole group of 32 is left and the unit produces values. The first argument
bounds the iterations; each one produces at least a group. -/
def bulkPhase (nb E out count : Nat) : Nat → Nat → State → Nat × State
  | 0, i, s => (i, s)
  | k + 1, i, s =>
    if count - i < Config.bulkGroup then (i, s)
    else
      match bulkStep nb E out i (count - i) s with
      | (0, _) => (i, s)
      | (g + 1, s') => bulkPhase nb E out count k (i + (g + 1)) s'

/-- Phase 5 (R151): scalar values for the remainder. -/
def tailPhase (nb E out : Nat) : Nat → Nat → State → State
  | 0, _, s => s
  | k + 1, i, s => tailPhase nb E out k (i + 1) (scalarStep nb E out i s)

/-- Phases 2 to 5 (R148–R151) for `count` values; at the end the window follows the elements written (R36, R37). -/
def batchPhases (nb E out count : Nat) (s : State) : State :=
  match headPhase nb E out count 0 s with
  | (i, s') =>
    match bulkPhase nb E out count count i s' with
    | (j, s'') => refill (tailPhase nb E out (count - j) j (refill s''))

/-- The architectural result of GET_BATCH on memory (R146): element `i` is `conv_E` of the value at stream bit
`p0 + i*nb` of the memory before the command. -/
def batchMemory (m : Memory) (base p0 nb E out : Nat) (acc : Memory) : Nat → Memory
  | 0 => acc
  | k + 1 =>
    (batchMemory m base p0 nb E out acc k).writeLE (out + k * E) E (convElem E (m.streamBits base (p0 + k * nb) nb))

/-- `GET_BATCH` (R146), carried out by the phases R147–R151. -/
def execGetBatch (n : BitVec 6) (esz : ElemSize) (batch : Count) (s : State) : Outcome :=
  let nb := n.toNat
  let E := elemBytes esz
  if Config.maxNb < nb then raise (.getBatch n esz batch) .width s
  else
    let count := batchCount nb batch.toNat s
    match rangeFault s s.arg.toNat (count * E) with
    | some c => raise (.getBatch n esz batch) c s
    | none =>
      if meetsUnread s s.arg.toNat (count * E) then raise (.getBatch n esz batch) .aliased s
      else succeedWith (zext64 count) (batchPhases nb E s.arg.toNat count s)

/-- `GET_ALIGNED` (R153). -/
def execGetAligned (n : BitVec 6) (esz : ElemSize) (s : State) : Outcome :=
  if n.toNat = 0 then raise (.getAligned n esz) .width s
  else if elemBytes esz < n.toNat then failWithZero s
  else if s.rCap.toNat < ceil8 (rPos s) + n.toNat then failWithZero s
  else
    succeedWith (zext64 (s.mem.readLE (s.rBase.toNat + ceil8 (rPos s)) n.toNat))
      (seekByte (ceil8 (rPos s) + n.toNat) s)

/-- `BYTES_LEFT` (R154). -/
def execBytesLeft (s : State) : Outcome :=
  succeedWith (zext64 (s.rCap.toNat - ceil8 (rPos s))) s

end Sys2Proof.Machine
end

