-- ==== Sys2Proof/Machine/Varint.lean ====
section
/-! DEFINITION. The varint and zigzag codec and its commands (spec/42_varint_zigzag.md). -/

namespace Sys2Proof.Machine

/-- `VlqEncode` (R180), one byte more than the first argument at most. -/
def vlqEncodeUpTo : Nat → BitVec 32 → List Byte
  | 0, u => [(u &&& 0x7F).setWidth 8]
  | k + 1, u =>
    if u &&& 0xFFFFFF80 = 0 then [(u &&& 0x7F).setWidth 8]
    else ((u &&& 0x7F) ||| 0x80).setWidth 8 :: vlqEncodeUpTo k (u >>> 7)

/-- `VlqEncode(u)` (R180): five bytes at most, since 32 bits are five groups of 7 (R181). -/
def vlqEncode (u : BitVec 32) : List Byte := vlqEncodeUpTo (Config.maxVlq - 1) u

/-- `VlqLen(u)` (R181). -/
def vlqLen (u : BitVec 32) : Nat := (vlqEncode u).length

/-- The loop of `VlqDecode` from group `i` on (R182): at most `k` further bytes, `tmp` holding the groups so far. Answers the
value and the number of bytes used, or nothing for a truncated or malformed varint. -/
def vlqDecodeFrom (m : Memory) (base a cap : Nat) : Nat → Nat → BitVec 32 → Option (BitVec 32 × Nat)
  | 0, _, _ => none
  | k + 1, i, tmp =>
    if cap ≤ a + i then none
    else
      let b := m.read (base + a + i)
      let tmp' := tmp ||| ((b &&& 0x7F).setWidth 32 <<< (7 * i))
      if b &&& 0x80 = 0 then some (tmp', i + 1) else vlqDecodeFrom m base a cap k (i + 1) tmp'

/-- `VlqDecode(base, a, cap)` (R182). -/
def vlqDecode (m : Memory) (base a cap : Nat) : Option (BitVec 32 × Nat) :=
  vlqDecodeFrom m base a cap Config.maxVlq 0 0

/-- `ZigZagEncode` (R183): the shift by 31 is arithmetic (spec/90_conflicts.md C7). -/
def zigZagEncode (x : BitVec 32) : BitVec 32 := (x <<< 1) ^^^ (x.sshiftRight 31)

/-- `ZigZagDecode` (R184): the shift by 1 is logical. -/
def zigZagDecode (u : BitVec 32) : BitVec 32 := (u >>> 1) ^^^ (-(u &&& 1))

/-- `PUT_VLQ` (R186). -/
def execPutVlq (s : State) : Outcome := putBytes .putVlq (vlqEncode (argLow32 s)) s

/-- `PUT_ZZVLQ` (R187). -/
def execPutZzvlq (s : State) : Outcome := putBytes .putZzvlq (vlqEncode (zigZagEncode (argLow32 s))) s

/-- Read a varint at the next byte boundary and leave `result` of it in `RES` (R188). -/
def getVarint (result : BitVec 32 → Word) (s : State) : Outcome :=
  match vlqDecode s.mem s.rBase.toNat (ceil8 (rPos s)) s.rCap.toNat with
  | none => failWithZero s
  | some (v, used) => succeedWith (result v) (seekByte (ceil8 (rPos s) + used) s)

/-- `GET_VLQ` (R188). -/
def execGetVlq (s : State) : Outcome := getVarint (fun v => v.setWidth 64) s

/-- `GET_ZZVLQ` (R189). -/
def execGetZzvlq (s : State) : Outcome := getVarint (fun v => sext64 (zigZagDecode v)) s

end Sys2Proof.Machine
end

