-- ==== Sys2Proof/Machine/Dispatch.lean ====
section
/-! DEFINITION. One arm per command (spec/30_encoding.md R73, R78). -/

namespace Sys2Proof.Machine

/-- The rule of each command. -/
def exec (i : Instr) (s : State) : Host.Outcome State Fault Refusal :=
  match i with
  | .wInit cap => Sys2Proof.Machine.execWInit cap s
  | .wRebind cap => Sys2Proof.Machine.execWRebind cap s
  | .putValue n => Sys2Proof.Machine.execPutValue n s
  | .putAligned n esz => Sys2Proof.Machine.execPutAligned n esz s
  | .getNextBytePtr count => Sys2Proof.Machine.execGetNextBytePtr count s
  | .flush al => Sys2Proof.Machine.execFlush al s
  | .putVlq => Sys2Proof.Machine.execPutVlq s
  | .putZzvlq => Sys2Proof.Machine.execPutZzvlq s
  | .bytesWritten => Sys2Proof.Machine.execBytesWritten s
  | .rInit cap => Sys2Proof.Machine.execRInit cap s
  | .getValue n esz => Sys2Proof.Machine.execGetValue n esz s
  | .getBatch n esz batch => Sys2Proof.Machine.execGetBatch n esz batch s
  | .getAligned n esz => Sys2Proof.Machine.execGetAligned n esz s
  | .getVlq => Sys2Proof.Machine.execGetVlq s
  | .getZzvlq => Sys2Proof.Machine.execGetZzvlq s
  | .bytesLeft => Sys2Proof.Machine.execBytesLeft s

end Sys2Proof.Machine
end

