-- ==== Sys2Proof/Machine/HostPort.lean ====
section
/-! DEFINITION. The host's side of the block: the register map, issuing a command, the control register, reset, and the
host's accesses to data memory (spec/10_state.md R39–R42, spec/30_encoding.md R78, spec/60_exceptions.md R225). -/

namespace Sys2Proof.Machine

/-- Reset (R42, R240), by the platform's pin or by `CTRL.SOFT_RESET`: every register takes its reset value, the data memory
is unchanged. What is not the block's own stays too: the platform's admission map, the host's program, its index and the
replies it has had, and the count of free values taken (log entry 15). -/
def resetBlock (s : State) : State :=
  { State.reset with
    mem := s.mem
    admitted := s.admitted
    hostActions := s.hostActions
    actionIndex := s.actionIndex
    replies := s.replies
    freeCount := s.freeCount }

/-- The cause a word raises that is no command (R78, R212). -/
def rejectCause : DecodeReject → FaultCause
  | .illegalOpcode => .illegalOpcode
  | .reservedField => .reservedField

/-- A host write of `w` to `CMD` (R78): dropped while faulted (R215), else decoded and executed. -/
def issueCommand (w : Word) (s : State) : Outcome :=
  if s.fault then .next s
  else
    match decode w with
    | .ok i => exec i s
    | .error r => .next (faultEntry (rejectCause r) w s)

/-- A host write of `v` to `CTRL` (R39): bit 1 resets, which also clears a fault; else bit 0 clears a fault. -/
def writeCtrl (v : Word) (s : State) : State :=
  if v.getLsbD 1 then resetBlock s
  else if v.getLsbD 0 then faultClear s
  else s

/-- A host write to a register: `ARG`, `CMD` and `CTRL` take it, a read-only or reserved one ignores it (R40, R41). -/
def writeReg (r : HostReg) (v : Word) (s : State) : Outcome :=
  match r with
  | .arg => .next { s with arg := v }
  | .cmd => issueCommand v s
  | .ctrl => .next (writeCtrl v s)
  | .res => .next s
  | .status => .next s
  | .fcmd => .next s
  | .farg => .next s
  | .wBase => .next s
  | .wCap => .next s
  | .wAcc => .next s
  | .wCommitted => .next s
  | .wPending => .next s
  | .rBase => .next s
  | .rCap => .next s
  | .rPos => .next s
  | .reserved => .next s

/-- What the host reads from a register (R40): narrower registers zero-extended, write-only and reserved ones 0. -/
def readReg (r : HostReg) (s : State) : Word :=
  match r with
  | .arg => s.arg
  | .cmd => 0
  | .res => s.res
  | .status => statusWord s
  | .ctrl => 0
  | .fcmd => s.fcmd
  | .farg => s.farg
  | .wBase => s.wBase
  | .wCap => s.wCap.setWidth 64
  | .wAcc => s.wAcc
  | .wCommitted => s.wCommitted.setWidth 64
  | .wPending => s.wPending.setWidth 64
  | .rBase => s.rBase
  | .rCap => s.rCap.setWidth 64
  | .rPos => zext64 (rPos s)
  | .reserved => 0

/-- A host write of data memory (R225); the window follows it (R36). Inside the unread region it has no move (R227). -/
def hostWriteMem (addr : Word) (bytes : List Byte) (s : State) : Outcome :=
  if passesAddressSpace addr.toNat bytes.length then .fault .noSuchAddress
  else if meetsUnread s addr.toNat bytes.length then .refused .hostWroteUnreadRegion
  else .next (refill { s with mem := s.mem.writeBytes addr.toNat bytes })

/-- A host read of data memory (R225). -/
def hostReadMem (addr : Word) (n : Nat) (s : State) : Outcome :=
  if passesAddressSpace addr.toNat n then .fault .noSuchAddress
  else .next { s with replies := .mem addr (s.mem.readBytes addr.toNat n) :: s.replies }

/-- One action of the host or the platform (R225, R240). -/
def perform (a : HostAction) (s : State) : Outcome :=
  match a with
  | .writeReg r v => writeReg r v s
  | .readReg r => .next { s with replies := .reg r (readReg r s) :: s.replies }
  | .writeMem addr bytes => hostWriteMem addr bytes s
  | .readMem addr n => hostReadMem addr n s
  | .hardwareReset => .next (resetBlock s)

/-- The action leaves the host's list and the index of the next action advances by one (R16, R24). -/
def takeAction (rest : List HostAction) (s : State) : State :=
  { s with hostActions := rest, actionIndex := s.actionIndex + 1 }

/-- Perform the host's next action. With none left the block is idle and keeps all its state (R226, R242). -/
def performNext (s : State) : Outcome :=
  match s.hostActions with
  | [] => .next s
  | a :: rest => perform a (takeAction rest s)

/-- The host writes command word `w` to `CMD` as its next action. -/
def queueCommand (w : Word) (s : State) : State :=
  { s with hostActions := .writeReg .cmd w :: s.hostActions }

/-- The register at an offset of the map (R40, R41); nothing for an offset that is not 8-byte aligned or lies outside the
window. -/
def regAtOffset (off : Nat) : Option HostReg :=
  if off % 8 = 0 ∧ off < Config.windowBytes then
    some (match off with
      | 0x00 => .arg
      | 0x08 => .cmd
      | 0x10 => .res
      | 0x18 => .status
      | 0x20 => .ctrl
      | 0x28 => .fcmd
      | 0x30 => .farg
      | 0x40 => .wBase
      | 0x48 => .wCap
      | 0x50 => .wAcc
      | 0x58 => .wCommitted
      | 0x60 => .wPending
      | 0x80 => .rBase
      | 0x88 => .rCap
      | 0x90 => .rPos
      | _ => .reserved)
  else none

/-- The register a 64-bit host access at a bus address reaches: offsets count from `MMIO_BASE` (R40). The address's 64 bits
and a window that does not wrap past the last address are the model's choice (log entry 20). -/
def regAtAddress (addr : Word) : Option HostReg :=
  if Config.mmioBase.toNat ≤ addr.toNat then regAtOffset (addr.toNat - Config.mmioBase.toNat) else none

end Sys2Proof.Machine
end

