-- ==== Sys2Proof/Machine/Step.lean ====
section
/-! DEFINITION. One step of the machine: the host's next action (spec/00_scope.md R16, spec/10_state.md R22, R24). -/

namespace Sys2Proof.Machine

/-- One step. -/
def step (s : State) : Host.Outcome State Fault Refusal := performNext s

/-- `s` with the command word made of the low `nbits` bits of `w` placed where `step` takes its next command from: the
host's next action writes it to `CMD` (log entry 17). -/
def State.withFetchWord (s : State) (nbits w : Nat) : State :=
  queueCommand (BitVec.ofNat 64 (w % 2 ^ nbits)) s

end Sys2Proof.Machine
end

