-- ==== Sys2Proof/Machine/Assembler.lean ====
section
/-! DEFINITION. The assembler's lines and what each assembles to (spec/30_encoding.md R79, R80). -/

namespace Sys2Proof.Machine

/-- One line of assembler (R79): a command, a host action or a pseudo-instruction (R80). The suffix `T` is the element
size. Operands are numbers of the width the line's field has; the text of a line is not modelled (log entry 18). -/
inductive AsmLine where
  | winit (base : Word) (cap : Count)
  | wrebind (base : Word) (cap : Count)
  | putv (nb : BitVec 6) (value : Word)
  | puta (esz : ElemSize) (n : BitVec 6) (value : Word)
  | wreserve (n : Count)
  | flushA
  | flushNa
  | putvlq (value : BitVec 32)
  | putzz (value : Int)
  | wbytes
  | rinit (base : Word) (cap : Count)
  | getv (esz : ElemSize) (nb : BitVec 6)
  | getb (esz : ElemSize) (nb : BitVec 6) (count : Count) (out : Word)
  | geta (esz : ElemSize) (n : BitVec 6)
  | getvlq
  | getzz
  | rbytes
  | clearfault
  | softreset
  | hostwrite (addr : Word) (bytes : List Byte)
  | hostread (addr : Word) (n : Nat)
  | align
  | putbit (value : Word)
  | putb (value : Word)
  | getbit
  | getb1 (esz : ElemSize) (nb : BitVec 6) (out : Word)
  | rdetach
  deriving DecidableEq, Repr

/-- A line that uses `ARG`: `ARG <- value`, then `CMD <- word` (R79). -/
def issueWith (value : Word) (i : Instr) : List HostAction :=
  [.writeReg .arg value, .writeReg .cmd (encode i)]

/-- A line that does not use `ARG`: `CMD <- word` alone (R79). -/
def issueAlone (i : Instr) : List HostAction := [.writeReg .cmd (encode i)]

/-- What a line assembles to (R79, R80). -/
def assemble : AsmLine → List HostAction
  | .winit base cap => issueWith base (.wInit cap)
  | .wrebind base cap => issueWith base (.wRebind cap)
  | .putv nb value => issueWith value (.putValue nb)
  | .puta esz n value => issueWith value (.putAligned n esz)
  | .wreserve n => issueAlone (.getNextBytePtr n)
  | .flushA => issueAlone (.flush true)
  | .flushNa => issueAlone (.flush false)
  | .putvlq value => issueWith (value.setWidth 64) .putVlq
  | .putzz value => issueWith ((BitVec.ofInt 32 value).setWidth 64) .putZzvlq
  | .wbytes => issueAlone .bytesWritten
  | .rinit base cap => issueWith base (.rInit cap)
  | .getv esz nb => issueAlone (.getValue nb esz)
  | .getb esz nb count out => issueWith out (.getBatch nb esz count)
  | .geta esz n => issueAlone (.getAligned n esz)
  | .getvlq => issueAlone .getVlq
  | .getzz => issueAlone .getZzvlq
  | .rbytes => issueAlone .bytesLeft
  | .clearfault => [.writeReg .ctrl 1]
  | .softreset => [.writeReg .ctrl 2]
  | .hostwrite addr bytes => [.writeMem addr bytes]
  | .hostread addr n => [.readMem addr n]
  | .align => issueAlone (.flush true)
  | .putbit value => issueWith value (.putValue 1)
  | .putb value => issueWith value (.putAligned 1 .b)
  | .getbit => issueAlone (.getValue 1 .b)
  | .getb1 esz nb out => issueWith out (.getBatch nb esz 1)
  | .rdetach => issueWith 0 (.rInit 0)

end Sys2Proof.Machine
end

