-- ==== Sys2Proof/Safety.lean ====
section
/-! DEFINITION. The terms claims use: the invariants of the block (spec/10_state.md R33, R37), memory unchanged outside a
range, the packer's logical output (spec/40_packer.md R101), and sequences of PUT_VALUE (R112, R113). -/

namespace Sys2Proof.Machine

/-- The packer's invariants (R33), and that its buffer lies in the address space and is admitted (R51, R67). -/
structure PackerInv (s : State) : Prop where
  fits : wpos s ≤ 8 * s.wCap.toNat
  pending : s.wPending.toNat ≤ 63
  acc : s.wAcc.toNat < 2 ^ s.wPending.toNat
  inSpace : s.wBase.toNat + s.wCap.toNat ≤ 2 ^ 64
  bound : admitsRange s.admitted s.wBase.toNat (s.wBase.toNat + s.wCap.toNat) = true

/-- The window's equation of R36, of all eight bytes. -/
abbrev windowExact (s : State) : Prop :=
  ∀ i < 8, s.rWindow.extractLsb' (8 * i) 8 =
    if s.rConsumed.toNat + i < s.rCap.toNat then s.mem.read (s.rBase.toNat + s.rConsumed.toNat + i) else 0

/-- The unpacker's invariants (R37), and that its buffer lies in the address space and is admitted. -/
structure ReaderInv (s : State) : Prop where
  fits : rPos s ≤ 8 * s.rCap.toNat
  consumed : s.rConsumed.toNat ≤ s.rCap.toNat
  inSpace : s.rBase.toNat + s.rCap.toNat ≤ 2 ^ 64
  bound : admitsRange s.admitted s.rBase.toNat (s.rBase.toNat + s.rCap.toNat) = true
  window : windowExact s

/-- The fault record: cleared while there is no fault, a code of R212 while there is one (R25, R27). -/
structure FaultRecordInv (s : State) : Prop where
  cleared : s.fault = false → s.fcause = 0 ∧ s.fcmd = 0 ∧ s.farg = 0
  recorded : s.fault = true → 1 ≤ s.fcause.toNat ∧ s.fcause.toNat ≤ 8

/-- The data memory's form: canonical, and no address past the address space (R43). -/
structure MemoryInv (s : State) : Prop where
  canonical : s.mem.wf
  inSpace : ∀ c ∈ s.mem, c.1 < 2 ^ 64

/-- The invariant of the block. -/
structure Inv (s : State) : Prop where
  packer : PackerInv s
  reader : ReaderInv s
  record : FaultRecordInv s
  memory : MemoryInv s
  buffer : s.convBuf.length ≤ 1024

/-- Every byte outside `[lo, lo + len)` reads the same. -/
def sameOutside (m m' : Memory) (lo len : Nat) : Prop :=
  ∀ a, a < lo ∨ lo + len ≤ a → m'.read a = m.read a

/-- The bytes at `lo`, `lo + 1`, … are `bytes`. -/
def holdsBytes (m : Memory) (lo : Nat) (bytes : List Byte) : Prop :=
  ∀ j (h : j < bytes.length), m.read (lo + j) = bytes[j]

/-- Some byte of `[lo, lo + len)` lies in the unread region of an attached reader (R57). -/
def hitsUnread (s : State) (lo len : Nat) : Prop :=
  0 < s.rCap.toNat ∧ ∃ a, lo ≤ a ∧ a < lo + len ∧ unreadLo s ≤ a ∧ a < unreadHi s

/-- The fault state a command raises (R214), spelled out. -/
def faulted (s : State) (cause : BitVec 4) (word : Word) : State :=
  { s with fault := true, fcause := cause, fcmd := word, farg := s.arg }

/-- Bit `p` of the packer's logical output: of the committed bytes, then of the accumulator (R101). -/
def packedBit (s : State) (p : Nat) : Bool :=
  if p < 8 * s.wCommitted.toNat then s.mem.streamBit s.wBase.toNat p == 1
  else s.wAcc.getLsbD (p - 8 * s.wCommitted.toNat)

/-- Where a command stores when it succeeds and how many bytes, as the table of R56 gives it: a start and a length. -/
def storedRange (i : Instr) (s : State) : Nat × Nat :=
  let k := (s.wPending.toNat + 7) / 8
  let at_ := s.wBase.toNat + s.wCommitted.toNat
  match i with
  | .wInit _ => (at_, 0)
  | .wRebind _ => (at_, 0)
  | .putValue n => (at_, if 64 ≤ s.wPending.toNat + n.toNat then 8 else 0)
  | .putAligned n _ => (at_, k + n.toNat)
  | .getNextBytePtr _ => (at_, k)
  | .flush _ => (at_, k)
  | .putVlq => (at_, k + vlqLen (s.arg.setWidth 32))
  | .putZzvlq => (at_, k + vlqLen (zigZagEncode (s.arg.setWidth 32)))
  | .bytesWritten => (at_, 0)
  | .rInit _ => (s.arg.toNat, 0)
  | .getValue _ _ => (s.arg.toNat, 0)
  | .getBatch n esz batch =>
    (s.arg.toNat,
      (if n.toNat = 0 then batch.toNat else min batch.toNat ((8 * s.rCap.toNat - rPos s) / n.toNat)) * esz.sizeOf)
  | .getAligned _ _ => (s.arg.toNat, 0)
  | .getVlq => (s.arg.toNat, 0)
  | .getZzvlq => (s.arg.toNat, 0)
  | .bytesLeft => (s.arg.toNat, 0)

/-- A sequence of PUT_VALUE commands (width, value), the state after it if each one succeeds (R112, R113). -/
def putAll : List (BitVec 6 × Word) → State → Option State
  | [], s => some s
  | (n, v) :: rest, s =>
    match exec (.putValue n) { s with arg := v } with
    | .next t => if t.ok && !t.fault then putAll rest t else none
    | .fault _ => none
    | .refused _ => none

/-- The sum of the widths of a sequence. -/
def totalWidth (vs : List (BitVec 6 × Word)) : Nat := (vs.map fun p => p.1.toNat).sum

/-- The commands of the packer (R73: opcodes 0x10 to 0x18); the others are the unpacker's. -/
def isPackerCommand : Instr → Bool
  | .wInit _ => true
  | .wRebind _ => true
  | .putValue _ => true
  | .putAligned _ _ => true
  | .getNextBytePtr _ => true
  | .flush _ => true
  | .putVlq => true
  | .putZzvlq => true
  | .bytesWritten => true
  | .rInit _ => false
  | .getValue _ _ => false
  | .getBatch _ _ _ => false
  | .getAligned _ _ => false
  | .getVlq => false
  | .getZzvlq => false
  | .bytesLeft => false

/-- The commands that produce a value in `RES` (R23). -/
def producesValue : Instr → Bool
  | .wInit _ => false
  | .wRebind _ => false
  | .putValue _ => false
  | .putAligned _ _ => false
  | .getNextBytePtr _ => true
  | .flush _ => false
  | .putVlq => false
  | .putZzvlq => false
  | .bytesWritten => true
  | .rInit _ => false
  | .getValue _ _ => true
  | .getBatch _ _ _ => true
  | .getAligned _ _ => true
  | .getVlq => true
  | .getZzvlq => true
  | .bytesLeft => true

/-- The commands that read `ARG` (R73). -/
def readsArg : Instr → Bool
  | .wInit _ => true
  | .wRebind _ => true
  | .putValue _ => true
  | .putAligned _ _ => true
  | .getNextBytePtr _ => false
  | .flush _ => false
  | .putVlq => true
  | .putZzvlq => true
  | .bytesWritten => false
  | .rInit _ => true
  | .getValue _ _ => false
  | .getBatch _ _ _ => true
  | .getAligned _ _ => false
  | .getVlq => false
  | .getZzvlq => false
  | .bytesLeft => false

/-- The commands that cannot fail (R26). -/
def neverFails : Instr → Bool
  | .wInit _ => true
  | .wRebind _ => false
  | .putValue _ => false
  | .putAligned _ _ => false
  | .getNextBytePtr _ => false
  | .flush _ => true
  | .putVlq => false
  | .putZzvlq => false
  | .bytesWritten => true
  | .rInit _ => true
  | .getValue _ _ => false
  | .getBatch _ _ _ => true
  | .getAligned _ _ => false
  | .getVlq => false
  | .getZzvlq => false
  | .bytesLeft => true

/-- `k` GET_VALUE commands of `n` bits: the results in order and the state after them if each one succeeds (R155). -/
def getAll (n : BitVec 6) (esz : ElemSize) : Nat → State → Option (List Word × State)
  | 0, s => some ([], s)
  | k + 1, s =>
    match exec (.getValue n esz) s with
    | .next t => if t.ok && !t.fault then (getAll n esz k t).map fun r => (t.res :: r.1, r.2) else none
    | .fault _ => none
    | .refused _ => none

end Sys2Proof.Machine
end

