-- ==== Sys2Proof/Certificates/Slice0/Obligations.lean ====
section
/-! DEFINITION. The statements for the provers, each with the rule of spec/ it formalises. -/

open Sys2Proof Sys2Proof.Machine

/-! Encoding (spec/30_encoding.md). -/

/-- R81: the three worked lines assemble to their register writes, and their words decode back. -/
def Obligations.WorkedExamplesAssemble : Prop :=
  assemble (.putv 3 5) = [.writeReg .arg 0x5, .writeReg .cmd 0x0000000000000312] ∧
  assemble (.getb .w 3 4 0x2000) = [.writeReg .arg 0x2000, .writeReg .cmd 0x0000000400008322] ∧
  assemble .flushA = [.writeReg .cmd 0x0000000000010015] ∧
  decode 0x0000000000000312 = .ok (.putValue 3) ∧
  decode 0x0000000400008322 = .ok (.getBatch 3 .w 4) ∧
  decode 0x0000000000010015 = .ok (.flush true)

/-- The command words of spec/95_test_vectors.md decode to the commands they stand for, one word per opcode. -/
def Obligations.SpecWordsDecode : Prop :=
  decode 0x0000000200000010 = .ok (.wInit 2) ∧ decode 0x0000000100000011 = .ok (.wRebind 1) ∧
  decode 0x0000000000001F12 = .ok (.putValue 31) ∧ decode 0x000000000000C813 = .ok (.putAligned 8 .d) ∧
  decode 0x0000000400000014 = .ok (.getNextBytePtr 4) ∧ decode 0x0000000000000015 = .ok (.flush false) ∧
  decode 0x0000000000000016 = .ok .putVlq ∧ decode 0x0000000000000017 = .ok .putZzvlq ∧
  decode 0x0000000000000018 = .ok .bytesWritten ∧ decode 0x0000000600000020 = .ok (.rInit 6) ∧
  decode 0x0000000000009E21 = .ok (.getValue 30 .w) ∧ decode 0x0000004600004422 = .ok (.getBatch 4 .h 70) ∧
  decode 0x0000000000004223 = .ok (.getAligned 2 .h) ∧ decode 0x0000000000000024 = .ok .getVlq ∧
  decode 0x0000000000000025 = .ok .getZzvlq ∧ decode 0x0000000000000026 = .ok .bytesLeft

/-- R71, R73, R74: the word of a command decodes to that command, whatever its fields hold. -/
def Obligations.DecodeOfEncodeIsIdentity : Prop := ∀ i : Instr, decode (encode i) = .ok i

/-- R70, R78: a word has one reading, and no bit of it is dropped. -/
def Obligations.EncodeOfDecodeIsIdentity : Prop := ∀ (w : Word) (i : Instr), decode w = .ok i → encode i = w

/-- R74: the table of matches and masks. A word of an assigned opcode that meets its row's mask is that row's command with
the fields of R71; one that does not faults with `RESERVED_FIELD`. -/
def Obligations.OpcodeRowsSelectOrFault : Prop :=
  let esz (w : Word) : ElemSize := ElemSize.ofCode (w.extractLsb' 14 2)
  let rows : List (Word × Word × (Word → Instr)) :=
    [ (0x0000000000000010, 0x00000000FFFFFFFF, fun w => .wInit (w.extractLsb' 32 32)),
      (0x0000000000000011, 0x00000000FFFFFFFF, fun w => .wRebind (w.extractLsb' 32 32)),
      (0x0000000000000012, 0xFFFFFFFFFFFFC0FF, fun w => .putValue (w.extractLsb' 8 6)),
      (0x0000000000000013, 0xFFFFFFFFFFFF00FF, fun w => .putAligned (w.extractLsb' 8 6) (esz w)),
      (0x0000000000000014, 0x00000000FFFFFFFF, fun w => .getNextBytePtr (w.extractLsb' 32 32)),
      (0x0000000000000015, 0xFFFFFFFFFFFEFFFF, fun w => .flush (w.getLsbD 16)),
      (0x0000000000000016, 0xFFFFFFFFFFFFFFFF, fun _ => .putVlq),
      (0x0000000000000017, 0xFFFFFFFFFFFFFFFF, fun _ => .putZzvlq),
      (0x0000000000000018, 0xFFFFFFFFFFFFFFFF, fun _ => .bytesWritten),
      (0x0000000000000020, 0x00000000FFFFFFFF, fun w => .rInit (w.extractLsb' 32 32)),
      (0x0000000000000021, 0xFFFFFFFFFFFF00FF, fun w => .getValue (w.extractLsb' 8 6) (esz w)),
      (0x0000000000000022, 0x00000000FFFF00FF,
        fun w => .getBatch (w.extractLsb' 8 6) (esz w) (w.extractLsb' 32 32)),
      (0x0000000000000023, 0xFFFFFFFFFFFF00FF, fun w => .getAligned (w.extractLsb' 8 6) (esz w)),
      (0x0000000000000024, 0xFFFFFFFFFFFFFFFF, fun _ => .getVlq),
      (0x0000000000000025, 0xFFFFFFFFFFFFFFFF, fun _ => .getZzvlq),
      (0x0000000000000026, 0xFFFFFFFFFFFFFFFF, fun _ => .bytesLeft) ]
  ∀ row ∈ rows, ∀ (w : Word) (s : State), s.fault = false → w.extractLsb' 0 8 = row.1.extractLsb' 0 8 →
    (w &&& row.2.1 = row.1 → decode w = .ok (row.2.2 w) ∧ issueCommand w s = exec (row.2.2 w) s) ∧
    (w &&& row.2.1 ≠ row.1 → issueCommand w s = .next (faulted s 2 w))

/-- R75: every opcode R73 does not assign faults with `ILLEGAL_OPCODE`, the all-zero word among them. -/
def Obligations.UnassignedOpcodesFault : Prop :=
  ∀ (w : Word) (s : State), s.fault = false →
    ((w.extractLsb' 0 8).toNat ≤ 0x0F ∨
      (0x19 ≤ (w.extractLsb' 0 8).toNat ∧ (w.extractLsb' 0 8).toNat ≤ 0x1F) ∨ 0x27 ≤ (w.extractLsb' 0 8).toNat) →
    issueCommand w s = .next (faulted s 1 w) ∧ issueCommand 0 s = .next (faulted s 1 0)

/-- R76: the field values a word pattern admits but its command does not fault with `WIDTH`; `GET_ALIGNED` with `N > E`
fails instead; and every word is a command or faults. -/
def Obligations.InadmissibleWidthsFault : Prop :=
  (∀ (s : State) (n : BitVec 6) (esz : ElemSize) (batch : Count),
    (32 < n.toNat →
      exec (.putValue n) s = .next (faulted s 3 (encode (.putValue n))) ∧
      exec (.getValue n esz) s = .next (faulted s 3 (encode (.getValue n esz))) ∧
      exec (.getBatch n esz batch) s = .next (faulted s 3 (encode (.getBatch n esz batch)))) ∧
    (n.toNat = 0 ∨ esz.sizeOf < n.toNat →
      exec (.putAligned n esz) s = .next (faulted s 3 (encode (.putAligned n esz)))) ∧
    (n.toNat = 0 → exec (.getAligned n esz) s = .next (faulted s 3 (encode (.getAligned n esz)))) ∧
    (n.toNat ≠ 0 → esz.sizeOf < n.toNat →
      exec (.getAligned n esz) s = .next { s with ok := false, res := 0 })) ∧
  ∀ (w : Word) (s : State), s.fault = false →
    (∃ i, encode i = w ∧ issueCommand w s = exec i s) ∨
    issueCommand w s = .next (faulted s 1 w) ∨ issueCommand w s = .next (faulted s 2 w)

/-- R76, R212: a command raises `WIDTH` exactly when it is not well formed, whatever the state. -/
def Obligations.WidthFaultExactlyWhenIllFormed : Prop :=
  ∀ (i : Instr) (s t : State), s.fault = false → exec i s = .next t →
    ((t.fault = true ∧ t.fcause = 3) ↔ i.wellFormed = false)

/-! The step and the host's actions (spec/10_state.md R22, R24; spec/60_exceptions.md R225). -/

/-- R22, R24, R78: when the host's next action writes to `CMD` a word that decodes to `i`, and the block is not faulted, the step is `exec`
of `i`, with the action taken off the host's list and the index advanced by one (the list is the model's form, log entry 3). -/
def Obligations.StepRunsTheDecodedCommand : Prop :=
  ∀ (s : State) (w : Word) (i : Instr) (rest : List HostAction),
    s.hostActions = .writeReg .cmd w :: rest → s.fault = false → decode w = .ok i →
    step s = exec i { s with hostActions := rest, actionIndex := s.actionIndex + 1 }

/-- R225, R226, R39, R41, R240: the host's actions other than commands. A step performs the next action with the action taken
off the list; with none left the block keeps all its state. A write of `ARG` sets it; a write of `CTRL` resets, clears the
fault or does nothing; a hardware reset puts every register at its reset value; a write of any other register but `CMD` is
ignored; a register or memory read answers and changes nothing of the block; a memory write outside the unread region writes
its bytes and no other, and the read window follows. The model's own: the lists of actions and replies (log entries 3, 4);
the stop of an access past the address space (log entry 6); that memory accesses are not checked against the platform's
admission map (log entry 7); what a reset leaves that is not the block's (log entries 11, 15). -/
def Obligations.HostActionsTakeEffect : Prop :=
  ∀ (s : State), (s.hostActions = [] → step s = .next s) ∧
    ∀ (a : HostAction) (rest : List HostAction), s.hostActions = a :: rest →
      let s' : State := { s with hostActions := rest, actionIndex := s.actionIndex + 1 }
      step s = perform a s' ∧
      (∀ v, a = .writeReg .arg v → step s = .next { s' with arg := v }) ∧
      (∀ v, a = .writeReg .ctrl v →
        (v.getLsbD 1 = true → step s = perform .hardwareReset s') ∧
        (v.getLsbD 1 = false → v.getLsbD 0 = true →
          step s = .next { s' with fault := false, fcause := 0, fcmd := 0, farg := 0 }) ∧
        (v.getLsbD 1 = false → v.getLsbD 0 = false → step s = .next s')) ∧
      (a = .hardwareReset → step s = .next { s' with
        arg := 0, res := 0, fcmd := 0, farg := 0, ok := false, fault := false, fcause := 0
        wBase := 0, wCap := 0, wAcc := 0, wCommitted := 0, wPending := 0, wNaf := false
        rBase := 0, rCap := 0, rConsumed := 0, rPending := 0, rWindow := 0, convBuf := [] }) ∧
      (∀ r v, r ≠ .arg → r ≠ .cmd → r ≠ .ctrl → a = .writeReg r v → step s = .next s') ∧
      (∀ r, a = .readReg r → step s = .next { s' with replies := .reg r (readReg r s) :: s.replies }) ∧
      (∀ addr n, a = .readMem addr n →
        (2 ^ 64 < addr.toNat + n → step s = .fault .noSuchAddress) ∧
        (addr.toNat + n ≤ 2 ^ 64 →
          ∃ bytes : List Byte, bytes.length = n ∧ holdsBytes s.mem addr.toNat bytes ∧
            step s = .next { s' with replies := .mem addr bytes :: s.replies })) ∧
      (∀ addr bytes, a = .writeMem addr bytes →
        (2 ^ 64 < addr.toNat + bytes.length → step s = .fault .noSuchAddress) ∧
        (addr.toNat + bytes.length ≤ 2 ^ 64 → s.mem.wf → ¬ hitsUnread s addr.toNat bytes.length →
          ∃ t, step s = .next t ∧ t = { s' with mem := t.mem, rWindow := t.rWindow } ∧ t.mem.wf ∧
            holdsBytes t.mem addr.toNat bytes ∧ sameOutside s.mem t.mem addr.toNat bytes.length ∧ windowExact t))

/-- R225, R227: a host write that meets the unread region has no move in the model. -/
def Obligations.HostWriteOfUnreadRegionHasNoMove : Prop :=
  ∀ (s : State) (addr : Word) (bytes : List Byte) (rest : List HostAction),
    s.hostActions = .writeMem addr bytes :: rest → addr.toNat + bytes.length ≤ 2 ^ 64 →
    hitsUnread s addr.toNat bytes.length → step s = .refused .hostWroteUnreadRegion

/-- R215: while faulted a write to `CMD` changes nothing, whatever the word; writes to `ARG` and `CTRL` and reads of every
register work as usual. The list of actions, its index and the list of replies are the model's form (log entries 3, 4). -/
def Obligations.CommandsDroppedWhileFaulted : Prop :=
  ∀ (s : State) (rest : List HostAction), s.fault = true →
    let s' : State := { s with hostActions := rest, actionIndex := s.actionIndex + 1 }
    (∀ w, s.hostActions = .writeReg .cmd w :: rest → step s = .next s') ∧
    (∀ v, s.hostActions = .writeReg .arg v :: rest → step s = .next { s' with arg := v }) ∧
    (∀ v, s.hostActions = .writeReg .ctrl v :: rest → step s = .next (writeCtrl v s')) ∧
    (∀ r, s.hostActions = .readReg r :: rest →
      step s = .next { s' with replies := .reg r (readReg r s) :: s.replies })

/-! Faults and reset (spec/60_exceptions.md, spec/70_reset_and_hazards.md). -/

/-- R213: a fault records the cause, the command word and `ARG`, and leaves everything else as it was. -/
def Obligations.FaultsArePrecise : Prop :=
  ∀ (w : Word) (s t : State), s.fault = false → issueCommand w s = .next t → t.fault = true →
    ∃ c : BitVec 4, 1 ≤ c.toNat ∧ c.toNat ≤ 8 ∧
      t = { s with fault := true, fcause := c, fcmd := w, farg := s.arg }

/-- R217: `FAULT_CLEAR` clears the fault and its record and nothing else; a second fault cannot occur before that; without
a fault it has no effect. -/
def Obligations.FaultClearReturns : Prop :=
  ∀ (s : State) (v : Word),
    (v.getLsbD 0 = true → v.getLsbD 1 = false →
      perform (.writeReg .ctrl v) s = .next { s with fault := false, fcause := 0, fcmd := 0, farg := 0 } ∧
      (FaultRecordInv s → s.fault = false → perform (.writeReg .ctrl v) s = .next s)) ∧
    (∀ w i, s.fault = true → decode w = .ok i →
      perform (.writeReg .cmd w) s = .next s ∧
      perform (.writeReg .cmd w) (faultClear s) = exec i (faultClear s)) ∧
    ∃ t, perform .hardwareReset s = .next t ∧ t.fault = false ∧ t.fcause = 0 ∧ t.fcmd = 0 ∧ t.farg = 0

/-- R39: `CTRL` reads as 0; bit 0 clears the fault, bit 1 resets, which clears the fault too, and wins; the other bits are
ignored and zeros do nothing. -/
def Obligations.ControlRegisterWrites : Prop :=
  ∀ (s : State) (v : Word),
    readReg .ctrl s = 0 ∧
    (v.getLsbD 1 = true → perform (.writeReg .ctrl v) s = perform .hardwareReset s ∧
      ∃ t, perform .hardwareReset s = .next t ∧ t.fault = false ∧ t.fcause = 0 ∧ t.fcmd = 0 ∧ t.farg = 0) ∧
    (v.getLsbD 1 = false → v.getLsbD 0 = true →
      perform (.writeReg .ctrl v) s = .next { s with fault := false, fcause := 0, fcmd := 0, farg := 0 }) ∧
    (v.getLsbD 1 = false → v.getLsbD 0 = false → perform (.writeReg .ctrl v) s = .next s) ∧
    ∀ u : Word, u.extractLsb' 0 2 = v.extractLsb' 0 2 →
      perform (.writeReg .ctrl u) s = perform (.writeReg .ctrl v) s

/-- R240: the two resets have the same effect. Every register and internal element takes its value of R42, the data memory
is not changed, and a soft reset is performed while faulted too. That the host's program, the platform's map and the count
of free values stay (log entry 15), and the intermediate buffer's value (log entry 11), are the model's choice. -/
def Obligations.BothResetsClearTheBlock : Prop :=
  ∀ (s : State) (v : Word), v.getLsbD 1 = true →
    perform (.writeReg .ctrl v) s = perform .hardwareReset s ∧
    perform .hardwareReset s = .next { s with
      arg := 0, res := 0, fcmd := 0, farg := 0, ok := false, fault := false, fcause := 0
      wBase := 0, wCap := 0, wAcc := 0, wCommitted := 0, wPending := 0, wNaf := false
      rBase := 0, rCap := 0, rConsumed := 0, rPending := 0, rWindow := 0, convBuf := [] }

/-- R241: the state after reset. `STATUS` and the command port registers are 0, the reader is unattached, and in the unbound
packer every PUT of at least one bit or byte fails. -/
def Obligations.ResetStateIsUnbound : Prop :=
  let r := State.reset
  readReg .status r = 0 ∧ r.arg = 0 ∧ r.res = 0 ∧ r.fcmd = 0 ∧ r.farg = 0 ∧
  r.wCap = 0 ∧ r.rCap = 0 ∧ rPos r = 0 ∧
  ∀ (v : Word) (n : BitVec 6) (esz : ElemSize),
    let s : State := { r with arg := v }
    let failed : State := { r with arg := v, ok := false }
    (1 ≤ n.toNat → n.toNat ≤ 32 → v.toNat < 2 ^ n.toNat → exec (.putValue n) s = .next failed) ∧
    (1 ≤ n.toNat → n.toNat ≤ esz.sizeOf → exec (.putAligned n esz) s = .next failed) ∧
    exec .putVlq s = .next failed ∧ exec .putZzvlq s = .next failed

/-- R214, R217, R240: a fault is sticky. A step leaves the faulted state only by `FAULT_CLEAR` or a reset. -/
def Obligations.FaultIsSticky : Prop :=
  ∀ (s t : State), s.fault = true → step s = .next t → t.fault = false →
    ∃ rest, s.hostActions = .hardwareReset :: rest ∨
      ∃ v, s.hostActions = .writeReg .ctrl v :: rest ∧ (v.getLsbD 0 = true ∨ v.getLsbD 1 = true)

/-! The register map (spec/10_state.md R25, R40, R41). -/

/-- R40: what the host reads at each offset of the map, narrower registers zero-extended. -/
def Obligations.RegisterMapReads : Prop :=
  ∀ (s : State),
    ∀ p ∈ ([ (0x00, s.arg), (0x08, 0), (0x10, s.res), (0x20, 0), (0x28, s.fcmd), (0x30, s.farg),
        (0x40, s.wBase), (0x48, BitVec.ofNat 64 s.wCap.toNat), (0x50, s.wAcc),
        (0x58, BitVec.ofNat 64 s.wCommitted.toNat), (0x60, BitVec.ofNat 64 s.wPending.toNat),
        (0x80, s.rBase), (0x88, BitVec.ofNat 64 s.rCap.toNat),
        (0x90, BitVec.ofNat 64 (8 * s.rConsumed.toNat + s.rPending.toNat)) ] : List (Nat × Word)),
      ∃ r, regAtOffset p.1 = some r ∧ readReg r s = p.2

/-- R41: reserved offsets read 0 and ignore writes, read-only registers ignore writes, and an access that is not 8-byte
aligned reaches no register. -/
def Obligations.ReservedOffsetsAndReadOnlyRegisters : Prop :=
  0xA0 ≤ Config.windowBytes ∧
  (∀ off, off % 8 = 0 → off < Config.windowBytes →
    off = 0x38 ∨ (0x68 ≤ off ∧ off ≤ 0x78) ∨ off = 0x98 ∨ 0xA0 ≤ off → regAtOffset off = some .reserved) ∧
  (∀ off, off % 8 ≠ 0 → regAtOffset off = none) ∧
  (∀ s, readReg .reserved s = 0) ∧
  ∀ (r : HostReg) (v : Word) (s : State), r ≠ .arg → r ≠ .cmd → r ≠ .ctrl → perform (.writeReg r v) s = .next s

/-- R25: the fields of `STATUS`, its reserved bits 0, and `FCAUSE` 0 when there is no fault. -/
def Obligations.StatusWordFields : Prop :=
  regAtOffset 0x18 = some .status ∧
  ∀ (s : State),
    let w := readReg .status s
    w.getLsbD 0 = s.ok ∧ w.getLsbD 1 = s.fault ∧ w.getLsbD 2 = s.wNaf ∧
    w.extractLsb' 3 5 = 0 ∧ w.extractLsb' 8 4 = s.fcause ∧ w.extractLsb' 12 52 = 0 ∧
    (FaultRecordInv s → w.getLsbD 1 = false → w.extractLsb' 8 4 = 0)

/-! Rules over every command. -/

/-- R17: every command has a meaning: `exec` stops on none, in no state. -/
def Obligations.EveryCommandAnswersNext : Prop := ∀ (i : Instr) (s : State), ∃ t, exec i s = .next t

/-- R26: every completed command writes `STATUS.OK`, a faulting one does not, the commands that cannot fail write 1, and no
command reads it. -/
def Obligations.CompletedCommandsWriteOk : Prop :=
  ∀ (i : Instr) (s t : State), s.fault = false → exec i s = .next t →
    (t.fault = true → t.ok = s.ok) ∧
    (t.fault = false → neverFails i = true → t.ok = true) ∧
    ∀ b : Bool, exec i { s with ok := b } = .next (if t.fault then { t with ok := b } else t)

/-- R23: `RES` is written by the value-producing commands alone, with 0 when they fail, and never by a faulting command. -/
def Obligations.ResWrittenByValueCommandsOnly : Prop :=
  ∀ (i : Instr) (s t : State), s.fault = false → exec i s = .next t →
    (producesValue i = false → t.res = s.res) ∧
    (t.fault = true → t.res = s.res) ∧
    (producesValue i = true → t.fault = false → t.ok = false → t.res = 0)

/-- R21, R246: no command writes `ARG`, and a command that does not use it ignores it, but for recording it in a fault. -/
def Obligations.ArgIsNeverWrittenAndIgnoredWhenUnused : Prop :=
  ∀ (i : Instr) (s t : State), s.fault = false → exec i s = .next t →
    t.arg = s.arg ∧
    (readsArg i = false → ∀ v : Word,
      exec i { s with arg := v } = .next { t with arg := v, farg := if t.fault then v else t.farg })

/-- R2, R36: the units share no state but the data memory and the status registers. A packer command changes nothing of the
reader but the window, the reader's copy of memory, where the command stores; an unpacker command changes nothing of the
packer; and no command changes the platform's map or the host's program. -/
def Obligations.UnitsAreIsolated : Prop :=
  ∀ (i : Instr) (s t : State), exec i s = .next t →
    (isPackerCommand i = true →
      t = { s with
        ok := t.ok, res := t.res, fault := t.fault, fcause := t.fcause, fcmd := t.fcmd, farg := t.farg
        wBase := t.wBase, wCap := t.wCap, wAcc := t.wAcc, wCommitted := t.wCommitted, wPending := t.wPending
        wNaf := t.wNaf, mem := t.mem, rWindow := t.rWindow, freeCount := t.freeCount } ∧
      (t.rWindow = s.rWindow ∨ windowExact t)) ∧
    (isPackerCommand i = false →
      t = { s with
        ok := t.ok, res := t.res, fault := t.fault, fcause := t.fcause, fcmd := t.fcmd, farg := t.farg
        rBase := t.rBase, rCap := t.rCap, rConsumed := t.rConsumed, rPending := t.rPending, rWindow := t.rWindow
        convBuf := t.convBuf, mem := t.mem })

/-- R50, R56, R57: a byte that a command changes lies in the range R56 gives that command: for a packer command the bytes from
`W_BASE + W_COMMITTED` on that it stores, inside its bound buffer; for GET_BATCH its output array; no other command changes a
byte. It is never in the unread region, and a faulting or failing command changes no byte. -/
def Obligations.CommandsWriteOnlyTheirRanges : Prop :=
  ∀ (i : Instr) (s t : State) (a : Nat), Inv s → s.fault = false → exec i s = .next t → t.mem.read a ≠ s.mem.read a →
    t.fault = false ∧ t.ok = true ∧ ¬ (unreadLo s ≤ a ∧ a < unreadHi s) ∧
    (storedRange i s).1 ≤ a ∧ a < (storedRange i s).1 + (storedRange i s).2 ∧
    ((isPackerCommand i = true ∧ s.wBase.toNat ≤ a ∧ a < s.wBase.toNat + s.wCap.toNat) ∨
      ∃ n esz batch, i = .getBatch n esz batch)

/-- R102: a packer command that fails changes no register but `STATUS.OK`, and `RES` where its rule says, and writes no
memory; one that faults changes nothing but the fault state. -/
def Obligations.FailedPackerCommandsAreAtomic : Prop :=
  ∀ (i : Instr) (s t : State), isPackerCommand i = true → s.fault = false → exec i s = .next t →
    (t.fault = true → t = faulted s t.fcause (encode i)) ∧
    (t.fault = false → t.ok = false →
      t = { s with ok := false, res := if producesValue i then 0 else s.res })

/-- R143: an unpacker command that fails leaves the cursor and the window unchanged and writes `RES <- 0` and
`STATUS.OK <- 0`; GET_BATCH never fails. -/
def Obligations.FailedReadsKeepTheCursor : Prop :=
  ∀ (i : Instr) (s t : State), isPackerCommand i = false → s.fault = false → exec i s = .next t → t.fault = false →
    (t.ok = false → t = { s with ok := false, res := 0 }) ∧
    ((∃ n esz batch, i = .getBatch n esz batch) → t.ok = true)

/-! The packer (spec/40_packer.md). -/

/-- R104: W_INIT binds the packer, or faults on a range past the address space, else on an address not admitted. -/
def Obligations.WInitBindsTheBuffer : Prop :=
  ∀ (cap : Count) (s : State),
    let base := s.arg.toNat
    (2 ^ 64 < base + cap.toNat → exec (.wInit cap) s = .next (faulted s 6 (encode (.wInit cap)))) ∧
    (base + cap.toNat ≤ 2 ^ 64 → (∃ a, base ≤ a ∧ a < base + cap.toNat ∧ memAdmits s.admitted a = false) →
      exec (.wInit cap) s = .next (faulted s 8 (encode (.wInit cap)))) ∧
    (base + cap.toNat ≤ 2 ^ 64 → (∀ a, base ≤ a → a < base + cap.toNat → memAdmits s.admitted a = true) →
      exec (.wInit cap) s = .next { s with
        wBase := s.arg, wCap := cap, wAcc := 0, wCommitted := 0, wPending := 0, wNaf := false, ok := true })

/-- R105: W_REBIND replaces the buffer and keeps the cursor; it faults as W_INIT does, and fails when the new capacity is
too small for the cursor. -/
def Obligations.WRebindKeepsTheCursor : Prop :=
  ∀ (cap : Count) (s : State),
    let base := s.arg.toNat
    (2 ^ 64 < base + cap.toNat → exec (.wRebind cap) s = .next (faulted s 6 (encode (.wRebind cap)))) ∧
    (base + cap.toNat ≤ 2 ^ 64 → (∃ a, base ≤ a ∧ a < base + cap.toNat ∧ memAdmits s.admitted a = false) →
      exec (.wRebind cap) s = .next (faulted s 8 (encode (.wRebind cap)))) ∧
    (base + cap.toNat ≤ 2 ^ 64 → (∀ a, base ≤ a → a < base + cap.toNat → memAdmits s.admitted a = true) →
      (8 * cap.toNat < 8 * s.wCommitted.toNat + s.wPending.toNat →
        exec (.wRebind cap) s = .next { s with ok := false }) ∧
      (8 * s.wCommitted.toNat + s.wPending.toNat ≤ 8 * cap.toNat →
        exec (.wRebind cap) s = .next { s with wBase := s.arg, wCap := cap, ok := true }))

/-- R106, R216: every outcome of PUT_VALUE in the order of its checks, with the registers each leaves, the eight bytes the
carry stores, every other byte unchanged, and the read window following the store (R36). -/
def Obligations.PutValueOutcomes : Prop :=
  ∀ (n : BitVec 6) (s : State), PackerInv s → s.mem.wf →
    let nb := n.toNat
    let P := s.wPending.toNat
    let C := s.wCommitted.toNat
    let acc := s.wAcc ||| (s.arg <<< P)
    let at_ := s.wBase.toNat + C
    (32 < nb → exec (.putValue n) s = .next (faulted s 3 (encode (.putValue n)))) ∧
    (nb ≤ 32 → 2 ^ nb ≤ s.arg.toNat → exec (.putValue n) s = .next (faulted s 4 (encode (.putValue n)))) ∧
    (nb ≤ 32 → s.arg.toNat < 2 ^ nb →
      (s.wNaf = true → exec (.putValue n) s = .next (faulted s 5 (encode (.putValue n)))) ∧
      (s.wNaf = false → 8 * s.wCap.toNat < 8 * C + P + nb → exec (.putValue n) s = .next { s with ok := false }) ∧
      (s.wNaf = false → 8 * C + P + nb ≤ 8 * s.wCap.toNat →
        (P + nb < 64 →
          exec (.putValue n) s = .next { s with wAcc := acc, wPending := BitVec.ofNat 7 (P + nb), ok := true }) ∧
        (64 ≤ P + nb → hitsUnread s at_ 8 → exec (.putValue n) s = .next (faulted s 7 (encode (.putValue n)))) ∧
        (64 ≤ P + nb → ¬ hitsUnread s at_ 8 →
          ∃ t, exec (.putValue n) s = .next t ∧
            t = { s with
              mem := t.mem, rWindow := t.rWindow, wCommitted := BitVec.ofNat 32 (C + 8)
              wPending := BitVec.ofNat 7 (P + nb - 64), wAcc := s.arg >>> (64 - P), ok := true } ∧
            (∀ j < 8, t.mem.read (at_ + j) = acc.extractLsb' (8 * j) 8) ∧ sameOutside s.mem t.mem at_ 8 ∧
            windowExact t)))

/-- R101, R106: a PUT_VALUE that succeeds appends the bits of its value to the packer's logical output, least significant
first, and changes none of the bits before them. -/
def Obligations.PutValueAppendsItsBits : Prop :=
  ∀ (n : BitVec 6) (s t : State), PackerInv s → s.mem.wf → s.fault = false →
    exec (.putValue n) s = .next t → t.fault = false → t.ok = true →
    wpos t = wpos s + n.toNat ∧
    (∀ p < wpos s, packedBit t p = packedBit s p) ∧
    (∀ j < n.toNat, packedBit t (wpos s + j) = s.arg.getLsbD j)

/-- R103, R107: FLUSH stores the partial bytes of the accumulator, little-endian, and no other byte; with `AL = 1` the cursor
moves to the next byte boundary, with `AL = 0` only `W_NAF` is set; the read window follows the bytes stored (R36); it faults
only on the unread region. -/
def Obligations.FlushStoresThePartialBytes : Prop :=
  ∀ (al : Bool) (s : State), PackerInv s → s.mem.wf →
    let k := (s.wPending.toNat + 7) / 8
    let at_ := s.wBase.toNat + s.wCommitted.toNat
    (hitsUnread s at_ k → exec (.flush al) s = .next (faulted s 7 (encode (.flush al)))) ∧
    (¬ hitsUnread s at_ k →
      ∃ t, exec (.flush al) s = .next t ∧
        t = (if al then
          { s with mem := t.mem, rWindow := t.rWindow, wCommitted := BitVec.ofNat 32 (s.wCommitted.toNat + k), wAcc := 0
                   wPending := 0, wNaf := false, ok := true }
          else { s with mem := t.mem, rWindow := t.rWindow, wNaf := true, ok := true }) ∧
        (∀ j < k, t.mem.read (at_ + j) = s.wAcc.extractLsb' (8 * j) 8) ∧ sameOutside s.mem t.mem at_ k ∧ windowExact t)

/-- R108, R248: after a non-aligned flush PUT_VALUE faults with `SEQUENCE`, W_INIT clears the flag, and an aligned flush
rewrites the same bytes and clears it. -/
def Obligations.NonAlignedFlushEndsBitPacking : Prop :=
  ∀ (s t : State), PackerInv s → s.mem.wf → s.fault = false → exec (.flush false) s = .next t → t.fault = false →
    (∀ (n : BitVec 6) (v : Word), n.toNat ≤ 32 → v.toNat < 2 ^ n.toNat →
      exec (.putValue n) { t with arg := v } = .next (faulted { t with arg := v } 5 (encode (.putValue n)))) ∧
    (∃ u, exec (.flush true) t = .next u ∧ u.fault = false ∧ u.wNaf = false ∧ u.wPending = 0 ∧
      ∀ a, u.mem.read a = t.mem.read a) ∧
    ∀ cap u, exec (.wInit cap) t = .next u → u.fault = false → u.wNaf = false

/-- R109: PUT_ALIGNED closes the partial byte and writes the low `n` bytes of `ARG`, little-endian; it fails for want of
space before anything is written, and faults on the unread region. The read window follows the bytes stored (R36). -/
def Obligations.PutAlignedWritesItsField : Prop :=
  ∀ (n : BitVec 6) (esz : ElemSize) (s : State), PackerInv s → s.mem.wf → 1 ≤ n.toNat → n.toNat ≤ esz.sizeOf →
    let k := (s.wPending.toNat + 7) / 8
    let C := s.wCommitted.toNat
    let at_ := s.wBase.toNat + C
    (s.wCap.toNat < C + k + n.toNat → exec (.putAligned n esz) s = .next { s with ok := false }) ∧
    (C + k + n.toNat ≤ s.wCap.toNat → hitsUnread s at_ (k + n.toNat) →
      exec (.putAligned n esz) s = .next (faulted s 7 (encode (.putAligned n esz)))) ∧
    (C + k + n.toNat ≤ s.wCap.toNat → ¬ hitsUnread s at_ (k + n.toNat) →
      ∃ t, exec (.putAligned n esz) s = .next t ∧
        t = { s with
          mem := t.mem, rWindow := t.rWindow, wCommitted := BitVec.ofNat 32 (C + k + n.toNat), wAcc := 0, wPending := 0
          wNaf := false, ok := true } ∧
        (∀ j < k, t.mem.read (at_ + j) = s.wAcc.extractLsb' (8 * j) 8) ∧
        (∀ j < n.toNat, t.mem.read (at_ + k + j) = s.arg.extractLsb' (8 * j) 8) ∧
        sameOutside s.mem t.mem at_ (k + n.toNat) ∧ windowExact t)

/-- R110: GET_NEXT_BYTE_PTR closes the partial byte, leaves the address of the reserved window in `RES`, moves the cursor past
it and writes none of it; the read window follows the partial byte stored (R36). Where that address is `2^64` the model leaves a free value in `RES` (log entry 9) and everything
else holds. -/
def Obligations.GetNextBytePtrReserves : Prop :=
  ∀ (count : Count) (s : State), PackerInv s → s.mem.wf →
    let k := (s.wPending.toNat + 7) / 8
    let C := s.wCommitted.toNat
    let at_ := s.wBase.toNat + C
    (s.wCap.toNat < C + k + count.toNat →
      exec (.getNextBytePtr count) s = .next { s with ok := false, res := 0 }) ∧
    (C + k + count.toNat ≤ s.wCap.toNat → hitsUnread s at_ k →
      exec (.getNextBytePtr count) s = .next (faulted s 7 (encode (.getNextBytePtr count)))) ∧
    (C + k + count.toNat ≤ s.wCap.toNat → ¬ hitsUnread s at_ k →
      ∃ t, exec (.getNextBytePtr count) s = .next t ∧
        t = { s with
          mem := t.mem, rWindow := t.rWindow, wCommitted := BitVec.ofNat 32 (C + k + count.toNat), wAcc := 0, wPending := 0
          wNaf := false, ok := true, res := t.res, freeCount := t.freeCount } ∧
        (at_ + k < 2 ^ 64 → t.res.toNat = at_ + k ∧ t.freeCount = s.freeCount) ∧
        (∀ j < k, t.mem.read (at_ + j) = s.wAcc.extractLsb' (8 * j) 8) ∧ sameOutside s.mem t.mem at_ k ∧ windowExact t)

/-- R186, R187: PUT_VLQ and PUT_ZZVLQ close the partial byte and append the varint of `ARG[31:0]` or of its zigzag code; the
whole of it must fit, and no byte of it may lie in the unread region. The read window follows the bytes stored (R36). -/
def Obligations.PutVarintsAppendTheirBytes : Prop :=
  ∀ (s : State), PackerInv s → s.mem.wf →
    ∀ p ∈ ([ (Instr.putVlq, s.arg.setWidth 32), (Instr.putZzvlq, zigZagEncode (s.arg.setWidth 32)) ] :
        List (Instr × BitVec 32)),
      let bytes := vlqEncode p.2
      let k := (s.wPending.toNat + 7) / 8
      let C := s.wCommitted.toNat
      let at_ := s.wBase.toNat + C
      (s.wCap.toNat < C + k + bytes.length → exec p.1 s = .next { s with ok := false }) ∧
      (C + k + bytes.length ≤ s.wCap.toNat → hitsUnread s at_ (k + bytes.length) →
        exec p.1 s = .next (faulted s 7 (encode p.1))) ∧
      (C + k + bytes.length ≤ s.wCap.toNat → ¬ hitsUnread s at_ (k + bytes.length) →
        ∃ t, exec p.1 s = .next t ∧
          t = { s with
            mem := t.mem, rWindow := t.rWindow, wCommitted := BitVec.ofNat 32 (C + k + bytes.length), wAcc := 0
            wPending := 0, wNaf := false, ok := true } ∧
          (∀ j < k, t.mem.read (at_ + j) = s.wAcc.extractLsb' (8 * j) 8) ∧ holdsBytes t.mem (at_ + k) bytes ∧
          sameOutside s.mem t.mem at_ (k + bytes.length) ∧ windowExact t)

/-- R111: BYTES_WRITTEN leaves `W_COMMITTED + ceil8(W_PENDING)` in `RES`, at most `W_CAP`. -/
def Obligations.BytesWrittenCountsTheOutput : Prop :=
  ∀ (s : State),
    exec .bytesWritten s = .next { s with
      ok := true, res := BitVec.ofNat 64 (s.wCommitted.toNat + (s.wPending.toNat + 7) / 8) } ∧
    (PackerInv s → s.wCommitted.toNat + (s.wPending.toNat + 7) / 8 ≤ s.wCap.toNat)

/-! Sequences of PUT_VALUE (spec/40_packer.md R112, R113; spec/41_unpacker.md R155). -/

/-- R112: in a buffer of `k` bytes a sequence of PUT_VALUE whose widths sum to `8k` goes through; then one more bit of any
width fails and leaves BYTES_WRITTEN at `k`, and a PUT_VALUE of no bits still succeeds. -/
def Obligations.CapacityBoundary : Prop :=
  ∀ (k : Count) (s b : State) (vs : List (BitVec 6 × Word)), Inv s → s.fault = false →
    exec (.wInit k) s = .next b → b.fault = false → totalWidth vs = 8 * k.toNat →
    (∀ p ∈ vs, p.1.toNat ≤ 32 ∧ p.2.toNat < 2 ^ p.1.toNat) → ¬ hitsUnread s s.arg.toNat k.toNat →
    ∃ t, putAll vs b = some t ∧
      (∀ (n : BitVec 6) (v : Word), 1 ≤ n.toNat → n.toNat ≤ 32 → v.toNat < 2 ^ n.toNat →
        exec (.putValue n) { t with arg := v } = .next { t with arg := v, ok := false }) ∧
      exec .bytesWritten t = .next { t with ok := true, res := BitVec.ofNat 64 k.toNat } ∧
      exec (.putValue 0) { t with arg := 0 } = .next { t with arg := 0, ok := true }

/-- R113: after W_INIT, a sequence of PUT_VALUE and an aligned FLUSH, the buffer holds the values' bits in order, each least
significant bit first, and zeros up to the byte boundary. -/
def Obligations.OutputContent : Prop :=
  ∀ (cap : Count) (s b t u : State) (vs : List (BitVec 6 × Word)), Inv s → s.fault = false →
    exec (.wInit cap) s = .next b → b.fault = false → putAll vs b = some t →
    exec (.flush true) t = .next u → u.fault = false →
    let B := s.arg.toNat
    let S := totalWidth vs
    (∀ j (h : j < vs.length),
      u.mem.streamBits B (totalWidth (vs.take j)) vs[j].1.toNat = vs[j].2.toNat) ∧
    u.mem.streamBits B S (8 * ((S + 7) / 8) - S) = 0

/-- R155: values packed at width `nb`, flushed, and read back at width `nb` by GET_VALUE or by one GET_BATCH return in
order. -/
def Obligations.RoundTrip : Prop :=
  ∀ (cap c : Count) (nb : BitVec 6) (esz : ElemSize) (s b t u r : State) (vs : List Word), Inv s → s.fault = false →
    1 ≤ nb.toNat → nb.toNat ≤ 32 → (nb.toNat + 7) / 8 ≤ esz.sizeOf → (vs.length * nb.toNat + 7) / 8 ≤ c.toNat →
    exec (.wInit cap) s = .next b → b.fault = false →
    putAll (vs.map fun v => (nb, v)) b = some t →
    exec (.flush true) t = .next u → u.fault = false →
    exec (.rInit c) { u with arg := s.arg } = .next r → r.fault = false →
    (∃ z, getAll nb esz vs.length r = some (vs, z)) ∧
    ∀ (out : Word) (z : State), vs.length < 2 ^ 32 →
      exec (.getBatch nb esz (BitVec.ofNat 32 vs.length)) { r with arg := out } = .next z → z.fault = false →
      z.res.toNat = vs.length ∧
      ∀ j (h : j < vs.length), z.mem.readLE (out.toNat + j * esz.sizeOf) esz.sizeOf = vs[j].toNat

/-! The unpacker (spec/41_unpacker.md). -/

/-- R144: R_INIT attaches the unpacker at position 0 and fills the window; it faults as W_INIT does. -/
def Obligations.RInitAttachesTheBuffer : Prop :=
  ∀ (cap : Count) (s : State),
    let base := s.arg.toNat
    (2 ^ 64 < base + cap.toNat → exec (.rInit cap) s = .next (faulted s 6 (encode (.rInit cap)))) ∧
    (base + cap.toNat ≤ 2 ^ 64 → (∃ a, base ≤ a ∧ a < base + cap.toNat ∧ memAdmits s.admitted a = false) →
      exec (.rInit cap) s = .next (faulted s 8 (encode (.rInit cap)))) ∧
    (base + cap.toNat ≤ 2 ^ 64 → (∀ a, base ≤ a → a < base + cap.toNat → memAdmits s.admitted a = true) →
      ∃ t, exec (.rInit cap) s = .next t ∧ windowExact t ∧
        t = { s with
          rBase := s.arg, rCap := cap, rConsumed := 0, rPending := 0, rWindow := t.rWindow, ok := true })

/-- R142, R148: `ScalarGet(nb)` returns the stream's bits at the read position and advances it by `nb`. -/
def Obligations.ScalarGetReadsTheStream : Prop :=
  ∀ (nb : Nat) (s : State), ReaderInv s → nb ≤ 32 → rPos s + nb ≤ 8 * s.rCap.toNat →
    scalarValue nb s = s.mem.streamBits s.rBase.toNat (rPos s) nb ∧ rPos (scalarAdvance nb s) = rPos s + nb

/-- R145: GET_VALUE delivers the stream's bits cut to the element, and advances the position, the window with it; with too few
bits left it fails. Nothing else changes. -/
def Obligations.GetValueReadsTheStream : Prop :=
  ∀ (n : BitVec 6) (esz : ElemSize) (s : State), ReaderInv s → n.toNat ≤ 32 →
    (8 * s.rCap.toNat < rPos s + n.toNat → exec (.getValue n esz) s = .next { s with ok := false, res := 0 }) ∧
    (rPos s + n.toNat ≤ 8 * s.rCap.toNat →
      ∃ t, exec (.getValue n esz) s = .next t ∧
        t.res.toNat = s.mem.streamBits s.rBase.toNat (rPos s) n.toNat % 2 ^ (8 * esz.sizeOf) ∧
        rPos t = rPos s + n.toNat ∧ windowExact t ∧
        t = { s with
          ok := true, res := t.res, rConsumed := t.rConsumed, rPending := t.rPending, rWindow := t.rWindow })

/-- R146: GET_BATCH writes `count` elements, each the stream's value cut to the element, and no other byte; `RES` is the
count, the position advances by `count * nb` bits, and the window equals its function of memory. -/
def Obligations.GetBatchDeliversItsElements : Prop :=
  ∀ (n : BitVec 6) (esz : ElemSize) (batch : Count) (s : State), Inv s → n.toNat ≤ 32 →
    let nb := n.toNat
    let E := esz.sizeOf
    let count := if nb = 0 then batch.toNat else min batch.toNat ((8 * s.rCap.toNat - rPos s) / nb)
    let out := s.arg.toNat
    out + count * E ≤ 2 ^ 64 → (∀ a, out ≤ a → a < out + count * E → memAdmits s.admitted a = true) →
    ¬ hitsUnread s out (count * E) →
    ∃ t, exec (.getBatch n esz batch) s = .next t ∧
      (∀ i < count, t.mem.readLE (out + i * E) E =
        s.mem.streamBits s.rBase.toNat (rPos s + i * nb) nb % 2 ^ (8 * E)) ∧
      sameOutside s.mem t.mem out (count * E) ∧
      rPos t = rPos s + count * nb ∧ windowExact t ∧
      t = { s with
        ok := true, res := BitVec.ofNat 64 count, mem := t.mem, rConsumed := t.rConsumed, rPending := t.rPending
        rWindow := t.rWindow, convBuf := t.convBuf }

/-- R147, R216: the faults of GET_BATCH on its output range, in their order, made after the clamp and before any effect. -/
def Obligations.GetBatchFaultsOnItsOutput : Prop :=
  ∀ (n : BitVec 6) (esz : ElemSize) (batch : Count) (s : State), n.toNat ≤ 32 →
    let count := if n.toNat = 0 then batch.toNat else min batch.toNat ((8 * s.rCap.toNat - rPos s) / n.toNat)
    let out := s.arg.toNat
    let len := count * esz.sizeOf
    let word := encode (.getBatch n esz batch)
    (2 ^ 64 < out + len → exec (.getBatch n esz batch) s = .next (faulted s 6 word)) ∧
    (out + len ≤ 2 ^ 64 → (∃ a, out ≤ a ∧ a < out + len ∧ memAdmits s.admitted a = false) →
      exec (.getBatch n esz batch) s = .next (faulted s 8 word)) ∧
    (out + len ≤ 2 ^ 64 → (∀ a, out ≤ a → a < out + len → memAdmits s.admitted a = true) → hitsUnread s out len →
      exec (.getBatch n esz batch) s = .next (faulted s 7 word))

/-- R152: the internal phases (scalar head, bulk groups directly or through the intermediate buffer, scalar tail) leave the
memory and the read position of the architectural result, for every element size, width and count. -/
def Obligations.BatchPhasesMatchTheArchitecture : Prop :=
  ∀ (nb E out count : Nat) (s : State), Inv s → nb ≤ 32 → E ∈ [1, 2, 4, 8] →
    rPos s + count * nb ≤ 8 * s.rCap.toNat → out + count * E ≤ 2 ^ 64 → ¬ hitsUnread s out (count * E) →
    let t := batchPhases nb E out count s
    t.mem = batchMemory s.mem s.rBase.toNat (rPos s) nb E out s.mem count ∧
    rPos t = rPos s + count * nb ∧ ReaderInv t ∧ t.convBuf.length ≤ 1024 ∧
    t = { s with
      mem := t.mem, rConsumed := t.rConsumed, rPending := t.rPending, rWindow := t.rWindow, convBuf := t.convBuf }

/-- R153: GET_ALIGNED rounds the position up to a byte boundary and delivers `n` bytes, zero above them; with too few bytes
left it fails and does not round. -/
def Obligations.GetAlignedReadsWholeBytes : Prop :=
  ∀ (n : BitVec 6) (esz : ElemSize) (s : State), ReaderInv s → 1 ≤ n.toNat → n.toNat ≤ esz.sizeOf →
    let a := (rPos s + 7) / 8
    (s.rCap.toNat < a + n.toNat → exec (.getAligned n esz) s = .next { s with ok := false, res := 0 }) ∧
    (a + n.toNat ≤ s.rCap.toNat →
      ∃ t, exec (.getAligned n esz) s = .next t ∧
        (∀ j < 8, t.res.extractLsb' (8 * j) 8 = if j < n.toNat then s.mem.read (s.rBase.toNat + a + j) else 0) ∧
        rPos t = 8 * (a + n.toNat) ∧ windowExact t ∧
        t = { s with
          ok := true, res := t.res, rConsumed := t.rConsumed, rPending := t.rPending, rWindow := t.rWindow })

/-- R154: BYTES_LEFT leaves the bytes after the current partial byte in `RES`. -/
def Obligations.BytesLeftExcludesThePartialByte : Prop :=
  ∀ (s : State),
    exec .bytesLeft s = .next { s with ok := true, res := BitVec.ofNat 64 (s.rCap.toNat - (rPos s + 7) / 8) } ∧
    (s.rCap = 0 → exec .bytesLeft s = .next { s with ok := true, res := 0 })

/-- R188, R189: GET_VLQ and GET_ZZVLQ decode the varint at the next byte boundary, deliver it zero-extended or its zigzag
value sign-extended, and move past it; on a malformed or truncated varint they fail. -/
def Obligations.GetVarintsDecodeTheirBytes : Prop :=
  ∀ (s : State), ReaderInv s →
    ∀ p ∈ ([ (Instr.getVlq, fun v => v.setWidth 64), (Instr.getZzvlq, fun v => (zigZagDecode v).signExtend 64) ] :
        List (Instr × (BitVec 32 → Word))),
      let a := (rPos s + 7) / 8
      let d := vlqDecode s.mem s.rBase.toNat a s.rCap.toNat
      (d = none → exec p.1 s = .next { s with ok := false, res := 0 }) ∧
      ∀ v used, d = some (v, used) →
        ∃ t, exec p.1 s = .next t ∧ rPos t = 8 * (a + used) ∧ windowExact t ∧
          t = { s with
            ok := true, res := p.2 v, rConsumed := t.rConsumed, rPending := t.rPending, rWindow := t.rWindow }

/-! The codec (spec/42_varint_zigzag.md). -/

/-- R181: the length of a varint. -/
def Obligations.VarintLengths : Prop :=
  ∀ u : BitVec 32,
    (u.toNat < 2 ^ 7 → vlqLen u = 1) ∧
    (2 ^ 7 ≤ u.toNat → u.toNat < 2 ^ 14 → vlqLen u = 2) ∧
    (2 ^ 14 ≤ u.toNat → u.toNat < 2 ^ 21 → vlqLen u = 3) ∧
    (2 ^ 21 ≤ u.toNat → u.toNat < 2 ^ 28 → vlqLen u = 4) ∧
    (2 ^ 28 ≤ u.toNat → vlqLen u = 5) ∧
    vlqLen u = max 1 ((Nat.size u.toNat + 6) / 7) ∧ vlqLen u ≤ 5

/-- R182: `k` bytes inside the buffer, at most five, all but the last with bit 7 set, decode to the sum of their 7-bit groups
at increasing shifts reduced to 32 bits; five bytes with bit 7 set, or the buffer's end before a byte with bit 7 clear,
decode to nothing. -/
def Obligations.VarintDecoding : Prop :=
  ∀ (m : Memory) (base a cap k : Nat), k ≤ 4 → (∀ j < k, (m.read (base + a + j)).getLsbD 7 = true) →
    (a + k < cap → (m.read (base + a + k)).getLsbD 7 = false →
      vlqDecode m base a cap =
        some (BitVec.ofNat 32
          (((List.range (k + 1)).map fun i => ((m.read (base + a + i)).toNat % 128) * 2 ^ (7 * i)).sum), k + 1)) ∧
    (a + k < cap → k = 4 → (m.read (base + a + k)).getLsbD 7 = true → vlqDecode m base a cap = none) ∧
    (cap ≤ a + k → vlqDecode m base a cap = none)

/-- R183, R184: zigzag on integers: `2x` or `-2x - 1`, and back. -/
def Obligations.ZigZagOnIntegers : Prop :=
  ∀ x : BitVec 32,
    ((zigZagEncode x).toNat : Int) = (if 0 ≤ x.toInt then 2 * x.toInt else -2 * x.toInt - 1) ∧
    (zigZagDecode x).toInt = (if x.toNat % 2 = 0 then ((x.toNat / 2 : Nat) : Int) else -(((x.toNat + 1) / 2 : Nat) : Int))

/-- R180, R185: the bytes of a varint, by the encoding loop and byte by byte: byte `j` holds group `j` of seven bits, with bit
7 set in every byte but the last. And the codec's laws. -/
def Obligations.CodecLaws : Prop :=
  (∀ x : BitVec 32, zigZagDecode (zigZagEncode x) = x) ∧
  Function.Bijective zigZagEncode ∧
  zigZagEncode (BitVec.ofInt 32 0) = 0 ∧ zigZagEncode (BitVec.ofInt 32 (-1)) = 1 ∧
  zigZagEncode (BitVec.ofInt 32 1) = 2 ∧ zigZagEncode (BitVec.ofInt 32 (2 ^ 31 - 1)) = 0xFFFFFFFE ∧
  zigZagEncode (BitVec.ofInt 32 (-2 ^ 31)) = 0xFFFFFFFF ∧
  (∀ (u : BitVec 32) (m : Memory) (base a cap : Nat), holdsBytes m (base + a) (vlqEncode u) →
    a + vlqLen u ≤ cap → vlqDecode m base a cap = some (u, vlqLen u)) ∧
  (∀ u : BitVec 32,
    (u &&& 0xFFFFFF80 = 0 → vlqEncode u = [(u &&& 0x7F).setWidth 8]) ∧
    (u &&& 0xFFFFFF80 ≠ 0 → vlqEncode u = ((u &&& 0x7F) ||| 0x80).setWidth 8 :: vlqEncode (u >>> 7)) ∧
    ∀ j (h : j < (vlqEncode u).length),
      (vlqEncode u)[j] = ((u >>> (7 * j)) &&& 0x7F).setWidth 8 ||| (if j + 1 < vlqLen u then 0x80 else 0)) ∧
  vlqEncode 0 = [0x00] ∧ vlqEncode 0xFFFFFFFF = [0xFF, 0xFF, 0xFF, 0xFF, 0x0F]

/-! Invariants (spec/10_state.md R33, R37). -/

/-- R33, R37: the invariant holds at reset. -/
def Obligations.InvHoldsAtReset : Prop := Inv State.reset

/-- R33, R37, R51, R25, R43: from every state that meets the invariant, every step that answers a next state meets it again. -/
def Obligations.EveryStepKeepsInv : Prop := ∀ s t : State, Inv s → step s = .next t → Inv t

/-- R33: the packer's three invariants, after reset and after every command, faulting or not. -/
def Obligations.PackerInvariantsAfterEveryCommand : Prop :=
  let three (s : State) : Prop :=
    8 * s.wCommitted.toNat + s.wPending.toNat ≤ 8 * s.wCap.toNat ∧ s.wPending.toNat ≤ 63 ∧
    s.wAcc.toNat < 2 ^ s.wPending.toNat
  three State.reset ∧ ∀ (w : Word) (s t : State), three s → issueCommand w s = .next t → three t

/-- R36: the read window always equals its function of memory, all eight bytes: at reset, and after every step from a state
where it does, a host write of memory and a store over bytes already consumed among them. That a store refreshes the window
is read from R36 (log entry 8). -/
def Obligations.WindowEquationKeptForAllEightBytes : Prop :=
  windowExact State.reset ∧ ∀ s t : State, windowExact s → step s = .next t → windowExact t

/-- R37: the unpacker's invariants, after reset and after every command. -/
def Obligations.UnpackerInvariantsAfterEveryCommand : Prop :=
  let four (s : State) : Prop :=
    8 * s.rConsumed.toNat + s.rPending.toNat ≤ 8 * s.rCap.toNat ∧ s.rConsumed.toNat ≤ s.rCap.toNat ∧
    s.rPending.toNat ≤ 63 ∧ windowExact s
  four State.reset ∧ ∀ (w : Word) (s t : State), four s → issueCommand w s = .next t → four t
end

