-- ==== Sys2Proof/Laws/Decode.lean ====
section
/-! SUPPORT. The fields of a packed command word, and the opcode table's form. -/

namespace Sys2Proof

variable (arg32 : Count) (al : Bool) (esz : BitVec 2) (n : BitVec 6) (opc : Byte)

@[simp] theorem opcField_packFields : opcField (packFields arg32 al esz n opc) = opc := by
  apply BitVec.eq_of_getLsbD_eq
  intro i hi
  simp only [opcField, packFields, BitVec.getLsbD_extractLsb', BitVec.getLsbD_append]
  simp [hi]

@[simp] theorem nField_packFields : nField (packFields arg32 al esz n opc) = n := by
  apply BitVec.eq_of_getLsbD_eq
  intro i hi
  simp only [nField, packFields, BitVec.getLsbD_extractLsb', BitVec.getLsbD_append]
  simp [hi, show ¬ 8 + i < 8 by omega]

@[simp] theorem eszField_packFields : eszField (packFields arg32 al esz n opc) = esz := by
  apply BitVec.eq_of_getLsbD_eq
  intro i hi
  simp only [eszField, packFields, BitVec.getLsbD_extractLsb', BitVec.getLsbD_append]
  simp [hi, show ¬ 14 + i < 8 by omega, show ¬ 14 + i - 8 < 6 by omega, show 14 + i - 8 - 6 = i by omega]

@[simp] theorem alField_packFields : alField (packFields arg32 al esz n opc) = al := by
  simp only [alField, packFields, BitVec.getLsbD_append]
  simp

@[simp] theorem arg32Field_packFields : arg32Field (packFields arg32 al esz n opc) = arg32 := by
  apply BitVec.eq_of_getLsbD_eq
  intro i hi
  simp only [arg32Field, packFields, BitVec.getLsbD_extractLsb', BitVec.getLsbD_append]
  simp [hi, show ¬ 32 + i < 8 by omega, show ¬ 32 + i - 8 < 6 by omega, show ¬ 32 + i - 8 - 6 < 2 by omega,
    show ¬ 32 + i - 8 - 6 - 2 < 1 by omega, show ¬ 32 + i - 8 - 6 - 2 - 1 < 15 by omega,
    show 32 + i - 8 - 6 - 2 - 1 - 15 = i by omega]

@[simp] theorem ElemSize.ofCode_code (e : ElemSize) : ElemSize.ofCode e.code = e := by cases e <;> rfl

theorem ElemSize.code_ofCode (c : BitVec 2) : (ElemSize.ofCode c).code = c := by revert c; decide

/-- The reader's `sizeof(T)` and the meaning's `2^ESZ` are one number (R72). -/
theorem ElemSize.sizeOf_eq_elemBytes (e : ElemSize) : e.sizeOf = Machine.elemBytes e := by cases e <;> rfl

/-- No two rows of the opcode table have the same opcode. -/
theorem opcodeTable_distinct : opcodeTable.Pairwise fun r q => opcField r.pattern ≠ opcField q.pattern := by decide

/-- Every row's mask covers its opcode, and its match is the opcode alone (R74). -/
theorem opcodeTable_pattern : ∀ r ∈ opcodeTable, r.mask &&& 0xFF = 0xFF ∧ r.pattern &&& 0xFF = r.pattern := by decide

/-- The opcode of a command is the low byte of its word (R71). -/
@[simp] theorem opcField_encode (i : Instr) : opcField (encode i) = i.opcode := by
  cases i <;> simp only [encode, opcField_packFields]

end Sys2Proof
end

