-- ==== Sys2Proof/Laws/Memory.lean ====
section
/-! SUPPORT. The laws of the data memory: what a write changes, that every operation keeps the canonical form and the
address space, and what admission means. -/

namespace Sys2Proof.Machine

/-- Every address of the list lies below `b`. -/
def Memory.below (m : Memory) (b : Nat) : Prop := ∀ c ∈ m, c.1 < b

@[simp] theorem Memory.read_nil (a : Nat) : Memory.read [] a = 0 := rfl

theorem Memory.read_cons (k : Nat) (b : Byte) (m : Memory) (a : Nat) :
    Memory.read ((k, b) :: m) a = if a < k then 0 else if a = k then b else m.read a := rfl

/-- The memory of the reset state has the canonical form. -/
theorem reset_mem_wf : State.reset.mem.wf := by decide

theorem Memory.wf_tail {c : Host.Cell} {m : Memory} (h : Memory.wf (c :: m)) : m.wf :=
  ⟨(List.pairwise_cons.mp h.1).2, fun d hd => h.2 d (List.mem_cons_of_mem c hd)⟩

/-- Below the first listed address every byte is unlisted. -/
theorem Memory.read_before {m : Memory} {a : Nat} (h : ∀ c ∈ m, a < c.1) : m.read a = 0 := by
  cases m with
  | nil => rfl
  | cons c rest =>
    obtain ⟨k, b⟩ := c
    have hk : a < k := h (k, b) List.mem_cons_self
    simp [Memory.read_cons, hk]

/-- Read after write: the byte written reads back, every other byte reads as before. -/
theorem Memory.read_write {m : Memory} (hm : m.wf) (a : Nat) (b : Byte) (x : Nat) :
    (m.write a b).read x = if x = a then b else m.read x := by
  induction m with
  | nil =>
    by_cases hb : b = Config.unlistedByte
    · rw [Memory.write, if_pos hb]
      by_cases hx : x = a
      · rw [if_pos hx, hb]; rfl
      · rw [if_neg hx]
    · rw [Memory.write, if_neg hb, Memory.read_cons]
      split_ifs <;> first | rfl | omega
  | cons c rest ih =>
    obtain ⟨k, d⟩ := c
    have hrest := ih (Memory.wf_tail hm)
    have hafter : ∀ c ∈ rest, k < c.1 := (List.pairwise_cons.mp hm.1).1
    rw [Memory.write]
    by_cases h1 : a < k
    · rw [if_pos h1]
      by_cases hb : b = Config.unlistedByte
      · rw [if_pos hb]
        by_cases hx : x = a
        · rw [if_pos hx, hx, hb, Memory.read_cons, if_pos h1]
        · rw [if_neg hx]
      · rw [if_neg hb]
        simp only [Memory.read_cons]
        split_ifs <;> first | rfl | omega
    · rw [if_neg h1]
      by_cases h2 : a = k
      · subst h2
        rw [if_pos rfl]
        by_cases hb : b = Config.unlistedByte
        · rw [if_pos hb, Memory.read_cons]
          by_cases hx : x = a
          · rw [if_pos hx, hx, hb, Memory.read_before hafter]
          · rw [if_neg hx, if_neg hx]
            split_ifs with h5
            · exact Memory.read_before fun c hc => lt_trans h5 (hafter c hc)
            · rfl
        · rw [if_neg hb]
          simp only [Memory.read_cons]
          split_ifs <;> first | rfl | omega
      · rw [if_neg h2]
        simp only [Memory.read_cons, hrest]
        split_ifs <;> first | rfl | omega

theorem Memory.read_write_same {m : Memory} (hm : m.wf) (a : Nat) (b : Byte) : (m.write a b).read a = b := by
  simp [Memory.read_write hm]

theorem Memory.read_write_other {m : Memory} (hm : m.wf) {a x : Nat} (b : Byte) (h : x ≠ a) :
    (m.write a b).read x = m.read x := by
  simp [Memory.read_write hm, h]

/-- A write lists no address but the one written and those listed before. -/
theorem Memory.mem_write {m : Memory} {a : Nat} {b : Byte} {c : Host.Cell} (h : c ∈ m.write a b) :
    c = (a, b) ∨ c ∈ m := by
  induction m with
  | nil =>
    simp only [Memory.write] at h
    split_ifs at h <;> simp_all
  | cons d rest ih =>
    obtain ⟨k, e⟩ := d
    simp only [Memory.write] at h
    split_ifs at h with h1 h2 h3 h4
    · exact .inr h
    · exact (List.mem_cons.mp h)
    · exact .inr (List.mem_cons_of_mem _ h)
    · exact (List.mem_cons.mp h).imp_right (List.mem_cons_of_mem _)
    · rcases List.mem_cons.mp h with rfl | h
      · exact .inr List.mem_cons_self
      · exact (ih h).imp_right (List.mem_cons_of_mem _)

/-- A write keeps the canonical form. -/
theorem Memory.write_wf {m : Memory} (hm : m.wf) (a : Nat) (b : Byte) : (m.write a b).wf := by
  induction m with
  | nil =>
    by_cases hb : b = Config.unlistedByte
    · rw [Memory.write, if_pos hb]; exact hm
    · rw [Memory.write, if_neg hb]
      exact ⟨List.pairwise_singleton _ _, fun c hc => by rw [List.mem_singleton.mp hc]; exact hb⟩
  | cons c rest ih =>
    obtain ⟨k, d⟩ := c
    obtain ⟨hp, hn⟩ := hm
    obtain ⟨hhead, htail⟩ := List.pairwise_cons.mp hp
    have hwf : Memory.wf rest := ⟨htail, fun e he => hn e (List.mem_cons_of_mem _ he)⟩
    have hd : d ≠ Config.unlistedByte := hn (k, d) List.mem_cons_self
    simp only [Memory.write]
    split_ifs with h1 h2 h3 h4
    · exact ⟨hp, hn⟩
    · refine ⟨List.pairwise_cons.mpr ⟨?_, hp⟩, ?_⟩
      · intro e he
        rcases List.mem_cons.mp he with rfl | he
        · exact h1
        · exact lt_trans h1 (hhead e he)
      · intro e he
        rcases List.mem_cons.mp he with rfl | he
        · exact h2
        · exact hn e he
    · exact hwf
    · subst h3
      refine ⟨List.pairwise_cons.mpr ⟨hhead, htail⟩, ?_⟩
      intro e he
      rcases List.mem_cons.mp he with rfl | he
      · exact h4
      · exact hwf.2 e he
    · refine ⟨List.pairwise_cons.mpr ⟨?_, (ih hwf).1⟩, ?_⟩
      · intro e he
        rcases Memory.mem_write he with rfl | he
        · simp only; omega
        · exact hhead e he
      · intro e he
        rcases List.mem_cons.mp he with rfl | he
        · exact hd
        · exact (ih hwf).2 e he

theorem Memory.write_below {m : Memory} {bound a : Nat} (hm : m.below bound) (ha : a < bound) (b : Byte) :
    (m.write a b).below bound := by
  intro c hc
  rcases Memory.mem_write hc with rfl | hc
  · exact ha
  · exact hm c hc

theorem Memory.writeLE_wf {m : Memory} (hm : m.wf) (a n v : Nat) : (m.writeLE a n v).wf := by
  induction n generalizing m a v with
  | zero => exact hm
  | succ n ih => exact ih (Memory.write_wf hm a _) (a + 1) (v / 256)

theorem Memory.writeLE_below {m : Memory} {bound a n : Nat} (hm : m.below bound) (ha : a + n ≤ bound) (v : Nat) :
    (m.writeLE a n v).below bound := by
  induction n generalizing m a v with
  | zero => exact hm
  | succ n ih => exact ih (Memory.write_below hm (by omega) _) (by omega) (v / 256)

/-- What `MemWrite` leaves in each byte (R11): byte `j` of the value inside the range, the old byte outside it. -/
theorem Memory.read_writeLE {m : Memory} (hm : m.wf) (a n v x : Nat) :
    (m.writeLE a n v).read x =
      if a ≤ x ∧ x < a + n then BitVec.ofNat 8 (v / 256 ^ (x - a)) else m.read x := by
  induction n generalizing m a v with
  | zero => rw [Memory.writeLE, if_neg (by omega)]
  | succ n ih =>
    rw [Memory.writeLE, ih (Memory.write_wf hm a _), Memory.read_write hm]
    by_cases hx : x = a
    · subst hx
      rw [if_neg (by omega), if_pos rfl, if_pos (by omega)]; simp
    · by_cases hin : a + 1 ≤ x ∧ x < a + 1 + n
      · rw [if_pos hin, if_pos (by omega), Nat.div_div_eq_div_mul, ← Nat.pow_succ']
        congr 3; omega
      · rw [if_neg hin, if_neg hx, if_neg (by omega)]

theorem Memory.sameOutside_writeLE {m : Memory} (hm : m.wf) (a n v : Nat) : sameOutside m (m.writeLE a n v) a n := by
  intro x hx
  rw [Memory.read_writeLE hm, if_neg (by omega)]

theorem Memory.writeBytes_wf {m : Memory} (hm : m.wf) (a : Nat) (bs : List Byte) : (m.writeBytes a bs).wf := by
  induction bs generalizing m a with
  | nil => exact hm
  | cons b bs ih => exact ih (Memory.write_wf hm a b) (a + 1)

theorem Memory.writeBytes_below {m : Memory} {bound a : Nat} {bs : List Byte} (hm : m.below bound)
    (ha : a + bs.length ≤ bound) : (m.writeBytes a bs).below bound := by
  induction bs generalizing m a with
  | nil => exact hm
  | cons b bs ih =>
    simp only [List.length_cons] at ha
    exact ih (Memory.write_below hm (by omega) b) (by omega)

theorem Memory.sameOutside_writeBytes {m : Memory} (hm : m.wf) (a : Nat) (bs : List Byte) :
    sameOutside m (m.writeBytes a bs) a bs.length := by
  induction bs generalizing m a with
  | nil => intro x _; rfl
  | cons b bs ih =>
    intro x hx
    simp only [List.length_cons] at hx
    rw [Memory.writeBytes, ih (Memory.write_wf hm a b) (a + 1) x (by omega), Memory.read_write_other hm b (by omega)]

theorem Memory.holdsBytes_writeBytes {m : Memory} (hm : m.wf) (a : Nat) (bs : List Byte) :
    holdsBytes (m.writeBytes a bs) a bs := by
  induction bs generalizing m a with
  | nil => intro j h; simp at h
  | cons b bs ih =>
    intro j h
    have hw := Memory.write_wf hm a b
    cases j with
    | zero =>
      rw [Memory.writeBytes, Memory.sameOutside_writeBytes hw (a + 1) bs (a + 0) (by omega)]
      simp [Memory.read_write_same hm]
    | succ j =>
      have := ih hw (a + 1) j (by simpa using h)
      rw [Memory.writeBytes, show a + (j + 1) = a + 1 + j by omega, this]
      simp

theorem Memory.readBytes_length (m : Memory) (a n : Nat) : (m.readBytes a n).length = n := by
  induction n generalizing a with
  | zero => rfl
  | succ n ih => simp [Memory.readBytes, ih]

theorem Memory.readBytes_getElem (m : Memory) (a n j : Nat) (h : j < (m.readBytes a n).length) :
    (m.readBytes a n)[j] = m.read (a + j) := by
  induction n generalizing a j with
  | zero => simp [Memory.readBytes] at h
  | succ n ih =>
    cases j with
    | zero => simp [Memory.readBytes]
    | succ j =>
      simp only [Memory.readBytes, List.getElem_cons_succ]
      rw [ih]; congr 1; omega

/-- The stream bits depend only on the bytes that hold them. -/
theorem Memory.streamBits_congr {m m' : Memory} {base p n : Nat}
    (h : ∀ a, base + p / 8 ≤ a → a < base + (p + n + 7) / 8 → m'.read a = m.read a) :
    m'.streamBits base p n = m.streamBits base p n := by
  induction n generalizing p with
  | zero => rfl
  | succ n ih =>
    rw [Memory.streamBits, Memory.streamBits, Memory.streamBit, Memory.streamBit,
      h (base + p / 8) (by omega) (by omega), ih fun a h1 h2 => h a (by omega) (by omega)]

theorem Memory.streamBit_le (m : Memory) (base p : Nat) : m.streamBit base p ≤ 1 := by
  unfold Memory.streamBit; omega

theorem Memory.streamBits_lt (m : Memory) (base p n : Nat) : m.streamBits base p n < 2 ^ n := by
  induction n generalizing p with
  | zero => simp [Memory.streamBits]
  | succ n ih =>
    have h1 := m.streamBit_le base p
    have h2 := ih (p + 1)
    rw [Memory.streamBits, Nat.pow_succ]; omega

/-- Bit `j` of the value at stream bit `p` is stream bit `p + j` (R13). -/
theorem Memory.testBit_streamBits (m : Memory) (base p n j : Nat) :
    (m.streamBits base p n).testBit j = (decide (j < n) && (m.streamBit base (p + j) == 1)) := by
  induction n generalizing p j with
  | zero => simp [Memory.streamBits]
  | succ n ih =>
    have hb : m.streamBit base p = 0 ∨ m.streamBit base p = 1 := by have := m.streamBit_le base p; omega
    cases j with
    | zero =>
      rcases hb with hb | hb <;> simp [Memory.streamBits, Nat.testBit_zero, hb]
    | succ j =>
      have hd : (m.streamBit base p + 2 * m.streamBits base (p + 1) n) / 2 = m.streamBits base (p + 1) n := by
        rcases hb with hb | hb <;> omega
      rw [Memory.streamBits, Nat.testBit_succ, hd, ih, show p + 1 + j = p + (j + 1) by omega]
      simp

theorem Memory.readLE_lt (m : Memory) (a n : Nat) : m.readLE a n < 256 ^ n := by
  induction n generalizing a with
  | zero => simp [Memory.readLE]
  | succ n ih =>
    have h1 := (m.read a).isLt
    have h2 := ih (a + 1)
    rw [Memory.readLE, Nat.pow_succ]; omega

/-- Byte `j` of `MemRead(a, n)` is `M[a + j]` (R11). -/
theorem Memory.readLE_byte (m : Memory) (a n j : Nat) (h : j < n) :
    BitVec.ofNat 8 (m.readLE a n / 256 ^ j) = m.read (a + j) := by
  induction n generalizing a j with
  | zero => omega
  | succ n ih =>
    have h1 := (m.read a).isLt
    cases j with
    | zero =>
      rw [Memory.readLE]
      apply BitVec.eq_of_toNat_eq
      simp only [BitVec.toNat_ofNat, Nat.pow_zero, Nat.div_one, Nat.add_zero]; omega
    | succ j =>
      rw [Memory.readLE, Nat.pow_succ', ← Nat.div_div_eq_div_mul,
        show ((m.read a).toNat + 256 * m.readLE (a + 1) n) / 256 = m.readLE (a + 1) n by omega,
        ih (a + 1) j (by omega)]
      congr 1; omega

/-- Elements written to an array keep the canonical form and touch nothing outside the array. -/
theorem writeElems_wf {m : Memory} (hm : m.wf) (E out i : Nat) (vs : List (BitVec 32)) :
    Memory.wf (writeElems m E out i vs) := by
  induction vs generalizing m i with
  | nil => exact hm
  | cons v vs ih => exact ih (Memory.writeLE_wf hm _ _ _) (i + 1)

theorem sameOutside_writeElems {m : Memory} (hm : m.wf) (E out i : Nat) (vs : List (BitVec 32)) :
    sameOutside m (writeElems m E out i vs) (out + i * E) (vs.length * E) := by
  induction vs generalizing m i with
  | nil => intro x _; rfl
  | cons v vs ih =>
    intro x hx
    simp only [List.length_cons, Nat.add_mul, Nat.one_mul] at hx
    rw [writeElems, ih (Memory.writeLE_wf hm _ _ _) (i + 1) x (by rw [Nat.add_mul]; omega),
      Memory.read_writeLE hm, if_neg (by omega)]

theorem writeElems_below {m : Memory} {bound E out i : Nat} {vs : List (BitVec 32)} (hm : m.below bound)
    (h : out + (i + vs.length) * E ≤ bound) : Memory.below (writeElems m E out i vs) bound := by
  induction vs generalizing m i with
  | nil => exact hm
  | cons v vs ih =>
    simp only [List.length_cons] at h
    have h1 : out + i * E + E ≤ bound := by
      have := Nat.mul_le_mul_right E (show i + 1 ≤ i + (vs.length + 1) by omega)
      rw [Nat.add_mul, Nat.one_mul] at this; omega
    exact ih (Memory.writeLE_below hm h1 _) (by rw [show i + 1 + vs.length = i + (vs.length + 1) by omega]; exact h)

/-- The range check computes what R51 says: every address of the range is admitted. -/
theorem admitsRange_iff (rs : List AddrRange) (lo hi : Nat) :
    admitsRange rs lo hi = true ↔ ∀ a, lo ≤ a → a < hi → memAdmits rs a = true := by
  induction rs generalizing lo hi with
  | nil =>
    simp only [admitsRange, memAdmits, List.any_nil, decide_eq_true_eq, Bool.false_eq_true]
    constructor
    · intro h a h1 h2; omega
    · intro h; by_contra hlt; exact h lo le_rfl (by omega)
  | cons r rs ih =>
    simp only [admitsRange, Bool.or_eq_true, Bool.and_eq_true, decide_eq_true_eq, ih]
    have hcons : ∀ a, memAdmits (r :: rs) a = true ↔ (r.lo ≤ a ∧ a < r.hi) ∨ memAdmits rs a = true := by
      intro a; simp [memAdmits]
    constructor
    · rintro (h | ⟨h1, h2⟩) a ha hb
      · omega
      · rw [hcons]
        by_cases hlo : a < r.lo
        · exact .inr (h1 a ha (by omega))
        · by_cases hhi : a < r.hi
          · exact .inl ⟨by omega, hhi⟩
          · exact .inr (h2 a (by omega) hb)
    · intro h
      by_cases hle : hi ≤ lo
      · exact .inl hle
      · refine .inr ⟨fun a ha hb => ?_, fun a ha hb => ?_⟩
        · exact ((hcons a).mp (h a ha (by omega))).resolve_left (by omega)
        · exact ((hcons a).mp (h a (by omega) hb)).resolve_left (by omega)

end Sys2Proof.Machine
end

