-- ==== Sys2Proof/Laws/State.lean ====
section
/-! SUPPORT. One lemma per field of State and per shared update of it: what the update leaves in the field. -/

namespace Sys2Proof.Machine

/-! Fields of `faultEntry c w s`. -/

@[simp] theorem faultEntry_arg (c : FaultCause) (w : Word) (s : State) : (faultEntry c w s).arg = s.arg := rfl
@[simp] theorem faultEntry_res (c : FaultCause) (w : Word) (s : State) : (faultEntry c w s).res = s.res := rfl
@[simp] theorem faultEntry_ok (c : FaultCause) (w : Word) (s : State) : (faultEntry c w s).ok = s.ok := rfl
@[simp] theorem faultEntry_fault (c : FaultCause) (w : Word) (s : State) : (faultEntry c w s).fault = true := rfl
@[simp] theorem faultEntry_fcause (c : FaultCause) (w : Word) (s : State) :
    (faultEntry c w s).fcause = c.code := rfl
@[simp] theorem faultEntry_fcmd (c : FaultCause) (w : Word) (s : State) : (faultEntry c w s).fcmd = w := rfl
@[simp] theorem faultEntry_farg (c : FaultCause) (w : Word) (s : State) : (faultEntry c w s).farg = s.arg := rfl
@[simp] theorem faultEntry_wBase (c : FaultCause) (w : Word) (s : State) : (faultEntry c w s).wBase = s.wBase := rfl
@[simp] theorem faultEntry_wCap (c : FaultCause) (w : Word) (s : State) : (faultEntry c w s).wCap = s.wCap := rfl
@[simp] theorem faultEntry_wAcc (c : FaultCause) (w : Word) (s : State) : (faultEntry c w s).wAcc = s.wAcc := rfl
@[simp] theorem faultEntry_wCommitted (c : FaultCause) (w : Word) (s : State) :
    (faultEntry c w s).wCommitted = s.wCommitted := rfl
@[simp] theorem faultEntry_wPending (c : FaultCause) (w : Word) (s : State) :
    (faultEntry c w s).wPending = s.wPending := rfl
@[simp] theorem faultEntry_wNaf (c : FaultCause) (w : Word) (s : State) : (faultEntry c w s).wNaf = s.wNaf := rfl
@[simp] theorem faultEntry_rBase (c : FaultCause) (w : Word) (s : State) : (faultEntry c w s).rBase = s.rBase := rfl
@[simp] theorem faultEntry_rCap (c : FaultCause) (w : Word) (s : State) : (faultEntry c w s).rCap = s.rCap := rfl
@[simp] theorem faultEntry_rConsumed (c : FaultCause) (w : Word) (s : State) :
    (faultEntry c w s).rConsumed = s.rConsumed := rfl
@[simp] theorem faultEntry_rPending (c : FaultCause) (w : Word) (s : State) :
    (faultEntry c w s).rPending = s.rPending := rfl
@[simp] theorem faultEntry_rWindow (c : FaultCause) (w : Word) (s : State) :
    (faultEntry c w s).rWindow = s.rWindow := rfl
@[simp] theorem faultEntry_convBuf (c : FaultCause) (w : Word) (s : State) :
    (faultEntry c w s).convBuf = s.convBuf := rfl
@[simp] theorem faultEntry_mem (c : FaultCause) (w : Word) (s : State) : (faultEntry c w s).mem = s.mem := rfl
@[simp] theorem faultEntry_admitted (c : FaultCause) (w : Word) (s : State) :
    (faultEntry c w s).admitted = s.admitted := rfl
@[simp] theorem faultEntry_hostActions (c : FaultCause) (w : Word) (s : State) :
    (faultEntry c w s).hostActions = s.hostActions := rfl
@[simp] theorem faultEntry_actionIndex (c : FaultCause) (w : Word) (s : State) :
    (faultEntry c w s).actionIndex = s.actionIndex := rfl
@[simp] theorem faultEntry_replies (c : FaultCause) (w : Word) (s : State) :
    (faultEntry c w s).replies = s.replies := rfl
@[simp] theorem faultEntry_freeCount (c : FaultCause) (w : Word) (s : State) :
    (faultEntry c w s).freeCount = s.freeCount := rfl

/-! Fields of `faultClear s`. -/

@[simp] theorem faultClear_arg (s : State) : (faultClear s).arg = s.arg := rfl
@[simp] theorem faultClear_res (s : State) : (faultClear s).res = s.res := rfl
@[simp] theorem faultClear_ok (s : State) : (faultClear s).ok = s.ok := rfl
@[simp] theorem faultClear_fault (s : State) : (faultClear s).fault = false := rfl
@[simp] theorem faultClear_fcause (s : State) : (faultClear s).fcause = 0 := rfl
@[simp] theorem faultClear_fcmd (s : State) : (faultClear s).fcmd = 0 := rfl
@[simp] theorem faultClear_farg (s : State) : (faultClear s).farg = 0 := rfl
@[simp] theorem faultClear_wBase (s : State) : (faultClear s).wBase = s.wBase := rfl
@[simp] theorem faultClear_wCap (s : State) : (faultClear s).wCap = s.wCap := rfl
@[simp] theorem faultClear_wAcc (s : State) : (faultClear s).wAcc = s.wAcc := rfl
@[simp] theorem faultClear_wCommitted (s : State) : (faultClear s).wCommitted = s.wCommitted := rfl
@[simp] theorem faultClear_wPending (s : State) : (faultClear s).wPending = s.wPending := rfl
@[simp] theorem faultClear_wNaf (s : State) : (faultClear s).wNaf = s.wNaf := rfl
@[simp] theorem faultClear_rBase (s : State) : (faultClear s).rBase = s.rBase := rfl
@[simp] theorem faultClear_rCap (s : State) : (faultClear s).rCap = s.rCap := rfl
@[simp] theorem faultClear_rConsumed (s : State) : (faultClear s).rConsumed = s.rConsumed := rfl
@[simp] theorem faultClear_rPending (s : State) : (faultClear s).rPending = s.rPending := rfl
@[simp] theorem faultClear_rWindow (s : State) : (faultClear s).rWindow = s.rWindow := rfl
@[simp] theorem faultClear_convBuf (s : State) : (faultClear s).convBuf = s.convBuf := rfl
@[simp] theorem faultClear_mem (s : State) : (faultClear s).mem = s.mem := rfl
@[simp] theorem faultClear_admitted (s : State) : (faultClear s).admitted = s.admitted := rfl
@[simp] theorem faultClear_hostActions (s : State) : (faultClear s).hostActions = s.hostActions := rfl
@[simp] theorem faultClear_actionIndex (s : State) : (faultClear s).actionIndex = s.actionIndex := rfl
@[simp] theorem faultClear_replies (s : State) : (faultClear s).replies = s.replies := rfl
@[simp] theorem faultClear_freeCount (s : State) : (faultClear s).freeCount = s.freeCount := rfl

/-! Fields of `alignFlush s`. -/

@[simp] theorem alignFlush_arg (s : State) : (alignFlush s).arg = s.arg := rfl
@[simp] theorem alignFlush_res (s : State) : (alignFlush s).res = s.res := rfl
@[simp] theorem alignFlush_ok (s : State) : (alignFlush s).ok = s.ok := rfl
@[simp] theorem alignFlush_fault (s : State) : (alignFlush s).fault = s.fault := rfl
@[simp] theorem alignFlush_fcause (s : State) : (alignFlush s).fcause = s.fcause := rfl
@[simp] theorem alignFlush_fcmd (s : State) : (alignFlush s).fcmd = s.fcmd := rfl
@[simp] theorem alignFlush_farg (s : State) : (alignFlush s).farg = s.farg := rfl
@[simp] theorem alignFlush_wBase (s : State) : (alignFlush s).wBase = s.wBase := rfl
@[simp] theorem alignFlush_wCap (s : State) : (alignFlush s).wCap = s.wCap := rfl
@[simp] theorem alignFlush_wAcc (s : State) : (alignFlush s).wAcc = 0 := rfl
@[simp] theorem alignFlush_wCommitted (s : State) :
    (alignFlush s).wCommitted = BitVec.ofNat 32 (alignedOffset s) := rfl
@[simp] theorem alignFlush_wPending (s : State) : (alignFlush s).wPending = 0 := rfl
@[simp] theorem alignFlush_wNaf (s : State) : (alignFlush s).wNaf = false := rfl
@[simp] theorem alignFlush_rBase (s : State) : (alignFlush s).rBase = s.rBase := rfl
@[simp] theorem alignFlush_rCap (s : State) : (alignFlush s).rCap = s.rCap := rfl
@[simp] theorem alignFlush_rConsumed (s : State) : (alignFlush s).rConsumed = s.rConsumed := rfl
@[simp] theorem alignFlush_rPending (s : State) : (alignFlush s).rPending = s.rPending := rfl
@[simp] theorem alignFlush_rWindow (s : State) : (alignFlush s).rWindow = s.rWindow := rfl
@[simp] theorem alignFlush_convBuf (s : State) : (alignFlush s).convBuf = s.convBuf := rfl
@[simp] theorem alignFlush_mem (s : State) :
    (alignFlush s).mem = s.mem.writeLE (packAddr s) (partialBytes s) s.wAcc.toNat := rfl
@[simp] theorem alignFlush_admitted (s : State) : (alignFlush s).admitted = s.admitted := rfl
@[simp] theorem alignFlush_hostActions (s : State) : (alignFlush s).hostActions = s.hostActions := rfl
@[simp] theorem alignFlush_actionIndex (s : State) : (alignFlush s).actionIndex = s.actionIndex := rfl
@[simp] theorem alignFlush_replies (s : State) : (alignFlush s).replies = s.replies := rfl
@[simp] theorem alignFlush_freeCount (s : State) : (alignFlush s).freeCount = s.freeCount := rfl

/-! Fields of `packShort nb s`. -/

@[simp] theorem packShort_arg (nb : Nat) (s : State) : (packShort nb s).arg = s.arg := rfl
@[simp] theorem packShort_res (nb : Nat) (s : State) : (packShort nb s).res = s.res := rfl
@[simp] theorem packShort_ok (nb : Nat) (s : State) : (packShort nb s).ok = s.ok := rfl
@[simp] theorem packShort_fault (nb : Nat) (s : State) : (packShort nb s).fault = s.fault := rfl
@[simp] theorem packShort_fcause (nb : Nat) (s : State) : (packShort nb s).fcause = s.fcause := rfl
@[simp] theorem packShort_fcmd (nb : Nat) (s : State) : (packShort nb s).fcmd = s.fcmd := rfl
@[simp] theorem packShort_farg (nb : Nat) (s : State) : (packShort nb s).farg = s.farg := rfl
@[simp] theorem packShort_wBase (nb : Nat) (s : State) : (packShort nb s).wBase = s.wBase := rfl
@[simp] theorem packShort_wCap (nb : Nat) (s : State) : (packShort nb s).wCap = s.wCap := rfl
@[simp] theorem packShort_wAcc (nb : Nat) (s : State) :
    (packShort nb s).wAcc = s.wAcc ||| BitVec.ofNat 64 (s.arg.toNat <<< s.wPending.toNat) := rfl
@[simp] theorem packShort_wCommitted (nb : Nat) (s : State) : (packShort nb s).wCommitted = s.wCommitted := rfl
@[simp] theorem packShort_wPending (nb : Nat) (s : State) :
    (packShort nb s).wPending = BitVec.ofNat 7 (s.wPending.toNat + nb) := rfl
@[simp] theorem packShort_wNaf (nb : Nat) (s : State) : (packShort nb s).wNaf = s.wNaf := rfl
@[simp] theorem packShort_rBase (nb : Nat) (s : State) : (packShort nb s).rBase = s.rBase := rfl
@[simp] theorem packShort_rCap (nb : Nat) (s : State) : (packShort nb s).rCap = s.rCap := rfl
@[simp] theorem packShort_rConsumed (nb : Nat) (s : State) : (packShort nb s).rConsumed = s.rConsumed := rfl
@[simp] theorem packShort_rPending (nb : Nat) (s : State) : (packShort nb s).rPending = s.rPending := rfl
@[simp] theorem packShort_rWindow (nb : Nat) (s : State) : (packShort nb s).rWindow = s.rWindow := rfl
@[simp] theorem packShort_convBuf (nb : Nat) (s : State) : (packShort nb s).convBuf = s.convBuf := rfl
@[simp] theorem packShort_mem (nb : Nat) (s : State) : (packShort nb s).mem = s.mem := rfl
@[simp] theorem packShort_admitted (nb : Nat) (s : State) : (packShort nb s).admitted = s.admitted := rfl
@[simp] theorem packShort_hostActions (nb : Nat) (s : State) : (packShort nb s).hostActions = s.hostActions := rfl
@[simp] theorem packShort_actionIndex (nb : Nat) (s : State) : (packShort nb s).actionIndex = s.actionIndex := rfl
@[simp] theorem packShort_replies (nb : Nat) (s : State) : (packShort nb s).replies = s.replies := rfl
@[simp] theorem packShort_freeCount (nb : Nat) (s : State) : (packShort nb s).freeCount = s.freeCount := rfl

/-! Fields of `packCarry nb s`. -/

@[simp] theorem packCarry_arg (nb : Nat) (s : State) : (packCarry nb s).arg = s.arg := by
  simp only [packCarry]
@[simp] theorem packCarry_res (nb : Nat) (s : State) : (packCarry nb s).res = s.res := by
  simp only [packCarry]
@[simp] theorem packCarry_ok (nb : Nat) (s : State) : (packCarry nb s).ok = s.ok := by
  simp only [packCarry]
@[simp] theorem packCarry_fault (nb : Nat) (s : State) : (packCarry nb s).fault = s.fault := by
  simp only [packCarry]
@[simp] theorem packCarry_fcause (nb : Nat) (s : State) : (packCarry nb s).fcause = s.fcause := by
  simp only [packCarry]
@[simp] theorem packCarry_fcmd (nb : Nat) (s : State) : (packCarry nb s).fcmd = s.fcmd := by
  simp only [packCarry]
@[simp] theorem packCarry_farg (nb : Nat) (s : State) : (packCarry nb s).farg = s.farg := by
  simp only [packCarry]
@[simp] theorem packCarry_wBase (nb : Nat) (s : State) : (packCarry nb s).wBase = s.wBase := by
  simp only [packCarry]
@[simp] theorem packCarry_wCap (nb : Nat) (s : State) : (packCarry nb s).wCap = s.wCap := by
  simp only [packCarry]
@[simp] theorem packCarry_wAcc (nb : Nat) (s : State) :
    (packCarry nb s).wAcc = BitVec.ofNat 64 (s.arg.toNat >>> (nb - (s.wPending.toNat + nb - 64))) := by
  simp only [packCarry]
@[simp] theorem packCarry_wCommitted (nb : Nat) (s : State) :
    (packCarry nb s).wCommitted = BitVec.ofNat 32 (s.wCommitted.toNat + 8) := by
  simp only [packCarry]
@[simp] theorem packCarry_wPending (nb : Nat) (s : State) :
    (packCarry nb s).wPending = BitVec.ofNat 7 (s.wPending.toNat + nb - 64) := by
  simp only [packCarry]
@[simp] theorem packCarry_wNaf (nb : Nat) (s : State) : (packCarry nb s).wNaf = s.wNaf := by
  simp only [packCarry]
@[simp] theorem packCarry_rBase (nb : Nat) (s : State) : (packCarry nb s).rBase = s.rBase := by
  simp only [packCarry]
@[simp] theorem packCarry_rCap (nb : Nat) (s : State) : (packCarry nb s).rCap = s.rCap := by
  simp only [packCarry]
@[simp] theorem packCarry_rConsumed (nb : Nat) (s : State) : (packCarry nb s).rConsumed = s.rConsumed := by
  simp only [packCarry]
@[simp] theorem packCarry_rPending (nb : Nat) (s : State) : (packCarry nb s).rPending = s.rPending := by
  simp only [packCarry]
@[simp] theorem packCarry_rWindow (nb : Nat) (s : State) : (packCarry nb s).rWindow = s.rWindow := by
  simp only [packCarry]
@[simp] theorem packCarry_convBuf (nb : Nat) (s : State) : (packCarry nb s).convBuf = s.convBuf := by
  simp only [packCarry]
@[simp] theorem packCarry_mem (nb : Nat) (s : State) :
    (packCarry nb s).mem = s.mem.writeLE (packAddr s) 8 (s.wAcc ||| BitVec.ofNat 64 (s.arg.toNat <<< s.wPending.toNat)).toNat := by
  simp only [packCarry]
@[simp] theorem packCarry_admitted (nb : Nat) (s : State) : (packCarry nb s).admitted = s.admitted := by
  simp only [packCarry]
@[simp] theorem packCarry_hostActions (nb : Nat) (s : State) : (packCarry nb s).hostActions = s.hostActions := by
  simp only [packCarry]
@[simp] theorem packCarry_actionIndex (nb : Nat) (s : State) : (packCarry nb s).actionIndex = s.actionIndex := by
  simp only [packCarry]
@[simp] theorem packCarry_replies (nb : Nat) (s : State) : (packCarry nb s).replies = s.replies := by
  simp only [packCarry]
@[simp] theorem packCarry_freeCount (nb : Nat) (s : State) : (packCarry nb s).freeCount = s.freeCount := by
  simp only [packCarry]

/-! Fields of `appendAligned bs s`. -/

@[simp] theorem appendAligned_arg (bs : List Byte) (s : State) : (appendAligned bs s).arg = s.arg := rfl
@[simp] theorem appendAligned_res (bs : List Byte) (s : State) : (appendAligned bs s).res = s.res := rfl
@[simp] theorem appendAligned_ok (bs : List Byte) (s : State) : (appendAligned bs s).ok = s.ok := rfl
@[simp] theorem appendAligned_fault (bs : List Byte) (s : State) : (appendAligned bs s).fault = s.fault := rfl
@[simp] theorem appendAligned_fcause (bs : List Byte) (s : State) : (appendAligned bs s).fcause = s.fcause := rfl
@[simp] theorem appendAligned_fcmd (bs : List Byte) (s : State) : (appendAligned bs s).fcmd = s.fcmd := rfl
@[simp] theorem appendAligned_farg (bs : List Byte) (s : State) : (appendAligned bs s).farg = s.farg := rfl
@[simp] theorem appendAligned_wBase (bs : List Byte) (s : State) : (appendAligned bs s).wBase = s.wBase := rfl
@[simp] theorem appendAligned_wCap (bs : List Byte) (s : State) : (appendAligned bs s).wCap = s.wCap := rfl
@[simp] theorem appendAligned_wAcc (bs : List Byte) (s : State) : (appendAligned bs s).wAcc = 0 := rfl
@[simp] theorem appendAligned_wCommitted (bs : List Byte) (s : State) :
    (appendAligned bs s).wCommitted = BitVec.ofNat 32 (alignedOffset s + bs.length) := rfl
@[simp] theorem appendAligned_wPending (bs : List Byte) (s : State) : (appendAligned bs s).wPending = 0 := rfl
@[simp] theorem appendAligned_wNaf (bs : List Byte) (s : State) : (appendAligned bs s).wNaf = false := rfl
@[simp] theorem appendAligned_rBase (bs : List Byte) (s : State) : (appendAligned bs s).rBase = s.rBase := rfl
@[simp] theorem appendAligned_rCap (bs : List Byte) (s : State) : (appendAligned bs s).rCap = s.rCap := rfl
@[simp] theorem appendAligned_rConsumed (bs : List Byte) (s : State) :
    (appendAligned bs s).rConsumed = s.rConsumed := rfl
@[simp] theorem appendAligned_rPending (bs : List Byte) (s : State) :
    (appendAligned bs s).rPending = s.rPending := rfl
@[simp] theorem appendAligned_rWindow (bs : List Byte) (s : State) : (appendAligned bs s).rWindow = s.rWindow := rfl
@[simp] theorem appendAligned_convBuf (bs : List Byte) (s : State) : (appendAligned bs s).convBuf = s.convBuf := rfl
@[simp] theorem appendAligned_mem (bs : List Byte) (s : State) :
    (appendAligned bs s).mem = (alignFlush s).mem.writeBytes (s.wBase.toNat + alignedOffset s) bs := rfl
@[simp] theorem appendAligned_admitted (bs : List Byte) (s : State) :
    (appendAligned bs s).admitted = s.admitted := rfl
@[simp] theorem appendAligned_hostActions (bs : List Byte) (s : State) :
    (appendAligned bs s).hostActions = s.hostActions := rfl
@[simp] theorem appendAligned_actionIndex (bs : List Byte) (s : State) :
    (appendAligned bs s).actionIndex = s.actionIndex := rfl
@[simp] theorem appendAligned_replies (bs : List Byte) (s : State) : (appendAligned bs s).replies = s.replies := rfl
@[simp] theorem appendAligned_freeCount (bs : List Byte) (s : State) :
    (appendAligned bs s).freeCount = s.freeCount := rfl

/-! Fields of `refill s`. -/

@[simp] theorem refill_arg (s : State) : (refill s).arg = s.arg := by
  simp only [refill]
@[simp] theorem refill_res (s : State) : (refill s).res = s.res := by
  simp only [refill]
@[simp] theorem refill_ok (s : State) : (refill s).ok = s.ok := by
  simp only [refill]
@[simp] theorem refill_fault (s : State) : (refill s).fault = s.fault := by
  simp only [refill]
@[simp] theorem refill_fcause (s : State) : (refill s).fcause = s.fcause := by
  simp only [refill]
@[simp] theorem refill_fcmd (s : State) : (refill s).fcmd = s.fcmd := by
  simp only [refill]
@[simp] theorem refill_farg (s : State) : (refill s).farg = s.farg := by
  simp only [refill]
@[simp] theorem refill_wBase (s : State) : (refill s).wBase = s.wBase := by
  simp only [refill]
@[simp] theorem refill_wCap (s : State) : (refill s).wCap = s.wCap := by
  simp only [refill]
@[simp] theorem refill_wAcc (s : State) : (refill s).wAcc = s.wAcc := by
  simp only [refill]
@[simp] theorem refill_wCommitted (s : State) : (refill s).wCommitted = s.wCommitted := by
  simp only [refill]
@[simp] theorem refill_wPending (s : State) : (refill s).wPending = s.wPending := by
  simp only [refill]
@[simp] theorem refill_wNaf (s : State) : (refill s).wNaf = s.wNaf := by
  simp only [refill]
@[simp] theorem refill_rBase (s : State) : (refill s).rBase = s.rBase := by
  simp only [refill]
@[simp] theorem refill_rCap (s : State) : (refill s).rCap = s.rCap := by
  simp only [refill]
@[simp] theorem refill_rConsumed (s : State) : (refill s).rConsumed = s.rConsumed := by
  simp only [refill]
@[simp] theorem refill_rPending (s : State) : (refill s).rPending = s.rPending := by
  simp only [refill]
@[simp] theorem refill_rWindow (s : State) :
    (refill s).rWindow = BitVec.ofNat 64 (s.mem.windowLE s.rBase.toNat s.rCap.toNat s.rConsumed.toNat 8) := by
  simp only [refill]
@[simp] theorem refill_convBuf (s : State) : (refill s).convBuf = s.convBuf := by
  simp only [refill]
@[simp] theorem refill_mem (s : State) : (refill s).mem = s.mem := by
  simp only [refill]
@[simp] theorem refill_admitted (s : State) : (refill s).admitted = s.admitted := by
  simp only [refill]
@[simp] theorem refill_hostActions (s : State) : (refill s).hostActions = s.hostActions := by
  simp only [refill]
@[simp] theorem refill_actionIndex (s : State) : (refill s).actionIndex = s.actionIndex := by
  simp only [refill]
@[simp] theorem refill_replies (s : State) : (refill s).replies = s.replies := by
  simp only [refill]
@[simp] theorem refill_freeCount (s : State) : (refill s).freeCount = s.freeCount := by
  simp only [refill]

/-! Fields of `seekByte off s`. -/

@[simp] theorem seekByte_arg (off : Nat) (s : State) : (seekByte off s).arg = s.arg := by
  simp only [seekByte, refill]
@[simp] theorem seekByte_res (off : Nat) (s : State) : (seekByte off s).res = s.res := by
  simp only [seekByte, refill]
@[simp] theorem seekByte_ok (off : Nat) (s : State) : (seekByte off s).ok = s.ok := by
  simp only [seekByte, refill]
@[simp] theorem seekByte_fault (off : Nat) (s : State) : (seekByte off s).fault = s.fault := by
  simp only [seekByte, refill]
@[simp] theorem seekByte_fcause (off : Nat) (s : State) : (seekByte off s).fcause = s.fcause := by
  simp only [seekByte, refill]
@[simp] theorem seekByte_fcmd (off : Nat) (s : State) : (seekByte off s).fcmd = s.fcmd := by
  simp only [seekByte, refill]
@[simp] theorem seekByte_farg (off : Nat) (s : State) : (seekByte off s).farg = s.farg := by
  simp only [seekByte, refill]
@[simp] theorem seekByte_wBase (off : Nat) (s : State) : (seekByte off s).wBase = s.wBase := by
  simp only [seekByte, refill]
@[simp] theorem seekByte_wCap (off : Nat) (s : State) : (seekByte off s).wCap = s.wCap := by
  simp only [seekByte, refill]
@[simp] theorem seekByte_wAcc (off : Nat) (s : State) : (seekByte off s).wAcc = s.wAcc := by
  simp only [seekByte, refill]
@[simp] theorem seekByte_wCommitted (off : Nat) (s : State) : (seekByte off s).wCommitted = s.wCommitted := by
  simp only [seekByte, refill]
@[simp] theorem seekByte_wPending (off : Nat) (s : State) : (seekByte off s).wPending = s.wPending := by
  simp only [seekByte, refill]
@[simp] theorem seekByte_wNaf (off : Nat) (s : State) : (seekByte off s).wNaf = s.wNaf := by
  simp only [seekByte, refill]
@[simp] theorem seekByte_rBase (off : Nat) (s : State) : (seekByte off s).rBase = s.rBase := by
  simp only [seekByte, refill]
@[simp] theorem seekByte_rCap (off : Nat) (s : State) : (seekByte off s).rCap = s.rCap := by
  simp only [seekByte, refill]
@[simp] theorem seekByte_rConsumed (off : Nat) (s : State) : (seekByte off s).rConsumed = BitVec.ofNat 32 off := by
  simp only [seekByte, refill]
@[simp] theorem seekByte_rPending (off : Nat) (s : State) : (seekByte off s).rPending = 0 := by
  simp only [seekByte, refill]
@[simp] theorem seekByte_rWindow (off : Nat) (s : State) :
    (seekByte off s).rWindow = BitVec.ofNat 64 (s.mem.windowLE s.rBase.toNat s.rCap.toNat (BitVec.ofNat 32 off).toNat 8) := by
  simp only [seekByte, refill]
@[simp] theorem seekByte_convBuf (off : Nat) (s : State) : (seekByte off s).convBuf = s.convBuf := by
  simp only [seekByte, refill]
@[simp] theorem seekByte_mem (off : Nat) (s : State) : (seekByte off s).mem = s.mem := by
  simp only [seekByte, refill]
@[simp] theorem seekByte_admitted (off : Nat) (s : State) : (seekByte off s).admitted = s.admitted := by
  simp only [seekByte, refill]
@[simp] theorem seekByte_hostActions (off : Nat) (s : State) : (seekByte off s).hostActions = s.hostActions := by
  simp only [seekByte, refill]
@[simp] theorem seekByte_actionIndex (off : Nat) (s : State) : (seekByte off s).actionIndex = s.actionIndex := by
  simp only [seekByte, refill]
@[simp] theorem seekByte_replies (off : Nat) (s : State) : (seekByte off s).replies = s.replies := by
  simp only [seekByte, refill]
@[simp] theorem seekByte_freeCount (off : Nat) (s : State) : (seekByte off s).freeCount = s.freeCount := by
  simp only [seekByte, refill]

/-! Fields of `scalarAdvance nb s`. -/

theorem scalarAdvance_unchanged (nb : Nat) (s : State) :
    scalarAdvance nb s = { s with rConsumed := (scalarAdvance nb s).rConsumed, rPending := (scalarAdvance nb s).rPending, rWindow := (scalarAdvance nb s).rWindow } := by
  unfold scalarAdvance; split <;> rfl

@[simp] theorem scalarAdvance_arg (nb : Nat) (s : State) :
    (scalarAdvance nb s).arg = s.arg := by
  rw [scalarAdvance_unchanged]
@[simp] theorem scalarAdvance_res (nb : Nat) (s : State) :
    (scalarAdvance nb s).res = s.res := by
  rw [scalarAdvance_unchanged]
@[simp] theorem scalarAdvance_ok (nb : Nat) (s : State) :
    (scalarAdvance nb s).ok = s.ok := by
  rw [scalarAdvance_unchanged]
@[simp] theorem scalarAdvance_fault (nb : Nat) (s : State) :
    (scalarAdvance nb s).fault = s.fault := by
  rw [scalarAdvance_unchanged]
@[simp] theorem scalarAdvance_fcause (nb : Nat) (s : State) :
    (scalarAdvance nb s).fcause = s.fcause := by
  rw [scalarAdvance_unchanged]
@[simp] theorem scalarAdvance_fcmd (nb : Nat) (s : State) :
    (scalarAdvance nb s).fcmd = s.fcmd := by
  rw [scalarAdvance_unchanged]
@[simp] theorem scalarAdvance_farg (nb : Nat) (s : State) :
    (scalarAdvance nb s).farg = s.farg := by
  rw [scalarAdvance_unchanged]
@[simp] theorem scalarAdvance_wBase (nb : Nat) (s : State) :
    (scalarAdvance nb s).wBase = s.wBase := by
  rw [scalarAdvance_unchanged]
@[simp] theorem scalarAdvance_wCap (nb : Nat) (s : State) :
    (scalarAdvance nb s).wCap = s.wCap := by
  rw [scalarAdvance_unchanged]
@[simp] theorem scalarAdvance_wAcc (nb : Nat) (s : State) :
    (scalarAdvance nb s).wAcc = s.wAcc := by
  rw [scalarAdvance_unchanged]
@[simp] theorem scalarAdvance_wCommitted (nb : Nat) (s : State) :
    (scalarAdvance nb s).wCommitted = s.wCommitted := by
  rw [scalarAdvance_unchanged]
@[simp] theorem scalarAdvance_wPending (nb : Nat) (s : State) :
    (scalarAdvance nb s).wPending = s.wPending := by
  rw [scalarAdvance_unchanged]
@[simp] theorem scalarAdvance_wNaf (nb : Nat) (s : State) :
    (scalarAdvance nb s).wNaf = s.wNaf := by
  rw [scalarAdvance_unchanged]
@[simp] theorem scalarAdvance_rBase (nb : Nat) (s : State) :
    (scalarAdvance nb s).rBase = s.rBase := by
  rw [scalarAdvance_unchanged]
@[simp] theorem scalarAdvance_rCap (nb : Nat) (s : State) :
    (scalarAdvance nb s).rCap = s.rCap := by
  rw [scalarAdvance_unchanged]
@[simp] theorem scalarAdvance_convBuf (nb : Nat) (s : State) :
    (scalarAdvance nb s).convBuf = s.convBuf := by
  rw [scalarAdvance_unchanged]
@[simp] theorem scalarAdvance_mem (nb : Nat) (s : State) :
    (scalarAdvance nb s).mem = s.mem := by
  rw [scalarAdvance_unchanged]
@[simp] theorem scalarAdvance_admitted (nb : Nat) (s : State) :
    (scalarAdvance nb s).admitted = s.admitted := by
  rw [scalarAdvance_unchanged]
@[simp] theorem scalarAdvance_hostActions (nb : Nat) (s : State) :
    (scalarAdvance nb s).hostActions = s.hostActions := by
  rw [scalarAdvance_unchanged]
@[simp] theorem scalarAdvance_actionIndex (nb : Nat) (s : State) :
    (scalarAdvance nb s).actionIndex = s.actionIndex := by
  rw [scalarAdvance_unchanged]
@[simp] theorem scalarAdvance_replies (nb : Nat) (s : State) :
    (scalarAdvance nb s).replies = s.replies := by
  rw [scalarAdvance_unchanged]
@[simp] theorem scalarAdvance_freeCount (nb : Nat) (s : State) :
    (scalarAdvance nb s).freeCount = s.freeCount := by
  rw [scalarAdvance_unchanged]

/-! Fields of `resetBlock s`. -/

@[simp] theorem resetBlock_arg (s : State) : (resetBlock s).arg = 0 := rfl
@[simp] theorem resetBlock_res (s : State) : (resetBlock s).res = 0 := rfl
@[simp] theorem resetBlock_ok (s : State) : (resetBlock s).ok = false := rfl
@[simp] theorem resetBlock_fault (s : State) : (resetBlock s).fault = false := rfl
@[simp] theorem resetBlock_fcause (s : State) : (resetBlock s).fcause = 0 := rfl
@[simp] theorem resetBlock_fcmd (s : State) : (resetBlock s).fcmd = 0 := rfl
@[simp] theorem resetBlock_farg (s : State) : (resetBlock s).farg = 0 := rfl
@[simp] theorem resetBlock_wBase (s : State) : (resetBlock s).wBase = 0 := rfl
@[simp] theorem resetBlock_wCap (s : State) : (resetBlock s).wCap = 0 := rfl
@[simp] theorem resetBlock_wAcc (s : State) : (resetBlock s).wAcc = 0 := rfl
@[simp] theorem resetBlock_wCommitted (s : State) : (resetBlock s).wCommitted = 0 := rfl
@[simp] theorem resetBlock_wPending (s : State) : (resetBlock s).wPending = 0 := rfl
@[simp] theorem resetBlock_wNaf (s : State) : (resetBlock s).wNaf = false := rfl
@[simp] theorem resetBlock_rBase (s : State) : (resetBlock s).rBase = 0 := rfl
@[simp] theorem resetBlock_rCap (s : State) : (resetBlock s).rCap = 0 := rfl
@[simp] theorem resetBlock_rConsumed (s : State) : (resetBlock s).rConsumed = 0 := rfl
@[simp] theorem resetBlock_rPending (s : State) : (resetBlock s).rPending = 0 := rfl
@[simp] theorem resetBlock_rWindow (s : State) : (resetBlock s).rWindow = 0 := rfl
@[simp] theorem resetBlock_convBuf (s : State) : (resetBlock s).convBuf = [] := rfl
@[simp] theorem resetBlock_mem (s : State) : (resetBlock s).mem = s.mem := rfl
@[simp] theorem resetBlock_admitted (s : State) : (resetBlock s).admitted = s.admitted := rfl
@[simp] theorem resetBlock_hostActions (s : State) : (resetBlock s).hostActions = s.hostActions := rfl
@[simp] theorem resetBlock_actionIndex (s : State) : (resetBlock s).actionIndex = s.actionIndex := rfl
@[simp] theorem resetBlock_replies (s : State) : (resetBlock s).replies = s.replies := rfl
@[simp] theorem resetBlock_freeCount (s : State) : (resetBlock s).freeCount = s.freeCount := rfl

/-! Fields of `takeAction rest s`. -/

@[simp] theorem takeAction_arg (rest : List HostAction) (s : State) : (takeAction rest s).arg = s.arg := rfl
@[simp] theorem takeAction_res (rest : List HostAction) (s : State) : (takeAction rest s).res = s.res := rfl
@[simp] theorem takeAction_ok (rest : List HostAction) (s : State) : (takeAction rest s).ok = s.ok := rfl
@[simp] theorem takeAction_fault (rest : List HostAction) (s : State) : (takeAction rest s).fault = s.fault := rfl
@[simp] theorem takeAction_fcause (rest : List HostAction) (s : State) :
    (takeAction rest s).fcause = s.fcause := rfl
@[simp] theorem takeAction_fcmd (rest : List HostAction) (s : State) : (takeAction rest s).fcmd = s.fcmd := rfl
@[simp] theorem takeAction_farg (rest : List HostAction) (s : State) : (takeAction rest s).farg = s.farg := rfl
@[simp] theorem takeAction_wBase (rest : List HostAction) (s : State) : (takeAction rest s).wBase = s.wBase := rfl
@[simp] theorem takeAction_wCap (rest : List HostAction) (s : State) : (takeAction rest s).wCap = s.wCap := rfl
@[simp] theorem takeAction_wAcc (rest : List HostAction) (s : State) : (takeAction rest s).wAcc = s.wAcc := rfl
@[simp] theorem takeAction_wCommitted (rest : List HostAction) (s : State) :
    (takeAction rest s).wCommitted = s.wCommitted := rfl
@[simp] theorem takeAction_wPending (rest : List HostAction) (s : State) :
    (takeAction rest s).wPending = s.wPending := rfl
@[simp] theorem takeAction_wNaf (rest : List HostAction) (s : State) : (takeAction rest s).wNaf = s.wNaf := rfl
@[simp] theorem takeAction_rBase (rest : List HostAction) (s : State) : (takeAction rest s).rBase = s.rBase := rfl
@[simp] theorem takeAction_rCap (rest : List HostAction) (s : State) : (takeAction rest s).rCap = s.rCap := rfl
@[simp] theorem takeAction_rConsumed (rest : List HostAction) (s : State) :
    (takeAction rest s).rConsumed = s.rConsumed := rfl
@[simp] theorem takeAction_rPending (rest : List HostAction) (s : State) :
    (takeAction rest s).rPending = s.rPending := rfl
@[simp] theorem takeAction_rWindow (rest : List HostAction) (s : State) :
    (takeAction rest s).rWindow = s.rWindow := rfl
@[simp] theorem takeAction_convBuf (rest : List HostAction) (s : State) :
    (takeAction rest s).convBuf = s.convBuf := rfl
@[simp] theorem takeAction_mem (rest : List HostAction) (s : State) : (takeAction rest s).mem = s.mem := rfl
@[simp] theorem takeAction_admitted (rest : List HostAction) (s : State) :
    (takeAction rest s).admitted = s.admitted := rfl
@[simp] theorem takeAction_hostActions (rest : List HostAction) (s : State) :
    (takeAction rest s).hostActions = rest := rfl
@[simp] theorem takeAction_actionIndex (rest : List HostAction) (s : State) :
    (takeAction rest s).actionIndex = s.actionIndex + 1 := rfl
@[simp] theorem takeAction_replies (rest : List HostAction) (s : State) :
    (takeAction rest s).replies = s.replies := rfl
@[simp] theorem takeAction_freeCount (rest : List HostAction) (s : State) :
    (takeAction rest s).freeCount = s.freeCount := rfl

/-! Fields of `queueCommand w s`. -/

@[simp] theorem queueCommand_arg (w : Word) (s : State) : (queueCommand w s).arg = s.arg := rfl
@[simp] theorem queueCommand_res (w : Word) (s : State) : (queueCommand w s).res = s.res := rfl
@[simp] theorem queueCommand_ok (w : Word) (s : State) : (queueCommand w s).ok = s.ok := rfl
@[simp] theorem queueCommand_fault (w : Word) (s : State) : (queueCommand w s).fault = s.fault := rfl
@[simp] theorem queueCommand_fcause (w : Word) (s : State) : (queueCommand w s).fcause = s.fcause := rfl
@[simp] theorem queueCommand_fcmd (w : Word) (s : State) : (queueCommand w s).fcmd = s.fcmd := rfl
@[simp] theorem queueCommand_farg (w : Word) (s : State) : (queueCommand w s).farg = s.farg := rfl
@[simp] theorem queueCommand_wBase (w : Word) (s : State) : (queueCommand w s).wBase = s.wBase := rfl
@[simp] theorem queueCommand_wCap (w : Word) (s : State) : (queueCommand w s).wCap = s.wCap := rfl
@[simp] theorem queueCommand_wAcc (w : Word) (s : State) : (queueCommand w s).wAcc = s.wAcc := rfl
@[simp] theorem queueCommand_wCommitted (w : Word) (s : State) : (queueCommand w s).wCommitted = s.wCommitted := rfl
@[simp] theorem queueCommand_wPending (w : Word) (s : State) : (queueCommand w s).wPending = s.wPending := rfl
@[simp] theorem queueCommand_wNaf (w : Word) (s : State) : (queueCommand w s).wNaf = s.wNaf := rfl
@[simp] theorem queueCommand_rBase (w : Word) (s : State) : (queueCommand w s).rBase = s.rBase := rfl
@[simp] theorem queueCommand_rCap (w : Word) (s : State) : (queueCommand w s).rCap = s.rCap := rfl
@[simp] theorem queueCommand_rConsumed (w : Word) (s : State) : (queueCommand w s).rConsumed = s.rConsumed := rfl
@[simp] theorem queueCommand_rPending (w : Word) (s : State) : (queueCommand w s).rPending = s.rPending := rfl
@[simp] theorem queueCommand_rWindow (w : Word) (s : State) : (queueCommand w s).rWindow = s.rWindow := rfl
@[simp] theorem queueCommand_convBuf (w : Word) (s : State) : (queueCommand w s).convBuf = s.convBuf := rfl
@[simp] theorem queueCommand_mem (w : Word) (s : State) : (queueCommand w s).mem = s.mem := rfl
@[simp] theorem queueCommand_admitted (w : Word) (s : State) : (queueCommand w s).admitted = s.admitted := rfl
@[simp] theorem queueCommand_hostActions (w : Word) (s : State) :
    (queueCommand w s).hostActions = .writeReg .cmd w :: s.hostActions := rfl
@[simp] theorem queueCommand_actionIndex (w : Word) (s : State) :
    (queueCommand w s).actionIndex = s.actionIndex := rfl
@[simp] theorem queueCommand_replies (w : Word) (s : State) : (queueCommand w s).replies = s.replies := rfl
@[simp] theorem queueCommand_freeCount (w : Word) (s : State) : (queueCommand w s).freeCount = s.freeCount := rfl

/-! Positions of the cursors after the updates that move none of them. -/

@[simp] theorem wpos_refill (s : State) : wpos (refill s) = wpos s := by simp only [wpos, refill]
@[simp] theorem wpos_takeAction (rest : List HostAction) (s : State) : wpos (takeAction rest s) = wpos s := rfl
@[simp] theorem wpos_faultEntry (c : FaultCause) (w : Word) (s : State) : wpos (faultEntry c w s) = wpos s := rfl
@[simp] theorem wpos_faultClear (s : State) : wpos (faultClear s) = wpos s := rfl
@[simp] theorem rPos_refill (s : State) : rPos (refill s) = rPos s := by simp only [rPos, refill]
@[simp] theorem rPos_alignFlush (s : State) : rPos (alignFlush s) = rPos s := rfl
@[simp] theorem rPos_appendAligned (bs : List Byte) (s : State) : rPos (appendAligned bs s) = rPos s := rfl
@[simp] theorem rPos_packShort (nb : Nat) (s : State) : rPos (packShort nb s) = rPos s := rfl
@[simp] theorem rPos_packCarry (nb : Nat) (s : State) : rPos (packCarry nb s) = rPos s := by
  simp only [rPos, packCarry]
@[simp] theorem rPos_takeAction (rest : List HostAction) (s : State) : rPos (takeAction rest s) = rPos s := rfl
@[simp] theorem rPos_faultEntry (c : FaultCause) (w : Word) (s : State) : rPos (faultEntry c w s) = rPos s := rfl
@[simp] theorem rPos_faultClear (s : State) : rPos (faultClear s) = rPos s := rfl

end Sys2Proof.Machine
end

