-- ==== Sys2Proof/Laws/Ops.lean ====
section
/-! SUPPORT. One lemma per shared operation that says everything it can do. -/

namespace Sys2Proof.Machine

theorem ceil8_le_iff (p n : Nat) : ceil8 p ≤ n ↔ p ≤ 8 * n := by unfold ceil8; omega

/-- The alias check answers what R57 says: some byte of the range lies in the unread region of an attached reader. -/
theorem meetsUnread_iff (s : State) (lo len : Nat) : meetsUnread s lo len = true ↔ hitsUnread s lo len := by
  unfold meetsUnread hitsUnread
  simp only [Bool.and_eq_true, decide_eq_true_eq]
  refine and_congr_right fun _ => ⟨fun h => ⟨max lo (unreadLo s), ?_⟩, ?_⟩
  · omega
  · rintro ⟨a, h1, h2, h3, h4⟩; omega

/-- A range clear of the unread region stays clear when it is cut short or begun later. -/
theorem meetsUnread_mono {s : State} {lo len lo' len' : Nat} (h : meetsUnread s lo len = false)
    (hlo : lo ≤ lo') (hhi : lo' + len' ≤ lo + len) : meetsUnread s lo' len' = false := by
  unfold meetsUnread at *
  by_cases hc : 0 < s.rCap.toNat
  · simp only [hc, decide_true, Bool.true_and, decide_eq_false_iff_not] at *; omega
  · simp [hc]

/-- The range check: the first of `ADDRESS_RANGE` and `BUS` that applies (R51, R67, R216), or neither. -/
theorem rangeFault_cases (s : State) (base len : Nat) :
    (2 ^ 64 < base + len ∧ rangeFault s base len = some .addressRange) ∨
    (base + len ≤ 2 ^ 64 ∧ (∃ a, base ≤ a ∧ a < base + len ∧ memAdmits s.admitted a = false) ∧
      rangeFault s base len = some .bus) ∨
    (base + len ≤ 2 ^ 64 ∧ (∀ a, base ≤ a → a < base + len → memAdmits s.admitted a = true) ∧
      rangeFault s base len = none) := by
  unfold rangeFault passesAddressSpace
  by_cases h : Config.addressSpace < base + len
  · exact .inl ⟨h, by rw [if_pos (decide_eq_true h)]⟩
  · right
    rw [if_neg (by simpa using h)]
    by_cases ha : admitsRange s.admitted base (base + len) = true
    · exact .inr ⟨Nat.le_of_not_lt h, (admitsRange_iff _ _ _).mp ha, if_pos ha⟩
    · refine .inl ⟨Nat.le_of_not_lt h, ?_, if_neg ha⟩
      by_contra hno
      refine ha ((admitsRange_iff _ _ _).mpr fun a h1 h2 => ?_)
      by_contra hf
      exact hno ⟨a, h1, h2, by simpa using hf⟩

/-- What appending a byte-aligned field can do: fail for want of space, fault on the unread region, or append. -/
theorem putBytes_cases (i : Instr) (bytes : List Byte) (s : State) :
    (s.wCap.toNat < alignedOffset s + bytes.length ∧ putBytes i bytes s = .next { s with ok := false }) ∨
    (alignedOffset s + bytes.length ≤ s.wCap.toNat ∧
      meetsUnread s (packAddr s) (partialBytes s + bytes.length) = true ∧
      putBytes i bytes s = .next (faultEntry .aliased (encode i) s)) ∨
    (alignedOffset s + bytes.length ≤ s.wCap.toNat ∧
      meetsUnread s (packAddr s) (partialBytes s + bytes.length) = false ∧
      putBytes i bytes s = .next { refill (appendAligned bytes s) with ok := true }) := by
  unfold putBytes
  by_cases h : s.wCap.toNat < alignedOffset s + bytes.length
  · exact .inl ⟨h, if_pos h⟩
  · right
    rw [if_neg h]
    by_cases hm : meetsUnread s (packAddr s) (partialBytes s + bytes.length) = true
    · exact .inl ⟨Nat.le_of_not_lt h, hm, if_pos hm⟩
    · exact .inr ⟨Nat.le_of_not_lt h, by simpa using hm, if_neg hm⟩

/-- What reading a varint can do: fail, or deliver a value and move the cursor past its bytes. -/
theorem getVarint_cases (result : BitVec 32 → Word) (s : State) :
    (vlqDecode s.mem s.rBase.toNat (ceil8 (rPos s)) s.rCap.toNat = none ∧
      getVarint result s = .next { s with ok := false, res := 0 }) ∨
    ∃ v used, vlqDecode s.mem s.rBase.toNat (ceil8 (rPos s)) s.rCap.toNat = some (v, used) ∧
      getVarint result s = .next { seekByte (ceil8 (rPos s) + used) s with ok := true, res := result v } := by
  unfold getVarint
  cases h : vlqDecode s.mem s.rBase.toNat (ceil8 (rPos s)) s.rCap.toNat with
  | none => exact .inl ⟨rfl, rfl⟩
  | some r => exact .inr ⟨r.1, r.2, rfl, rfl⟩

/-- What a write to `CMD` can do (R78, R215): nothing while faulted, else a decode fault or the command. -/
theorem issueCommand_cases (w : Word) (s : State) :
    (s.fault = true ∧ issueCommand w s = .next s) ∨
    (s.fault = false ∧ ∃ r, decode w = .error r ∧ issueCommand w s = .next (faultEntry (rejectCause r) w s)) ∨
    (s.fault = false ∧ ∃ i, decode w = .ok i ∧ issueCommand w s = exec i s) := by
  unfold issueCommand
  cases hf : s.fault with
  | true => exact .inl ⟨rfl, rfl⟩
  | false =>
    cases hd : decode w with
    | error r => exact .inr (.inl ⟨rfl, r, rfl, rfl⟩)
    | ok i => exact .inr (.inr ⟨rfl, i, rfl, rfl⟩)

/-- What a step can do: idle, or perform the host's next action. -/
theorem step_cases (s : State) :
    (s.hostActions = [] ∧ step s = .next s) ∨
    ∃ a rest, s.hostActions = a :: rest ∧ step s = perform a (takeAction rest s) := by
  unfold step performNext
  cases h : s.hostActions with
  | nil => exact .inl ⟨rfl, rfl⟩
  | cons a rest => exact .inr ⟨a, rest, rfl, rfl⟩

/-- Align-flush writes the partial bytes of the accumulator and no other byte (R103). -/
theorem alignFlush_sameOutside {s : State} (h : s.mem.wf) :
    sameOutside s.mem (alignFlush s).mem (packAddr s) (partialBytes s) :=
  Memory.sameOutside_writeLE h _ _ _

theorem alignFlush_wf {s : State} (h : s.mem.wf) : Memory.wf (alignFlush s).mem := Memory.writeLE_wf h _ _ _

/-- Appending a byte-aligned field writes the partial bytes, then the field, and no other byte (R109, R186). -/
theorem appendAligned_sameOutside {s : State} (h : s.mem.wf) (bytes : List Byte) :
    sameOutside s.mem (appendAligned bytes s).mem (packAddr s) (partialBytes s + bytes.length) := by
  intro a ha
  rw [appendAligned_mem, Memory.sameOutside_writeBytes (alignFlush_wf h) _ _ a, alignFlush_sameOutside h a]
  · omega
  · simp only [alignedOffset, packAddr] at *; omega

theorem appendAligned_wf {s : State} (h : s.mem.wf) (bytes : List Byte) : Memory.wf (appendAligned bytes s).mem :=
  Memory.writeBytes_wf (alignFlush_wf h) _ _

theorem appendAligned_holdsBytes {s : State} (h : s.mem.wf) (bytes : List Byte) :
    holdsBytes (appendAligned bytes s).mem (s.wBase.toNat + alignedOffset s) bytes :=
  Memory.holdsBytes_writeBytes (alignFlush_wf h) _ _

theorem packCarry_wf {s : State} (h : s.mem.wf) (nb : Nat) : Memory.wf (packCarry nb s).mem :=
  Memory.writeLE_wf h _ _ _

/-- Byte `j` of the low `n` bytes of a number. -/
theorem bytesLE_getElem (n v j : Nat) (h : j < (bytesLE n v).length) :
    (bytesLE n v)[j] = BitVec.ofNat 8 (v / 256 ^ j) := by
  induction n generalizing v j with
  | zero => simp [bytesLE] at h
  | succ n ih =>
    cases j with
    | zero => simp [bytesLE]
    | succ j =>
      simp only [bytesLE, List.getElem_cons_succ]
      rw [ih, Nat.div_div_eq_div_mul, Nat.pow_succ']

@[simp] theorem bytesLE_length (n v : Nat) : (bytesLE n v).length = n := by
  induction n generalizing v with
  | zero => rfl
  | succ n ih => simp [bytesLE, ih]

theorem unpack32_length (m : Memory) (addr max nb : Nat) : (unpack32 m addr max nb).length = 32 * (max / 32) := by
  simp [unpack32]

/-- Value `j` of the bulk unit (R149). -/
theorem unpack32_getElem (m : Memory) (addr max nb j : Nat) (h : j < (unpack32 m addr max nb).length) :
    (unpack32 m addr max nb)[j] = BitVec.ofNat 32 (m.streamBits addr (j * nb) nb) := by
  simp [unpack32]

/-- Byte `i` of the window's number is the buffer's byte, 0 past the buffer's end (R36, R141). -/
theorem windowLE_byte (m : Memory) (base cap off n i : Nat) (h : i < n) :
    BitVec.ofNat 8 (m.windowLE base cap off n / 256 ^ i) =
      if off + i < cap then m.read (base + off + i) else 0 := by
  induction n generalizing off i with
  | zero => omega
  | succ n ih =>
    have hb : (if off < cap then (m.read (base + off)).toNat else 0) < 256 := by
      split
      · exact (m.read (base + off)).isLt
      · omega
    cases i with
    | zero =>
      rw [Memory.windowLE]
      apply BitVec.eq_of_toNat_eq
      simp only [BitVec.toNat_ofNat, Nat.pow_zero, Nat.div_one, Nat.add_zero]
      split at hb
      · rw [if_pos ‹_›, if_pos ‹_›]; omega
      · rw [if_neg ‹_›, if_neg ‹_›]; simp
    | succ i =>
      rw [Memory.windowLE, Nat.pow_succ', ← Nat.div_div_eq_div_mul,
        show ∀ x y : Nat, x < 256 → (x + 256 * y) / 256 = y from fun x y hx => by omega]
      · rw [ih (off + 1) i (by omega), show off + 1 + i = off + (i + 1) by omega,
          show base + (off + 1) + i = base + off + (i + 1) by omega]
      · exact hb

theorem windowLE_lt (m : Memory) (base cap off n : Nat) : m.windowLE base cap off n < 256 ^ n := by
  induction n generalizing off with
  | zero => simp [Memory.windowLE]
  | succ n ih =>
    have hb : (if off < cap then (m.read (base + off)).toNat else 0) < 256 := by
      split
      · exact (m.read (base + off)).isLt
      · omega
    have := ih (off + 1)
    rw [Memory.windowLE, Nat.pow_succ]; omega

/-- The window's equation rests on the window, the buffer's place and the memory alone. -/
theorem windowExact_congr {s t : State} (hw : t.rWindow = s.rWindow) (hm : t.mem = s.mem) (hb : t.rBase = s.rBase)
    (hc : t.rCap = s.rCap) (hr : t.rConsumed = s.rConsumed) : windowExact t ↔ windowExact s := by
  unfold windowExact; rw [hw, hm, hb, hc, hr]

/-- After a refill the window's equation holds of all eight bytes (R36, R141). -/
theorem refill_windowExact (s : State) : windowExact (refill s) := by
  intro i hi
  have hlt : s.mem.windowLE s.rBase.toNat s.rCap.toNat s.rConsumed.toNat 8 < 2 ^ 64 :=
    windowLE_lt s.mem s.rBase.toNat s.rCap.toNat s.rConsumed.toNat 8
  have hb := windowLE_byte s.mem s.rBase.toNat s.rCap.toNat s.rConsumed.toNat 8 i hi
  simp only [refill_rWindow, refill_rConsumed, refill_rCap, refill_mem, refill_rBase]
  rw [← hb]
  apply BitVec.eq_of_toNat_eq
  rw [BitVec.extractLsb'_toNat, BitVec.toNat_ofNat, BitVec.toNat_ofNat, Nat.mod_eq_of_lt hlt,
    Nat.shiftRight_eq_div_pow, Nat.pow_mul]

end Sys2Proof.Machine
end

