-- ==== Sys2Proof/Laws/PerInstr.lean ====
section
/-! SUPPORT. The per-instruction family MaskMatch: the word of each command has its row's match under its row's mask
(spec/30_encoding.md R74). -/

namespace Sys2Proof.Laws

/-- The mask of each command, from the table of R74. -/
def ruleMask : Instr → Word
  | .wInit _ => 0x00000000FFFFFFFF
  | .wRebind _ => 0x00000000FFFFFFFF
  | .putValue _ => 0xFFFFFFFFFFFFC0FF
  | .putAligned _ _ => 0xFFFFFFFFFFFF00FF
  | .getNextBytePtr _ => 0x00000000FFFFFFFF
  | .flush _ => 0xFFFFFFFFFFFEFFFF
  | .putVlq => 0xFFFFFFFFFFFFFFFF
  | .putZzvlq => 0xFFFFFFFFFFFFFFFF
  | .bytesWritten => 0xFFFFFFFFFFFFFFFF
  | .rInit _ => 0x00000000FFFFFFFF
  | .getValue _ _ => 0xFFFFFFFFFFFF00FF
  | .getBatch _ _ _ => 0x00000000FFFF00FF
  | .getAligned _ _ => 0xFFFFFFFFFFFF00FF
  | .getVlq => 0xFFFFFFFFFFFFFFFF
  | .getZzvlq => 0xFFFFFFFFFFFFFFFF
  | .bytesLeft => 0xFFFFFFFFFFFFFFFF

/-- A word cut into the fields of R71, the reserved bits among them. -/
def cutFields (arg32 : Count) (rsv : BitVec 15) (al : BitVec 1) (esz : BitVec 2) (n : BitVec 6) (opc : Byte) : Word :=
  arg32 ++ rsv ++ al ++ esz ++ n ++ opc

theorem and_cutFields (a a' : Count) (r r' : BitVec 15) (l l' : BitVec 1) (e e' : BitVec 2) (n n' : BitVec 6) (o o' : Byte) :
    cutFields a r l e n o &&& cutFields a' r' l' e' n' o' =
      cutFields (a &&& a') (r &&& r') (l &&& l') (e &&& e') (n &&& n') (o &&& o') := by
  apply BitVec.eq_of_getLsbD_eq
  intro i _
  simp only [cutFields, BitVec.getLsbD_and, BitVec.getLsbD_append]
  split_ifs <;> rfl

theorem packFields_eq_cutFields (arg32 : Count) (al : Bool) (esz : BitVec 2) (n : BitVec 6) (opc : Byte) :
    packFields arg32 al esz n opc = cutFields arg32 0 (BitVec.ofBool al) esz n opc := rfl

/-- The masks of R74 cut into fields: all ones where the command has no field. -/
theorem mask_arg32 : (0x00000000FFFFFFFF : Word) = cutFields 0 0x7FFF 1 3 0x3F 0xFF := by decide
theorem mask_n : (0xFFFFFFFFFFFFC0FF : Word) = cutFields 0xFFFFFFFF 0x7FFF 1 3 0 0xFF := by decide
theorem mask_n_esz : (0xFFFFFFFFFFFF00FF : Word) = cutFields 0xFFFFFFFF 0x7FFF 1 0 0 0xFF := by decide
theorem mask_al : (0xFFFFFFFFFFFEFFFF : Word) = cutFields 0xFFFFFFFF 0x7FFF 0 3 0x3F 0xFF := by decide
theorem mask_none : (0xFFFFFFFFFFFFFFFF : Word) = cutFields 0xFFFFFFFF 0x7FFF 1 3 0x3F 0xFF := by decide
theorem mask_n_esz_arg32 : (0x00000000FFFF00FF : Word) = cutFields 0 0x7FFF 1 0 0 0xFF := by decide

/-- The word of a command under its row's mask is its row's match, which is the opcode alone. -/
def MaskMatch.Statement (i : Instr) : Prop := encode i &&& ruleMask i = i.opcode.setWidth 64

theorem MaskMatch.wInit (cap : Count) : MaskMatch.Statement (.wInit cap) := by
  rw [MaskMatch.Statement, encode, ruleMask, packFields_eq_cutFields, mask_arg32, and_cutFields]; simp [Instr.opcode, cutFields]
theorem MaskMatch.wRebind (cap : Count) : MaskMatch.Statement (.wRebind cap) := by
  rw [MaskMatch.Statement, encode, ruleMask, packFields_eq_cutFields, mask_arg32, and_cutFields]; simp [Instr.opcode, cutFields]
theorem MaskMatch.putValue (n : BitVec 6) : MaskMatch.Statement (.putValue n) := by
  rw [MaskMatch.Statement, encode, ruleMask, packFields_eq_cutFields, mask_n, and_cutFields]; simp [Instr.opcode, cutFields]
theorem MaskMatch.putAligned (n : BitVec 6) (esz : ElemSize) : MaskMatch.Statement (.putAligned n esz) := by
  rw [MaskMatch.Statement, encode, ruleMask, packFields_eq_cutFields, mask_n_esz, and_cutFields]; simp [Instr.opcode, cutFields]
theorem MaskMatch.getNextBytePtr (count : Count) : MaskMatch.Statement (.getNextBytePtr count) := by
  rw [MaskMatch.Statement, encode, ruleMask, packFields_eq_cutFields, mask_arg32, and_cutFields]; simp [Instr.opcode, cutFields]
theorem MaskMatch.flush (al : Bool) : MaskMatch.Statement (.flush al) := by
  rw [MaskMatch.Statement, encode, ruleMask, packFields_eq_cutFields, mask_al, and_cutFields]; simp [Instr.opcode, cutFields]
theorem MaskMatch.putVlq : MaskMatch.Statement .putVlq := by
  unfold MaskMatch.Statement; decide
theorem MaskMatch.putZzvlq : MaskMatch.Statement .putZzvlq := by
  unfold MaskMatch.Statement; decide
theorem MaskMatch.bytesWritten : MaskMatch.Statement .bytesWritten := by
  unfold MaskMatch.Statement; decide
theorem MaskMatch.rInit (cap : Count) : MaskMatch.Statement (.rInit cap) := by
  rw [MaskMatch.Statement, encode, ruleMask, packFields_eq_cutFields, mask_arg32, and_cutFields]; simp [Instr.opcode, cutFields]
theorem MaskMatch.getValue (n : BitVec 6) (esz : ElemSize) : MaskMatch.Statement (.getValue n esz) := by
  rw [MaskMatch.Statement, encode, ruleMask, packFields_eq_cutFields, mask_n_esz, and_cutFields]; simp [Instr.opcode, cutFields]
theorem MaskMatch.getBatch (n : BitVec 6) (esz : ElemSize) (batch : Count) : MaskMatch.Statement (.getBatch n esz batch) := by
  rw [MaskMatch.Statement, encode, ruleMask, packFields_eq_cutFields, mask_n_esz_arg32, and_cutFields]; simp [Instr.opcode, cutFields]
theorem MaskMatch.getAligned (n : BitVec 6) (esz : ElemSize) : MaskMatch.Statement (.getAligned n esz) := by
  rw [MaskMatch.Statement, encode, ruleMask, packFields_eq_cutFields, mask_n_esz, and_cutFields]; simp [Instr.opcode, cutFields]
theorem MaskMatch.getVlq : MaskMatch.Statement .getVlq := by
  unfold MaskMatch.Statement; decide
theorem MaskMatch.getZzvlq : MaskMatch.Statement .getZzvlq := by
  unfold MaskMatch.Statement; decide
theorem MaskMatch.bytesLeft : MaskMatch.Statement .bytesLeft := by
  unfold MaskMatch.Statement; decide

end Sys2Proof.Laws
end

