-- ==== Sys2Proof/Tests/Slice0.lean ====
section
/-! SUPPORT. Tests against the vectors of spec/95_test_vectors.md and the worked examples of the rules, the smoke test of
WellFormed, and for every statement with hypotheses a concrete state and operands that meet them together. -/

namespace Sys2Proof.Tests

open Sys2Proof Sys2Proof.Machine

/-! Helpers. -/

/-- The outcome is a next state of which `p` holds. -/
def answers (p : State → Bool) : Outcome → Bool
  | .next t => p t
  | .fault _ => false
  | .refused _ => false

/-- The next state of an outcome, `d` if it has none. -/
def stateOf (d : State) : Outcome → State
  | .next t => t
  | .fault _ => d
  | .refused _ => d

theorem next_stateOf (d : State) {o : Outcome} (h : answers (fun _ => true) o = true) : o = .next (stateOf d o) := by
  cases o with
  | next t => rfl
  | fault r => simp [answers] at h
  | refused r => simp [answers] at h

/-- Some state of an optional state, `d` if there is none. -/
theorem some_getD (d : State) {o : Option State} (h : o.isSome = true) : o = some (o.getD d) := by
  cases o with
  | none => simp at h
  | some t => rfl

theorem hits {s : State} {lo len : Nat} (h : meetsUnread s lo len = true) : hitsUnread s lo len :=
  (meetsUnread_iff s lo len).mp h

theorem clear {s : State} {lo len : Nat} (h : meetsUnread s lo len = false) : ¬ hitsUnread s lo len := fun hh => by
  rw [(meetsUnread_iff s lo len).mpr hh] at h; exact Bool.noConfusion h

theorem allAdmitted {rs : List AddrRange} {lo hi : Nat} (h : admitsRange rs lo hi = true) :
    ∀ a, lo ≤ a → a < hi → memAdmits rs a = true := (admitsRange_iff rs lo hi).mp h

/-- The packer bound at 0x1000, three bits pending after `putv 3, 5` (spec/95_test_vectors.md 1.3), the reader detached. -/
def packing (cap : Count) : State :=
  { State.reset with wBase := 0x1000, wCap := cap, wAcc := 5, wPending := 3 }

/-- P3 after step 3: 60 bits pending in a buffer of nine bytes at 0x4000. -/
def nearlyFull : State :=
  { State.reset with wBase := 0x4000, wCap := 9, wAcc := 0x0FFFFFFFC0000000, wPending := 60 }

/-- The reader attached to `bytes` at 0x100, at position `pos` below 64. -/
def reading (bytes : List Byte) (pos : BitVec 6) : State :=
  { refill { State.reset with
      mem := Memory.writeBytes [] 0x100 bytes, rBase := 0x100, rCap := BitVec.ofNat 32 bytes.length } with rPending := pos }

/-- The packer as in `packing 4`, the reader attached to `AA BB` at the same address (V-AL-1, V-AL-2). -/
def sharing (pos : BitVec 6) : State :=
  { refill { State.reset with
      mem := Memory.writeBytes [] 0x1000 [0xAA, 0xBB], rBase := 0x1000, rCap := 2 } with
    rPending := pos, wBase := 0x1000, wCap := 4, wAcc := 5, wPending := 3, arg := 5 }

/-! Decoding: each constructor from a word written out from R71 and R73. -/

theorem test_decode_wInit : decode 0x0000000200000010 = .ok (.wInit 2) := by decide
theorem test_decode_wRebind : decode 0x0000000100000011 = .ok (.wRebind 1) := by decide
theorem test_decode_putValue : decode 0x0000000000002012 = .ok (.putValue 32) := by decide
theorem test_decode_putAligned : decode 0x0000000000004213 = .ok (.putAligned 2 .h) := by decide
theorem test_decode_getNextBytePtr : decode 0x0000000400000014 = .ok (.getNextBytePtr 4) := by decide
theorem test_decode_flush : decode 0x0000000000010015 = .ok (.flush true) := by decide
theorem test_decode_putVlq : decode 0x0000000000000016 = .ok .putVlq := by decide
theorem test_decode_putZzvlq : decode 0x0000000000000017 = .ok .putZzvlq := by decide
theorem test_decode_bytesWritten : decode 0x0000000000000018 = .ok .bytesWritten := by decide
theorem test_decode_rInit : decode 0x0000000600000020 = .ok (.rInit 6) := by decide
theorem test_decode_getValue : decode 0x000000000000CC21 = .ok (.getValue 12 .d) := by decide
theorem test_decode_getBatch : decode 0x0000000A00000522 = .ok (.getBatch 5 .b 10) := by decide
theorem test_decode_getAligned : decode 0x0000000000008423 = .ok (.getAligned 4 .w) := by decide
theorem test_decode_getVlq : decode 0x0000000000000024 = .ok .getVlq := by decide
theorem test_decode_getZzvlq : decode 0x0000000000000025 = .ok .getZzvlq := by decide
theorem test_decode_bytesLeft : decode 0x0000000000000026 = .ok .bytesLeft := by decide

/-- 2.1: the rows that end in the decoder. -/
theorem test_decode_zero_word : decode 0 = .error .illegalOpcode := by decide
theorem test_decode_illegal_0x19 : decode 0x0000000000000019 = .error .illegalOpcode := by decide
theorem test_decode_illegal_0xFF : decode 0x00000000000000FF = .error .illegalOpcode := by decide
theorem test_decode_unused_n : decode 0x0000000000000118 = .error .reservedField := by decide
theorem test_decode_unused_esz : decode 0x0000000000004015 = .error .reservedField := by decide
theorem test_decode_reserved_bit : decode 0x0000000000020010 = .error .reservedField := by decide
theorem test_decode_unused_arg32 : decode 0x0000000100000012 = .error .reservedField := by decide

theorem test_tableWord : decodeTableWord 64 0x0000000400008322 = some (.getBatch 3 .w 4) := by decide
theorem test_fetchWord :
    answers (fun t => t.ok && t.wCap == 2) (step (State.reset.withFetchWord 64 0x0000000200000010)) = true := by decide

/-! WellFormed refuses an ill-formed term for each of its checks (2.1 and R76). -/

theorem smoke_putValue_33 : (Instr.putValue 33).wellFormed = false := by decide
theorem smoke_getValue_33 : (Instr.getValue 33 .w).wellFormed = false := by decide
theorem smoke_getBatch_33 : (Instr.getBatch 33 .w 1).wellFormed = false := by decide
theorem smoke_putAligned_0 : (Instr.putAligned 0 .h).wellFormed = false := by decide
theorem smoke_putAligned_3_of_2 : (Instr.putAligned 3 .h).wellFormed = false := by decide
theorem smoke_getAligned_0 : (Instr.getAligned 0 .w).wellFormed = false := by decide
theorem smoke_getAligned_4_of_2 : (Instr.getAligned 4 .h).wellFormed = true := by decide

/-! The packer. -/

/-- V-WB-4. -/
theorem test_wInit_ends_at_top :
    answers (fun t => t.ok && t.wBase == 0xFFFFFFFFFFFFFFFF && t.wCap == 1)
      (exec (.wInit 1) { State.reset with arg := 0xFFFFFFFFFFFFFFFF }) = true := by decide
/-- V-BUS. -/
theorem test_wInit_bus :
    answers (fun t => t.fault && t.fcause == 8 && t.wCap == 0)
      (exec (.wInit 2) { State.reset with arg := 0xFFFF, admitted := [⟨0, 0x10000⟩] }) = true := by decide
/-- V-WB-1. -/
theorem test_wRebind_too_small :
    answers (fun t => !t.ok && !t.fault && t.wBase == 0x1000)
      (exec (.wRebind 1) { packing 4 with wAcc := 0xABC, wPending := 12, arg := 0x2000, ok := true }) = true := by decide
/-- V-WB-2. -/
theorem test_wRebind_keeps_cursor :
    answers (fun t => t.ok && t.wBase == 0x2000 && t.wCap == 2 && t.wPending == 12 && t.wAcc == 0xABC)
      (exec (.wRebind 2) { packing 4 with wAcc := 0xABC, wPending := 12, arg := 0x2000 }) = true := by decide
/-- V-PK-6, the example of R106. -/
theorem test_putValue_carry :
    answers (fun t => t.ok && t.wCommitted == 8 && t.wPending == 4 && t.wAcc == 0xA &&
        t.mem.readBytes 0x4000 8 == [0x00, 0x00, 0x00, 0xC0, 0xFF, 0xFF, 0xFF, 0xBF])
      (exec (.putValue 8) { nearlyFull with arg := 0xAB }) = true := by decide
/-- V-PK-2. -/
theorem test_putValue_value_range :
    answers (fun t => t.fault && t.fcause == 4 && t.farg == 8 && t.fcmd == 0x0000000000000312)
      (exec (.putValue 3) { packing 8 with wAcc := 0, wPending := 0, arg := 8 }) = true := by decide
/-- 1.3. -/
theorem test_flush_aligned :
    answers (fun t => t.ok && t.mem.read 0x1000 == 0x05 && t.wCommitted == 1 && t.wPending == 0)
      (exec (.flush true) (packing 2)) = true := by decide
/-- V-AL-1. -/
theorem test_flush_unread_region :
    answers (fun t => t.fault && t.fcause == 7 && t.fcmd == 0x0000000000010015 && t.farg == 5)
      (exec (.flush true) (sharing 0)) = true := by decide
/-- V-PA-1: the failing command flushes nothing (spec/90_conflicts.md C4). -/
theorem test_putAligned_fails_unflushed :
    answers (fun t => !t.ok && t.wPending == 3 && t.wAcc == 5 && t.mem == [])
      (exec (.putAligned 2 .h) { packing 2 with arg := 0xBEEF, ok := true }) = true := by decide
/-- The example of R109. -/
theorem test_putAligned_closes_partial_byte :
    answers (fun t => t.ok && t.mem.readBytes 0x1000 3 == [0x05, 0xEF, 0xBE] && t.wCommitted == 3 && t.wPending == 0)
      (exec (.putAligned 2 .h) { packing 4 with arg := 0xBEEF }) = true := by decide
/-- 2.5. -/
theorem test_getNextBytePtr :
    answers (fun t => t.ok && t.res == 0x1001 && t.wCommitted == 5 && t.mem == [(0x1000, 0x0F)])
      (exec (.getNextBytePtr 4) { packing 8 with wAcc := 0xF, wPending := 4 }) = true := by decide
theorem test_getNextBytePtr_no_space :
    answers (fun t => !t.ok && t.res == 0 && t.wCommitted == 5)
      (exec (.getNextBytePtr 4) { packing 8 with wAcc := 0, wPending := 0, wCommitted := 5, res := 1 }) = true := by
  decide
/-- V-VQ-4. -/
theorem test_putVlq_128 :
    answers (fun t => t.ok && t.mem.readBytes 0x1000 3 == [0x05, 0x80, 0x01] && t.wCommitted == 3)
      (exec .putVlq { packing 4 with arg := 128 }) = true := by decide
theorem test_putVlq_ignores_high_half :
    answers (fun t => t.mem.read 0x1000 == 0x05 && t.wCommitted == 1)
      (exec .putVlq { packing 8 with wAcc := 0, wPending := 0, arg := 0x100000005 }) = true := by decide
/-- V-VQ-2, V-VQ-4. -/
theorem test_putZzvlq_least :
    answers (fun t => t.mem.readBytes 0x1000 5 == [0xFF, 0xFF, 0xFF, 0xFF, 0x0F])
      (exec .putZzvlq { packing 8 with wAcc := 0, wPending := 0, arg := 0xFFFFFFFF80000000 }) = true := by decide
theorem test_putZzvlq_minus_65 :
    answers (fun t => t.mem.readBytes 0x1000 2 == [0x81, 0x01] && t.wCommitted == 2)
      (exec .putZzvlq { packing 8 with wAcc := 0, wPending := 0, arg := 0xFFFFFFBF }) = true := by decide
/-- P1 step 6. -/
theorem test_bytesWritten :
    answers (fun t => t.res == 2) (exec .bytesWritten { packing 2 with wAcc := 0xE1D, wPending := 12 }) = true := by
  decide

/-! The unpacker. -/

/-- The example of R144. -/
theorem test_rInit_window :
    answers (fun t => t.ok && t.rWindow == 0x0E1D && rPos t == 0)
      (exec (.rInit 2) { State.reset with arg := 0x100, mem := [(0x100, 0x1D), (0x101, 0x0E)] }) = true := by decide
/-- P3 step 18: a value across the window's end. -/
theorem test_getValue_straddles :
    answers (fun t => t.res == 0xAB && rPos t == 68)
      (exec (.getValue 8 .b) (reading [0x00, 0x00, 0x00, 0xC0, 0xFF, 0xFF, 0xFF, 0xBF, 0x5A] 60)) = true := by decide
/-- 2.8. -/
theorem test_getValue_truncates :
    answers (fun t => t.ok && t.res == 0x34 && rPos t == 12)
      (exec (.getValue 12 .b) (reading [0x34, 0x12] 0)) = true := by decide
/-- V-UP-8. -/
theorem test_getBatch_halves :
    answers (fun t => t.res == 2 && t.mem.readBytes 0x80 4 == [0xAB, 0x0D, 0xFC, 0x0E])
      (exec (.getBatch 12 .h 2) { reading [0xAB, 0xCD, 0xEF] 0 with arg := 0x80 }) = true := by decide
/-- P4 step 2: one bulk group, then a scalar tail of 8; elements 31 to 33. -/
theorem test_getBatch_bulk :
    answers (fun t => t.res == 40 && rPos t == 40 && t.mem.readLE (0x6000 + 4 * 31) 4 == 0 &&
        t.mem.readLE (0x6000 + 4 * 24) 4 == 1 && t.mem.readLE (0x6000 + 4 * 32) 4 == 1)
      (exec (.getBatch 1 .w 40) { reading [0xFF, 0x00, 0xAA, 0x55, 0x0F] 0 with arg := 0x6000 }) = true := by
  decide +kernel
/-- 2.10. -/
theorem test_getAligned_rounds_up :
    answers (fun t => t.ok && t.res == 0x110E && rPos t == 24)
      (exec (.getAligned 2 .h) (reading [0x1D, 0x0E, 0x11, 0x22, 0x33] 3)) = true := by decide
theorem test_getAligned_wider_than_element :
    answers (fun t => !t.ok && !t.fault && t.res == 0 && rPos t == 24)
      (exec (.getAligned 4 .h) { reading [0x1D, 0x0E, 0x11, 0x22, 0x33] 24 with ok := true, res := 1 }) = true := by
  decide
/-- V-VQ-3. -/
theorem test_getVlq_fifth_byte_high_bits :
    answers (fun t => t.ok && t.res == 0xFFFFFFFF && rPos t == 40)
      (exec .getVlq (reading [0xFF, 0xFF, 0xFF, 0xFF, 0x7F] 0)) = true := by decide
theorem test_getVlq_malformed_keeps_cursor :
    answers (fun t => !t.ok && !t.fault && rPos t == 3)
      (exec .getVlq (reading [0x00, 0x80, 0x80, 0x80, 0x80, 0x80] 3)) = true := by decide
/-- V-VQ-2. -/
theorem test_getZzvlq_least :
    answers (fun t => t.res == 0xFFFFFFFF80000000)
      (exec .getZzvlq (reading [0xFF, 0xFF, 0xFF, 0xFF, 0x0F] 0)) = true := by decide
/-- 2.10. -/
theorem test_bytesLeft :
    answers (fun t => t.res == 4) (exec .bytesLeft (reading [0x1D, 0x0E, 0x11, 0x22, 0x33] 3)) = true := by decide

/-! The host's side. -/

/-- P3 step 11: `STATUS` after a `VALUE_RANGE` fault with `OK = 1`. -/
theorem test_status_word :
    readReg .status { State.reset with ok := true, fault := true, fcause := 4 } = 0x403 := by decide
/-- R36: the window follows a host write of a byte already consumed. -/
theorem test_window_follows_host_write :
    answers (fun t => t.rWindow == 0xBB11) (perform (.writeMem 0x100 [0x11]) (reading [0xAA, 0xBB] 8)) = true := by decide
/-- V-FT-1. -/
theorem test_dropped_while_faulted :
    answers (fun t => t.res == 9 && t.fcmd == 0x312 && t.actionIndex == 1)
      (step { State.reset with
        fault := true, fcause := 4, fcmd := 0x312, res := 9, hostActions := [.writeReg .cmd 0x18] }) = true := by decide
/-- V-FT-2. -/
theorem test_clearfault :
    answers (fun t => !t.fault && t.fcause == 0 && t.fcmd == 0 && t.farg == 0 && t.ok && t.res == 9)
      (step { State.reset with
        fault := true, fcause := 4, fcmd := 0x312, farg := 9, ok := true, res := 9
        hostActions := assemble .clearfault }) = true := by decide
/-- V-FT-3. -/
theorem test_softreset :
    answers (fun t => t.wAcc == 0 && t.wPending == 0 && t.wCap == 0 && t.mem == [(0x9, 0x1)])
      (step { packing 4 with mem := [(0x9, 0x1)], hostActions := assemble .softreset }) = true := by decide

/-! Witnesses: for every statement with hypotheses, concrete values that meet them, and for a statement of several clauses
values on both sides of each boundary. -/

/-- The invariants as one check that evaluates. -/
theorem packerInv_of {s : State}
    (h : (wpos s ≤ 8 * s.wCap.toNat ∧ s.wPending.toNat ≤ 63 ∧ s.wAcc.toNat < 2 ^ s.wPending.toNat) ∧
      s.wBase.toNat + s.wCap.toNat ≤ 2 ^ 64 ∧
      admitsRange s.admitted s.wBase.toNat (s.wBase.toNat + s.wCap.toNat) = true) : PackerInv s :=
  ⟨h.1.1, h.1.2.1, h.1.2.2, h.2.1, h.2.2⟩

theorem readerInv_of {s : State}
    (h : (rPos s ≤ 8 * s.rCap.toNat ∧ s.rConsumed.toNat ≤ s.rCap.toNat) ∧
      s.rBase.toNat + s.rCap.toNat ≤ 2 ^ 64 ∧
      admitsRange s.admitted s.rBase.toNat (s.rBase.toNat + s.rCap.toNat) = true)
    (hw : windowExact s) : ReaderInv s :=
  ⟨h.1.1, h.1.2, h.2.1, h.2.2, hw⟩

theorem inv_of {s : State} (hp : PackerInv s) (hr : ReaderInv s)
    (h : s.fault = false ∧ s.fcause = 0 ∧ s.fcmd = 0 ∧ s.farg = 0)
    (hm : s.mem.wf ∧ (∀ c ∈ s.mem, c.1 < 2 ^ 64) ∧ s.convBuf.length ≤ 1024) : Inv s :=
  ⟨hp, hr, ⟨fun _ => h.2, fun hf => by rw [h.1] at hf; exact Bool.noConfusion hf⟩, ⟨hm.1, hm.2.1⟩, hm.2.2⟩

/-- `s` with a fault raised by the word `0x312`, and one host action left. -/
def faultedWith (a : HostAction) : State :=
  { State.reset with fault := true, fcause := 4, fcmd := 0x312, farg := 8, hostActions := [a] }

/-- `s` with one host action left. -/
def withAction (s : State) (a : HostAction) : State := { s with hostActions := [a] }

/-- The packer ends at the top of memory: its one byte is the last of the address space. -/
def atTop : State :=
  { State.reset with wBase := 0xFFFFFFFFFFFFFFFF, wCap := 1, wAcc := 5, wPending := 3 }

/-- A platform that admits the first 0x10000 addresses. -/
def narrow (base : Word) : State := { State.reset with arg := base, admitted := [⟨0, 0x10000⟩] }

/-- Nine bytes, read up to bit 60. -/
def nineBytes : State := reading [0x00, 0x00, 0x00, 0xC0, 0xFF, 0xFF, 0xFF, 0xBF, 0x5A] 60

/-- `nearlyFull` with a reader attached to one byte at `base`. -/
def nearlyFullBeside (base : Word) : State := refill { nearlyFull with rBase := base, rCap := 1 }

theorem inv_reset_arg : Inv { State.reset with arg := 0x1000 } :=
  inv_of (packerInv_of (by decide)) (readerInv_of (by decide) (by decide)) (by decide) (by decide)
theorem inv_packing_2 : Inv (packing 2) :=
  inv_of (packerInv_of (by decide)) (readerInv_of (by decide) (by decide)) (by decide) (by decide)
theorem inv_sharing_8 : Inv (sharing 8) :=
  inv_of (packerInv_of (by decide)) (readerInv_of (by decide) (by decide)) (by decide) (by decide)
theorem readerInv_nineBytes : ReaderInv nineBytes := readerInv_of (by decide) (by decide)
theorem packerInv_nearlyFull : PackerInv nearlyFull := packerInv_of (by decide)

theorem witness_EncodeOfDecodeIsIdentity : decode 0x0000000000003F12 = .ok (.putValue 63) := by decide

/-- For each row of R74 a word that meets its mask and one that does not. -/
theorem witness_OpcodeRowsSelectOrFault :
    State.reset.fault = false ∧
    ([ (0x10, 0x00000000FFFFFFFF), (0x11, 0x00000000FFFFFFFF), (0x12, 0xFFFFFFFFFFFFC0FF),
        (0x13, 0xFFFFFFFFFFFF00FF), (0x14, 0x00000000FFFFFFFF), (0x15, 0xFFFFFFFFFFFEFFFF),
        (0x16, 0xFFFFFFFFFFFFFFFF), (0x17, 0xFFFFFFFFFFFFFFFF), (0x18, 0xFFFFFFFFFFFFFFFF),
        (0x20, 0x00000000FFFFFFFF), (0x21, 0xFFFFFFFFFFFF00FF), (0x22, 0x00000000FFFF00FF),
        (0x23, 0xFFFFFFFFFFFF00FF), (0x24, 0xFFFFFFFFFFFFFFFF), (0x25, 0xFFFFFFFFFFFFFFFF),
        (0x26, 0xFFFFFFFFFFFFFFFF) ] : List (Word × Word)).all (fun p =>
      p.1 &&& p.2 == p.1 && (p.1 ||| 0x20000) &&& p.2 != p.1 &&
      (p.1 ||| 0x20000).extractLsb' 0 8 == p.1.extractLsb' 0 8) = true := by decide

theorem witness_UnassignedOpcodesFault :
    State.reset.fault = false ∧
    ((0x0F : Word).extractLsb' 0 8).toNat ≤ 0x0F ∧
    (0x19 ≤ ((0x19 : Word).extractLsb' 0 8).toNat ∧ ((0x1F : Word).extractLsb' 0 8).toNat ≤ 0x1F) ∧
    0x27 ≤ ((0x27 : Word).extractLsb' 0 8).toNat ∧ 0x27 ≤ ((0xFF : Word).extractLsb' 0 8).toNat := by decide

theorem witness_InadmissibleWidthsFault :
    State.reset.fault = false ∧ 32 < (33 : BitVec 6).toNat ∧ ((0 : BitVec 6).toNat = 0 ∨ ElemSize.b.sizeOf < 0) ∧
    ElemSize.h.sizeOf < (3 : BitVec 6).toNat ∧ (3 : BitVec 6).toNat ≠ 0 := by decide

theorem witness_WidthFaultExactlyWhenIllFormed :
    State.reset.fault = false ∧ (∃ t, exec (.putValue 33) State.reset = .next t ∧ t.fault = true) ∧
    ∃ t, exec (.putValue 32) State.reset = .next t ∧ t.fault = false :=
  ⟨rfl, ⟨_, next_stateOf State.reset (by decide), by decide⟩, _, next_stateOf State.reset (by decide), by decide⟩

theorem witness_StepRunsTheDecodedCommand :
    (withAction State.reset (.writeReg .cmd 0x312)).hostActions = .writeReg .cmd 0x312 :: [] ∧
    (withAction State.reset (.writeReg .cmd 0x312)).fault = false ∧ decode 0x312 = .ok (.putValue 3) := by decide

/-- One action of each kind (each value of `CTRL`'s two bits); the memory accesses end at the top of the address space or pass
it by one, and lie next to the unread region. -/
theorem witness_HostActionsTakeEffect :
    State.reset.hostActions = [] ∧ (∀ a, (withAction State.reset a).hostActions = a :: []) ∧
    (2 : Word).getLsbD 1 = true ∧ ((1 : Word).getLsbD 1 = false ∧ (1 : Word).getLsbD 0 = true) ∧
    (4 : Word).getLsbD 0 = false ∧ (HostReg.res ≠ .arg ∧ HostReg.res ≠ .cmd ∧ HostReg.res ≠ .ctrl) ∧
    2 ^ 64 < (0xFFFFFFFFFFFFFFFF : Word).toNat + 2 ∧ (0xFFFFFFFFFFFFFFFF : Word).toNat + 1 ≤ 2 ^ 64 ∧
    (withAction (reading [0xAA, 0xBB] 8) (.writeMem 0x100 [0x11])).hostActions = .writeMem 0x100 [0x11] :: [] ∧
    (withAction (reading [0xAA, 0xBB] 8) (.writeMem 0x100 [0x11])).mem.wf ∧
    ¬ hitsUnread (withAction (reading [0xAA, 0xBB] 8) (.writeMem 0x100 [0x11])) (0x100 : Word).toNat 1 :=
  ⟨rfl, fun _ => rfl, by decide, by decide, by decide, by decide, by decide, by decide, rfl, by decide, clear (by decide)⟩

theorem witness_HostWriteOfUnreadRegionHasNoMove :
    (withAction (reading [0xAA, 0xBB] 8) (.writeMem 0x101 [0x11])).hostActions = .writeMem 0x101 [0x11] :: [] ∧
    (0x101 : Word).toNat + ([0x11] : List Byte).length ≤ 2 ^ 64 ∧
    hitsUnread (withAction (reading [0xAA, 0xBB] 8) (.writeMem 0x101 [0x11])) (0x101 : Word).toNat 1 :=
  ⟨rfl, by decide, hits (by decide)⟩

theorem witness_CommandsDroppedWhileFaulted :
    ∀ a ∈ ([.writeReg .cmd 0x18, .writeReg .arg 1, .writeReg .ctrl 1, .readReg .status] : List HostAction),
      (faultedWith a).fault = true ∧ (faultedWith a).hostActions = a :: [] := by decide

theorem witness_FaultsArePrecise :
    State.reset.fault = false ∧ ∃ t, issueCommand 0 State.reset = .next t ∧ t.fault = true :=
  ⟨rfl, _, next_stateOf State.reset (by decide), by decide⟩

theorem witness_FaultClearReturns :
    (1 : Word).getLsbD 0 = true ∧ (1 : Word).getLsbD 1 = false ∧
    (FaultRecordInv (packing 2) ∧ (packing 2).fault = false) ∧
    (faultedWith .hardwareReset).fault = true ∧ decode 0x18 = .ok .bytesWritten :=
  ⟨by decide, by decide, ⟨inv_packing_2.record, rfl⟩, rfl, by decide⟩

theorem witness_ControlRegisterWrites :
    (2 : Word).getLsbD 1 = true ∧ (3 : Word).getLsbD 1 = true ∧
    ((1 : Word).getLsbD 1 = false ∧ (1 : Word).getLsbD 0 = true) ∧
    ((4 : Word).getLsbD 1 = false ∧ (4 : Word).getLsbD 0 = false) ∧
    (5 : Word).extractLsb' 0 2 = (1 : Word).extractLsb' 0 2 := by decide

theorem witness_BothResetsClearTheBlock : (2 : Word).getLsbD 1 = true := by decide

theorem witness_ResetStateIsUnbound :
    (1 ≤ (1 : BitVec 6).toNat ∧ (1 : BitVec 6).toNat ≤ 32 ∧ (1 : Word).toNat < 2 ^ (1 : BitVec 6).toNat) ∧
    (1 ≤ (32 : BitVec 6).toNat ∧ (32 : BitVec 6).toNat ≤ 32 ∧ (0xFFFFFFFF : Word).toNat < 2 ^ (32 : BitVec 6).toNat) ∧
    1 ≤ (8 : BitVec 6).toNat ∧ (8 : BitVec 6).toNat ≤ ElemSize.d.sizeOf := by decide

theorem witness_FaultIsSticky :
    ∀ a ∈ ([.writeReg .ctrl 1, .writeReg .ctrl 2, .hardwareReset] : List HostAction),
      (faultedWith a).fault = true ∧
      answers (fun t => t.fault == false) (step (faultedWith a)) = true := by decide

theorem witness_ReservedOffsetsAndReadOnlyRegisters :
    (∀ off ∈ ([0x38, 0x68, 0x78, 0x98] : List Nat), off % 8 = 0 ∧ off < Config.windowBytes) ∧
    (0x3C : Nat) % 8 ≠ 0 ∧ (HostReg.status ≠ .arg ∧ HostReg.status ≠ .cmd ∧ HostReg.status ≠ .ctrl) := by
  refine ⟨fun off h => ?_, by decide, by decide⟩
  have hb : off % 8 = 0 ∧ off < 0xA0 := by revert off; decide
  exact ⟨hb.1, Nat.lt_of_lt_of_le hb.2 (Nat.le_add_right _ _)⟩

theorem witness_StatusWordFields :
    FaultRecordInv (packing 2) ∧ (readReg .status (packing 2)).getLsbD 1 = false :=
  ⟨inv_packing_2.record, by decide⟩

/-- A command that completes with `OK = 1`, one that fails, one that faults. -/
theorem witness_CompletedCommandsWriteOk :
    State.reset.fault = false ∧ neverFails .bytesWritten = true ∧
    (∃ t, exec .bytesWritten State.reset = .next t ∧ t.fault = false) ∧
    (∃ t, exec .putVlq State.reset = .next t ∧ t.fault = false ∧ t.ok = false) ∧
    ∃ t, exec (.putValue 33) State.reset = .next t ∧ t.fault = true :=
  ⟨rfl, rfl, ⟨_, next_stateOf State.reset (by decide), by decide⟩,
    ⟨_, next_stateOf State.reset (by decide), by decide, by decide⟩, _, next_stateOf State.reset (by decide), by decide⟩

theorem witness_ResWrittenByValueCommandsOnly :
    State.reset.fault = false ∧ (packing 2).fault = false ∧
    (producesValue (.flush true) = false ∧ ∃ t, exec (.flush true) (packing 2) = .next t) ∧
    (∃ t, exec (.getValue 33 .w) State.reset = .next t ∧ t.fault = true) ∧
    (producesValue (.getValue 1 .w) = true ∧
      ∃ t, exec (.getValue 1 .w) State.reset = .next t ∧ t.fault = false ∧ t.ok = false) :=
  ⟨rfl, rfl, ⟨rfl, _, next_stateOf State.reset (by decide)⟩, ⟨_, next_stateOf State.reset (by decide), by decide⟩,
    rfl, _, next_stateOf State.reset (by decide), by decide, by decide⟩

theorem witness_ArgIsNeverWrittenAndIgnoredWhenUnused :
    readsArg (.flush true) = false ∧ (packing 2).fault = false ∧ ∃ t, exec (.flush true) (packing 2) = .next t :=
  ⟨rfl, rfl, _, next_stateOf State.reset (by decide)⟩

theorem witness_UnitsAreIsolated :
    (isPackerCommand (.flush true) = true ∧ ∃ t, exec (.flush true) (packing 2) = .next t) ∧
    isPackerCommand (.getValue 8 .b) = false ∧ ∃ t, exec (.getValue 8 .b) nineBytes = .next t :=
  ⟨⟨rfl, _, next_stateOf State.reset (by decide)⟩, rfl, _, next_stateOf State.reset (by decide)⟩

/-- A flush that changes a byte. -/
theorem witness_CommandsWriteOnlyTheirRanges :
    Inv (packing 2) ∧ (packing 2).fault = false ∧
    ∃ t, exec (.flush true) (packing 2) = .next t ∧ t.mem.read 0x1000 ≠ (packing 2).mem.read 0x1000 :=
  ⟨inv_packing_2, rfl, _, next_stateOf State.reset (by decide), by decide⟩

theorem witness_FailedPackerCommandsAreAtomic :
    isPackerCommand (.putValue 33) = true ∧ isPackerCommand (.putAligned 2 .h) = true ∧ (packing 2).fault = false ∧
    (∃ t, exec (.putValue 33) (packing 2) = .next t ∧ t.fault = true) ∧
    ∃ t, exec (.putAligned 2 .h) (packing 2) = .next t ∧ t.fault = false ∧ t.ok = false :=
  ⟨rfl, rfl, rfl, ⟨_, next_stateOf State.reset (by decide), by decide⟩,
    _, next_stateOf State.reset (by decide), by decide, by decide⟩

theorem witness_FailedReadsKeepTheCursor :
    nineBytes.fault = false ∧
    (isPackerCommand (.getValue 13 .b) = false ∧
      ∃ t, exec (.getValue 13 .b) nineBytes = .next t ∧ t.fault = false ∧ t.ok = false) ∧
    ∃ t, exec (.getBatch 1 .b 1) nineBytes = .next t ∧ t.fault = false :=
  ⟨rfl, ⟨rfl, _, next_stateOf State.reset (by decide), by decide, by decide⟩, _, next_stateOf State.reset (by decide), by decide⟩

/-- A range that ends at `2^64`, one that passes it, one that leaves the admitted addresses by one. W_INIT, W_REBIND and
R_INIT have the same conditions. -/
theorem witness_WInitBindsTheBuffer :
    2 ^ 64 < (0xFFFFFFFFFFFFFFFF : Word).toNat + (2 : Count).toNat ∧
    ((0xFFFF : Word).toNat + (2 : Count).toNat ≤ 2 ^ 64 ∧
      ∃ a, (0xFFFF : Word).toNat ≤ a ∧ a < (0xFFFF : Word).toNat + (2 : Count).toNat ∧
        memAdmits (narrow 0xFFFF).admitted a = false) ∧
    (0xFFFFFFFFFFFFFFFF : Word).toNat + (1 : Count).toNat ≤ 2 ^ 64 ∧
    ∀ a, (0xFFFFFFFFFFFFFFFF : Word).toNat ≤ a → a < (0xFFFFFFFFFFFFFFFF : Word).toNat + (1 : Count).toNat →
      memAdmits State.reset.admitted a = true :=
  ⟨by decide, ⟨by decide, 0x10000, by decide, by decide, by decide⟩, by decide, allAdmitted (by decide)⟩

/-- A cursor at bit 12: one byte is too few, two are enough. -/
theorem witness_WRebindKeepsTheCursor :
    let s : State := { packing 4 with wAcc := 0xABC, wPending := 12, arg := 0x2000 }
    (s.arg.toNat + (2 : Count).toNat ≤ 2 ^ 64 ∧
      ∀ a, s.arg.toNat ≤ a → a < s.arg.toNat + (2 : Count).toNat → memAdmits s.admitted a = true) ∧
    8 * (1 : Count).toNat < 8 * s.wCommitted.toNat + s.wPending.toNat ∧
    8 * s.wCommitted.toNat + s.wPending.toNat ≤ 8 * (2 : Count).toNat ∧
    2 ^ 64 < (0xFFFFFFFFFFFFFFFF : Word).toNat + (2 : Count).toNat :=
  ⟨⟨by decide, allAdmitted (by decide)⟩, by decide, by decide, by decide⟩

/-- Width 33; value `2^nb`; the flag set; one bit too many and the last bit that fits; a sum of 63. -/
theorem witness_PutValueOutcomes_short :
    (PackerInv (packing 1) ∧ (packing 1).mem.wf) ∧
    32 < (33 : BitVec 6).toNat ∧
    2 ^ (32 : BitVec 6).toNat ≤ (0x100000000 : Word).toNat ∧ (0xFFFFFFFF : Word).toNat < 2 ^ (32 : BitVec 6).toNat ∧
    ({ packing 1 with wNaf := true }).wNaf = true ∧
    8 * (packing 1).wCap.toNat < 8 * (packing 1).wCommitted.toNat + (packing 1).wPending.toNat + (6 : BitVec 6).toNat ∧
    8 * (packing 1).wCommitted.toNat + (packing 1).wPending.toNat + (5 : BitVec 6).toNat ≤ 8 * (packing 1).wCap.toNat ∧
    nearlyFull.wPending.toNat + (3 : BitVec 6).toNat = 63 :=
  ⟨⟨packerInv_of (by decide), by decide⟩, by decide⟩

/-- A sum of 64, the reader's byte the last stored and the first not stored. -/
theorem witness_PutValueOutcomes_carry :
    (PackerInv (nearlyFullBeside 0x4007) ∧ (nearlyFullBeside 0x4007).mem.wf ∧ (nearlyFullBeside 0x4007).wNaf = false) ∧
    ((4 : BitVec 6).toNat ≤ 32 ∧ (nearlyFullBeside 0x4007).arg.toNat < 2 ^ (4 : BitVec 6).toNat) ∧
    8 * (nearlyFullBeside 0x4007).wCommitted.toNat + (nearlyFullBeside 0x4007).wPending.toNat + (4 : BitVec 6).toNat ≤
      8 * (nearlyFullBeside 0x4007).wCap.toNat ∧
    64 ≤ (nearlyFullBeside 0x4007).wPending.toNat + (4 : BitVec 6).toNat ∧
    hitsUnread (nearlyFullBeside 0x4007) 0x4000 8 ∧
    PackerInv (nearlyFullBeside 0x4008) ∧ ¬ hitsUnread (nearlyFullBeside 0x4008) 0x4000 8 :=
  ⟨⟨packerInv_of (by decide), by decide, by decide⟩, by decide, by decide, by decide, hits (by decide),
    packerInv_of (by decide), clear (by decide)⟩

theorem witness_PutValueAppendsItsBits :
    PackerInv { nearlyFull with arg := 0xAB } ∧ nearlyFull.mem.wf ∧ nearlyFull.fault = false ∧
    ∃ t, exec (.putValue 8) { nearlyFull with arg := 0xAB } = .next t ∧ t.fault = false ∧ t.ok = true :=
  ⟨packerInv_of (by decide), by decide, rfl, _, next_stateOf State.reset (by decide), by decide, by decide⟩

theorem witness_FlushStoresThePartialBytes :
    (PackerInv (sharing 0) ∧ (sharing 0).mem.wf ∧ hitsUnread (sharing 0) 0x1000 1) ∧
    PackerInv (sharing 8) ∧ (sharing 8).mem.wf ∧ ¬ hitsUnread (sharing 8) 0x1000 1 :=
  ⟨⟨packerInv_of (by decide), by decide, hits (by decide)⟩, packerInv_of (by decide), by decide, clear (by decide)⟩

theorem witness_NonAlignedFlushEndsBitPacking :
    PackerInv (packing 4) ∧ (packing 4).mem.wf ∧ (packing 4).fault = false ∧
    (∃ t, exec (.flush false) (packing 4) = .next t ∧ t.fault = false ∧
      ∃ u, exec (.wInit 0) t = .next u ∧ u.fault = false) ∧
    (32 : BitVec 6).toNat ≤ 32 ∧ (0xFFFFFFFF : Word).toNat < 2 ^ (32 : BitVec 6).toNat :=
  ⟨packerInv_of (by decide), by decide, rfl,
    ⟨_, next_stateOf State.reset (by decide), by decide, _, next_stateOf State.reset (by decide), by decide⟩, by decide⟩

/-- `n` of 1 and of `E`; the last byte that fits and one more; the reader's next byte inside and outside the range. -/
theorem witness_PutAlignedWritesItsField :
    (1 ≤ (1 : BitVec 6).toNat ∧ (1 : BitVec 6).toNat ≤ ElemSize.b.sizeOf) ∧
    (2 : BitVec 6).toNat ≤ ElemSize.h.sizeOf ∧
    (PackerInv (packing 2) ∧ (packing 2).wCap.toNat = 0 + 1 + (1 : BitVec 6).toNat ∧
      (packing 2).wCap.toNat < 0 + 1 + (2 : BitVec 6).toNat) ∧
    (PackerInv (sharing 8) ∧ hitsUnread (sharing 8) 0x1000 (1 + (1 : BitVec 6).toNat)) ∧
    PackerInv (sharing 16) ∧ (sharing 16).mem.wf ∧ ¬ hitsUnread (sharing 16) 0x1000 (1 + (1 : BitVec 6).toNat) :=
  ⟨by decide, by decide, ⟨inv_packing_2.packer, by decide, by decide⟩, ⟨inv_sharing_8.packer, hits (by decide)⟩,
    packerInv_of (by decide), by decide, clear (by decide)⟩

/-- The last reservation that fits and one byte more; both sides of the alias check; a reservation of no bytes at the very top
of memory. -/
theorem witness_GetNextBytePtrReserves :
    (PackerInv (packing 2) ∧ (packing 2).mem.wf ∧ (packing 2).wCap.toNat = 0 + 1 + (1 : Count).toNat ∧
      (packing 2).wCap.toNat < 0 + 1 + (2 : Count).toNat) ∧
    hitsUnread (sharing 0) 0x1000 1 ∧ ¬ hitsUnread (sharing 8) 0x1000 1 ∧ 0x1000 + 1 < 2 ^ 64 ∧
    PackerInv atTop ∧ atTop.mem.wf ∧ 0 + 1 + (0 : Count).toNat ≤ atTop.wCap.toNat ∧
    ¬ hitsUnread atTop atTop.wBase.toNat 1 ∧ ¬ atTop.wBase.toNat + 1 < 2 ^ 64 :=
  ⟨⟨inv_packing_2.packer, by decide, by decide, by decide⟩, hits (by decide), clear (by decide), by decide,
    packerInv_of (by decide), by decide, by decide, clear (by decide), by decide⟩

/-- `ARG = 63`: one byte as it is, one as zigzag code 126; one byte more than the buffer holds; both sides of the alias check. -/
theorem witness_PutVarintsAppendTheirBytes :
    (vlqEncode 63).length = 1 ∧ (vlqEncode (zigZagEncode 63)).length = 1 ∧ (vlqEncode (zigZagEncode 64)).length = 2 ∧
    (PackerInv { packing 2 with arg := 64 } ∧ (packing 2).mem.wf ∧ (packing 2).wCap.toNat = 0 + 1 + 1 ∧
      (packing 2).wCap.toNat < 0 + 1 + 2) ∧
    (PackerInv (sharing 8) ∧ hitsUnread (sharing 8) 0x1000 (1 + (vlqEncode (argLow32 (sharing 8))).length)) ∧
    PackerInv (sharing 16) ∧ ¬ hitsUnread (sharing 16) 0x1000 (1 + (vlqEncode (argLow32 (sharing 16))).length) :=
  ⟨by decide, by decide, by decide, ⟨packerInv_of (by decide), by decide, by decide, by decide⟩,
    ⟨inv_sharing_8.packer, hits (by decide)⟩, packerInv_of (by decide), clear (by decide)⟩

theorem witness_BytesWrittenCountsTheOutput : PackerInv (packing 1) := packerInv_of (by decide)

/-- The buffer of one byte filled by widths 5 and 3. -/
def oneByte : List (BitVec 6 × Word) := [(5, 31), (3, 7)]

theorem witness_CapacityBoundary :
    Inv { State.reset with arg := 0x1000 } ∧
    (∃ b, exec (.wInit 1) { State.reset with arg := 0x1000 } = .next b ∧ b.fault = false) ∧
    totalWidth oneByte = 8 * (1 : Count).toNat ∧ (∀ p ∈ oneByte, p.1.toNat ≤ 32 ∧ p.2.toNat < 2 ^ p.1.toNat) ∧
    ¬ hitsUnread { State.reset with arg := 0x1000 } 0x1000 1 ∧
    1 ≤ (1 : BitVec 6).toNat ∧ (1 : Word).toNat < 2 ^ (1 : BitVec 6).toNat :=
  ⟨inv_reset_arg, ⟨_, next_stateOf State.reset (by decide), by decide⟩, by decide,
    List.forall_iff_forall_mem.mp (by decide), clear (by decide), by decide, by decide⟩

/-- Two values of five bits packed at 0x1000 in two bytes, flushed, and a reader attached to them. -/
def tripBound : State := stateOf State.reset (exec (.wInit 2) { State.reset with arg := 0x1000 })
def tripPacked : State := (putAll [(5, 29), (5, 16)] tripBound).getD State.reset
def tripFlushed : State := stateOf State.reset (exec (.flush true) tripPacked)
def tripRead : State := stateOf State.reset (exec (.rInit 2) { tripFlushed with arg := 0x1000 })

theorem witness_OutputContent :
    Inv { State.reset with arg := 0x1000 } ∧ ({ State.reset with arg := 0x1000 }).fault = false ∧
    exec (.wInit 2) { State.reset with arg := 0x1000 } = .next tripBound ∧ tripBound.fault = false ∧
    putAll [(5, 29), (5, 16)] tripBound = some tripPacked ∧
    exec (.flush true) tripPacked = .next tripFlushed ∧ tripFlushed.fault = false :=
  ⟨inv_reset_arg, rfl, next_stateOf State.reset (by decide), by decide, some_getD State.reset (by decide),
    next_stateOf State.reset (by decide), by decide⟩

theorem witness_RoundTrip :
    (Inv { State.reset with arg := 0x1000 } ∧ exec (.wInit 2) { State.reset with arg := 0x1000 } = .next tripBound ∧
      tripBound.fault = false ∧ putAll (([29, 16] : List Word).map fun v => ((5 : BitVec 6), v)) tripBound = some tripPacked ∧
      exec (.flush true) tripPacked = .next tripFlushed ∧ tripFlushed.fault = false) ∧
    1 ≤ (5 : BitVec 6).toNat ∧ (5 : BitVec 6).toNat ≤ 32 ∧ ((5 : BitVec 6).toNat + 7) / 8 ≤ ElemSize.b.sizeOf ∧
    (([29, 16] : List Word).length * (5 : BitVec 6).toNat + 7) / 8 ≤ (2 : Count).toNat ∧
    exec (.rInit 2) { tripFlushed with arg := 0x1000 } = .next tripRead ∧ tripRead.fault = false ∧
    ∃ z, exec (.getBatch 5 .b 2) { tripRead with arg := 0x2000 } = .next z ∧ z.fault = false :=
  ⟨⟨inv_reset_arg, next_stateOf State.reset (by decide), by decide, some_getD State.reset (by decide),
      next_stateOf State.reset (by decide), by decide⟩,
    by decide, by decide, by decide, by decide, next_stateOf State.reset (by decide), by decide,
    _, next_stateOf State.reset (by decide), by decide⟩

theorem witness_RInitAttachesTheBuffer :
    2 ^ 64 < (0xFFFFFFFFFFFFFFFF : Word).toNat + (2 : Count).toNat ∧
    ((0xFFFF : Word).toNat + (2 : Count).toNat ≤ 2 ^ 64 ∧
      ∃ a, (0xFFFF : Word).toNat ≤ a ∧ a < (0xFFFF : Word).toNat + (2 : Count).toNat ∧
        memAdmits (narrow 0xFFFF).admitted a = false) ∧
    (0xFFFF : Word).toNat + (1 : Count).toNat ≤ 2 ^ 64 ∧
    ∀ a, (0xFFFF : Word).toNat ≤ a → a < (0xFFFF : Word).toNat + (1 : Count).toNat →
      memAdmits (narrow 0xFFFF).admitted a = true :=
  ⟨by decide, ⟨by decide, 0x10000, by decide, by decide, by decide⟩, by decide, allAdmitted (by decide)⟩

/-- No bits, the last bits of the buffer, and a value across the window's end. -/
theorem witness_ScalarGetReadsTheStream :
    ReaderInv nineBytes ∧ ∀ nb ∈ ([0, 4, 5, 12] : List Nat), nb ≤ 32 ∧ rPos nineBytes + nb ≤ 8 * nineBytes.rCap.toNat :=
  ⟨readerInv_nineBytes, by decide⟩

theorem witness_GetValueReadsTheStream :
    ReaderInv nineBytes ∧ 8 * nineBytes.rCap.toNat < rPos nineBytes + (13 : BitVec 6).toNat ∧
    rPos nineBytes + (12 : BitVec 6).toNat ≤ 8 * nineBytes.rCap.toNat :=
  ⟨readerInv_nineBytes, by decide, by decide⟩

/-- Eight elements of two bits in the first byte, clamped from nine, written to the last bytes of the address space. -/
theorem witness_GetBatchDeliversItsElements :
    let s : State := { reading [0xAA, 0xBB] 0 with arg := 0xFFFFFFFFFFFFFFF8 }
    Inv s ∧ (2 : BitVec 6).toNat ≤ 32 ∧
    min (9 : Count).toNat ((8 * s.rCap.toNat - rPos s) / (2 : BitVec 6).toNat) = 8 ∧ s.arg.toNat + 8 * 1 ≤ 2 ^ 64 ∧
    (∀ a, s.arg.toNat ≤ a → a < s.arg.toNat + 8 * 1 → memAdmits s.admitted a = true) ∧
    ¬ hitsUnread s s.arg.toNat (8 * 1) :=
  ⟨inv_of (packerInv_of (by decide)) (readerInv_of (by decide) (by decide)) (by decide) (by decide), by decide, by decide,
    by decide, allAdmitted (by decide), clear (by decide)⟩

/-- Eight elements of no bits, and eight of two bits clamped from nine: past the address space, past the admitted addresses
by one, and from the second byte of the unread region on. -/
theorem witness_GetBatchFaultsOnItsOutput :
    ((0 : BitVec 6).toNat = 0 ∧ (2 : BitVec 6).toNat ≤ 32 ∧
      min (9 : Count).toNat ((8 * (reading [0xAA, 0xBB] 0).rCap.toNat - rPos (reading [0xAA, 0xBB] 0)) / 2) = 8) ∧
    2 ^ 64 < (0xFFFFFFFFFFFFFFF9 : Word).toNat + (8 : Count).toNat * ElemSize.b.sizeOf ∧
    ((0xFFF9 : Word).toNat + 8 * ElemSize.b.sizeOf ≤ 2 ^ 64 ∧
      ∃ a, (0xFFF9 : Word).toNat ≤ a ∧ a < (0xFFF9 : Word).toNat + 8 * ElemSize.b.sizeOf ∧
        memAdmits (narrow 0xFFF9).admitted a = false) ∧
    (∀ a, 0x101 ≤ a → a < 0x101 + 8 → memAdmits (reading [0xAA, 0xBB] 0).admitted a = true) ∧
    hitsUnread (reading [0xAA, 0xBB] 0) 0x101 8 :=
  ⟨by decide, by decide, ⟨by decide, 0x10000, by decide, by decide, by decide⟩, allAdmitted (by decide), hits (by decide)⟩

/-- A head of one value, and no values at all. -/
theorem witness_BatchPhasesMatchTheArchitecture :
    Inv (reading [0xAA, 0xBB] 3) ∧ 8 ∈ [1, 2, 4, 8] ∧ rPos (reading [0xAA, 0xBB] 3) + 2 * 5 ≤ 8 * (2 : Count).toNat ∧
    rPos (reading [0xAA, 0xBB] 3) + 0 * 32 ≤ 8 * (2 : Count).toNat ∧ 0x102 + 2 * 8 ≤ 2 ^ 64 ∧
    ¬ hitsUnread (reading [0xAA, 0xBB] 3) 0x102 (2 * 8) :=
  ⟨inv_of (packerInv_of (by decide)) (readerInv_of (by decide) (by decide)) (by decide) (by decide), by decide, by decide,
    by decide, by decide, clear (by decide)⟩

/-- The last bytes of the buffer, and one byte more. -/
theorem witness_GetAlignedReadsWholeBytes :
    let s := reading [0x1D, 0x0E, 0x11, 0x22, 0x33] 3
    ReaderInv s ∧ (1 ≤ (4 : BitVec 6).toNat ∧ (4 : BitVec 6).toNat ≤ ElemSize.w.sizeOf) ∧
    (rPos s + 7) / 8 + (4 : BitVec 6).toNat ≤ s.rCap.toNat ∧
    (5 : BitVec 6).toNat ≤ ElemSize.d.sizeOf ∧ s.rCap.toNat < (rPos s + 7) / 8 + (5 : BitVec 6).toNat :=
  ⟨readerInv_of (by decide) (by decide), by decide, by decide, by decide, by decide⟩

theorem witness_BytesLeftExcludesThePartialByte : State.reset.rCap = 0 := by decide

/-- A varint that ends with the buffer, and one the buffer cuts short. -/
theorem witness_GetVarintsDecodeTheirBytes :
    (ReaderInv (reading [0x80, 0x01] 0) ∧ vlqDecode (reading [0x80, 0x01] 0).mem 0x100 0 2 = some (128, 2)) ∧
    ReaderInv (reading [0x80] 0) ∧ vlqDecode (reading [0x80] 0).mem 0x100 0 1 = none :=
  ⟨⟨readerInv_of (by decide) (by decide), by decide⟩, readerInv_of (by decide) (by decide), by decide⟩

/-- V-VQ-1: the values on both sides of each length, with the length the rule gives. -/
theorem witness_VarintLengths :
    ∀ p ∈ ([ (0, 1), (127, 1), (128, 2), (16383, 2), (16384, 3), (2097151, 3), (2097152, 4), (268435455, 4),
        (268435456, 5), (0xFFFFFFFF, 5) ] : List (BitVec 32 × Nat)),
      (if p.1.toNat < 2 ^ 7 then 1 else if p.1.toNat < 2 ^ 14 then 2 else if p.1.toNat < 2 ^ 21 then 3
        else if p.1.toNat < 2 ^ 28 then 4 else 5) = p.2 ∧ vlqLen p.1 = p.2 := by decide

/-- One byte, five bytes with the last clear, five with the last set, and a buffer that ends first. -/
theorem witness_VarintDecoding :
    (0 < 1 ∧ (Memory.read [(0x100, 0x05)] (0x100 + 0 + 0)).getLsbD 7 = false) ∧
    ((∀ j < 4, (Memory.read (Memory.writeBytes [] 0x100 [0xFF, 0xFF, 0xFF, 0xFF, 0x0F]) (0x100 + 0 + j)).getLsbD 7 = true) ∧
      (Memory.read (Memory.writeBytes [] 0x100 [0xFF, 0xFF, 0xFF, 0xFF, 0x0F]) (0x100 + 0 + 4)).getLsbD 7 = false) ∧
    ((∀ j < 4, (Memory.read (Memory.writeBytes [] 0x100 [0x80, 0x80, 0x80, 0x80, 0x80]) (0x100 + 0 + j)).getLsbD 7 = true) ∧
      (Memory.read (Memory.writeBytes [] 0x100 [0x80, 0x80, 0x80, 0x80, 0x80]) (0x100 + 0 + 4)).getLsbD 7 = true) ∧
    0 + 4 < 5 ∧ 4 ≤ 0 + 4 := by decide

theorem witness_CodecLaws :
    holdsBytes (Memory.writeBytes [] 0x100 (vlqEncode 128)) (0x100 + 0) (vlqEncode 128) ∧ 0 + vlqLen 128 ≤ 2 ∧
    (127 : BitVec 32) &&& 0xFFFFFF80 = 0 ∧ (128 : BitVec 32) &&& 0xFFFFFF80 ≠ 0 ∧ 4 < (vlqEncode 0xFFFFFFFE).length :=
  ⟨Memory.holdsBytes_writeBytes (by decide) _ _, by decide, by decide, by decide, by decide⟩

/-- The state of V-AL-2 before its flush. -/
def consumedByte : State := withAction (sharing 8) (.writeReg .cmd 0x0000000000010015)

theorem inv_consumedByte : Inv consumedByte :=
  inv_of (packerInv_of (by decide)) (readerInv_of (by decide) (by decide)) (by decide) (by decide)

theorem witness_EveryStepKeepsInv : Inv consumedByte ∧ ∃ t, step consumedByte = .next t ∧ t.ok = true :=
  ⟨inv_consumedByte, _, next_stateOf State.reset (by decide), by decide⟩

theorem witness_PackerInvariantsAfterEveryCommand :
    (8 * nearlyFull.wCommitted.toNat + nearlyFull.wPending.toNat ≤ 8 * nearlyFull.wCap.toNat ∧
      nearlyFull.wPending.toNat ≤ 63 ∧ nearlyFull.wAcc.toNat < 2 ^ nearlyFull.wPending.toNat) ∧
    ∃ t, issueCommand 0x0000000000000412 nearlyFull = .next t :=
  ⟨by decide, _, next_stateOf State.reset (by decide)⟩

theorem witness_WindowEquationKeptForAllEightBytes :
    windowExact consumedByte ∧ ∃ t, step consumedByte = .next t :=
  ⟨by decide, _, next_stateOf State.reset (by decide)⟩

theorem witness_UnpackerInvariantsAfterEveryCommand :
    (8 * nineBytes.rConsumed.toNat + nineBytes.rPending.toNat ≤ 8 * nineBytes.rCap.toNat ∧
      nineBytes.rConsumed.toNat ≤ nineBytes.rCap.toNat ∧ nineBytes.rPending.toNat ≤ 63 ∧ windowExact nineBytes) ∧
    ∃ t, issueCommand 0x0000000000000C21 nineBytes = .next t ∧ t.ok = true :=
  ⟨by decide, _, next_stateOf State.reset (by decide), by decide⟩

end Sys2Proof.Tests
end

section
/-! SUPPORT. How a command ends, said once: a fault, a failure, or a success that changes only what its unit owns and the
data memory (spec/00_scope.md R2, R11, R17). -/

namespace Sys2Proof.Machine

/-! What a successful command of the packer changes. -/

/-- `u` differs from `s` in the packer's registers, memory, the window and the count of free values alone. -/
def PackerFrame (s u : State) : Prop :=
  u = { s with
    wBase := u.wBase, wCap := u.wCap, wAcc := u.wAcc, wCommitted := u.wCommitted, wPending := u.wPending
    wNaf := u.wNaf, mem := u.mem, rWindow := u.rWindow, freeCount := u.freeCount }

/-- What a packer command may do to the state: the packer's own changes, and a window that is kept or refilled (R36). -/
structure PackerWork (s u : State) : Prop where
  frame : PackerFrame s u
  window : u.rWindow = s.rWindow ∨ windowExact u

theorem PackerWork.refl (s : State) : PackerWork s s := ⟨rfl, .inl rfl⟩

/-- The packer's changes and the refill after a store are a packer command's work. -/
theorem PackerFrame.refill_work {s u : State} (h : PackerFrame s u) : PackerWork s (refill u) := by
  refine ⟨?_, .inr (refill_windowExact u)⟩
  unfold PackerFrame at *
  rw [h]
  simp only [refill]

theorem packerFrame_packCarry (nb : Nat) (s : State) : PackerFrame s (packCarry nb s) := by
  simp only [PackerFrame, packCarry]

theorem packerFrame_appendAligned (bytes : List Byte) (s : State) : PackerFrame s (appendAligned bytes s) := rfl

theorem packerWork_packShort (nb : Nat) (s : State) : PackerWork s (packShort nb s) := ⟨rfl, .inl rfl⟩

/-! What a successful command of the unpacker changes. -/

/-- `u` differs from `s` in the read cursor, the window, the conversion buffer and memory alone. -/
def ReadFrame (s u : State) : Prop :=
  u = { s with
    rConsumed := u.rConsumed, rPending := u.rPending, rWindow := u.rWindow, convBuf := u.convBuf, mem := u.mem }

theorem ReadFrame.refl (s : State) : ReadFrame s s := rfl

theorem ReadFrame.trans {s t u : State} (hst : ReadFrame s t) (htu : ReadFrame t u) : ReadFrame s u := by
  unfold ReadFrame at *
  rw [htu, hst]

theorem readFrame_refill (s : State) : ReadFrame s (refill s) := by
  simp only [ReadFrame, refill]

theorem readFrame_seekByte (off : Nat) (s : State) : ReadFrame s (seekByte off s) := by
  simp only [ReadFrame, seekByte, refill]

theorem readFrame_scalarAdvance (nb : Nat) (s : State) : ReadFrame s (scalarAdvance nb s) := by
  unfold ReadFrame
  rw [scalarAdvance_unchanged]

theorem readFrame_scalarStep (nb E out i : Nat) (s : State) : ReadFrame s (scalarStep nb E out i s) :=
  (readFrame_scalarAdvance nb s).trans rfl

theorem readFrame_headPhase (nb E out k i : Nat) (s : State) : ReadFrame s (headPhase nb E out k i s).2 := by
  induction k generalizing i s with
  | zero => exact .refl s
  | succ k ih =>
    unfold headPhase
    split
    · exact .refl s
    · exact (readFrame_scalarStep nb E out i s).trans (ih _ _)

theorem readFrame_bulkStep (nb E out i left : Nat) (s : State) : ReadFrame s (bulkStep nb E out i left s).2 := by
  unfold bulkStep
  split <;> rfl

theorem readFrame_bulkPhase (nb E out count k i : Nat) (s : State) :
    ReadFrame s (bulkPhase nb E out count k i s).2 := by
  induction k generalizing i s with
  | zero => exact .refl s
  | succ k ih =>
    have hstep := readFrame_bulkStep nb E out i (count - i) s
    unfold bulkPhase
    split
    · exact .refl s
    · split
      next => exact .refl s
      next hbulk => exact (hbulk ▸ hstep).trans (ih _ _)

theorem readFrame_tailPhase (nb E out k i : Nat) (s : State) : ReadFrame s (tailPhase nb E out k i s) := by
  induction k generalizing i s with
  | zero => exact .refl s
  | succ k ih => exact (readFrame_scalarStep nb E out i s).trans (ih _ _)

/-- The five phases of GET_BATCH move the read cursor and write memory, and touch no other register. -/
theorem readFrame_batchPhases (nb E out count : Nat) (s : State) : ReadFrame s (batchPhases nb E out count s) := by
  refine .trans ?_ (readFrame_refill _)
  refine .trans ?_ (readFrame_tailPhase nb E out _ _ _)
  refine .trans ?_ (readFrame_refill _)
  refine .trans ?_ (readFrame_bulkPhase nb E out count count _ _)
  exact readFrame_headPhase nb E out count 0 s

/-- What an unpacker command may do to the state: rebind the buffer and change what `ReadFrame` admits. -/
def UnpackerWork (s u : State) : Prop := ReadFrame { s with rBase := u.rBase, rCap := u.rCap } u

theorem ReadFrame.unpackerWork {s u : State} (h : ReadFrame s u) : UnpackerWork s u := by
  unfold UnpackerWork ReadFrame at *
  rw [h]

/-! How each command ends. -/

/-- What a command of either unit may do to the state before it sets the status registers. -/
def UnitWork (i : Instr) (s u : State) : Prop :=
  match isPackerCommand i with
  | true => PackerWork s u
  | false => UnpackerWork s u

theorem unitWork_of_packer {i : Instr} {s u : State} (h : isPackerCommand i = true) :
    UnitWork i s u ↔ PackerWork s u := by
  simp only [UnitWork, h]

theorem unitWork_of_unpacker {i : Instr} {s u : State} (h : isPackerCommand i = false) :
    UnitWork i s u ↔ UnpackerWork s u := by
  simp only [UnitWork, h]

theorem UnitWork.refl (i : Instr) (s : State) : UnitWork i s s := by
  cases h : isPackerCommand i with
  | true => exact (unitWork_of_packer h).mpr (.refl s)
  | false => exact (unitWork_of_unpacker h).mpr (ReadFrame.refl s).unpackerWork

/-- How command `i` ends from `s` (R11, R23, R26, R214): a fault, a failure, or a success after its unit's work. -/
inductive Ends (i : Instr) (s : State) : Outcome → Prop where
  | faults (c : FaultCause) : Ends i s (.next (faultEntry c (encode i) s))
  | fails : producesValue i = false → neverFails i = false → Ends i s (.next { s with ok := false })
  | failsWithZero : producesValue i = true → neverFails i = false → Ends i s (.next { s with ok := false, res := 0 })
  | succeeds {u : State} : producesValue i = false → UnitWork i s u → Ends i s (.next { u with ok := true })
  | succeedsWith {u : State} (v : Word) :
      producesValue i = true → UnitWork i s u → Ends i s (.next { u with ok := true, res := v })

theorem execWInit_ends (cap : Count) (s : State) : Ends (.wInit cap) s (execWInit cap s) := by
  unfold execWInit
  split
  · exact .faults _
  · exact .succeeds rfl (PackerWork.mk rfl (.inl rfl))

theorem execWRebind_ends (cap : Count) (s : State) : Ends (.wRebind cap) s (execWRebind cap s) := by
  unfold execWRebind
  split
  · exact .faults _
  split
  · exact .fails rfl rfl
  · exact .succeeds rfl (PackerWork.mk rfl (.inl rfl))

theorem execPutValue_ends (n : BitVec 6) (s : State) : Ends (.putValue n) s (execPutValue n s) := by
  unfold execPutValue
  dsimp only
  split
  · exact .faults _
  split
  · exact .faults _
  split
  · exact .faults _
  split
  · exact .fails rfl rfl
  split
  · split
    · exact .faults _
    · exact .succeeds rfl (packerFrame_packCarry _ s).refill_work
  · exact .succeeds rfl (packerWork_packShort _ s)

theorem execFlush_ends (al : Bool) (s : State) : Ends (.flush al) s (execFlush al s) := by
  unfold execFlush
  split
  · exact .faults _
  split
  · exact .succeeds rfl (PackerFrame.refill_work rfl)
  · exact .succeeds rfl (PackerFrame.refill_work rfl)

/-- Appending a byte-aligned field ends a packer command that has no value and may fail. -/
theorem putBytes_ends {i : Instr} (hpacker : isPackerCommand i = true) (hvalue : producesValue i = false)
    (hfail : neverFails i = false) (bytes : List Byte) (s : State) : Ends i s (putBytes i bytes s) := by
  obtain ⟨-, h⟩ | ⟨-, -, h⟩ | ⟨-, -, h⟩ := putBytes_cases i bytes s <;> rw [h]
  · exact .fails hvalue hfail
  · exact .faults _
  · exact .succeeds hvalue ((unitWork_of_packer hpacker).mpr (packerFrame_appendAligned bytes s).refill_work)

theorem execPutAligned_ends (n : BitVec 6) (esz : ElemSize) (s : State) :
    Ends (.putAligned n esz) s (execPutAligned n esz s) := by
  unfold execPutAligned
  split
  · exact .faults _
  · exact putBytes_ends rfl rfl rfl _ s

theorem execGetNextBytePtr_ends (count : Count) (s : State) :
    Ends (.getNextBytePtr count) s (execGetNextBytePtr count s) := by
  unfold execGetNextBytePtr
  split
  · exact .failsWithZero rfl rfl
  split
  · exact .faults _
  · exact .succeedsWith _ rfl (PackerFrame.refill_work rfl)

theorem execRInit_ends (cap : Count) (s : State) : Ends (.rInit cap) s (execRInit cap s) := by
  unfold execRInit
  split
  · exact .faults _
  · exact .succeeds rfl (show UnpackerWork s _ from rfl)

theorem execGetValue_ends (n : BitVec 6) (esz : ElemSize) (s : State) :
    Ends (.getValue n esz) s (execGetValue n esz s) := by
  unfold execGetValue
  split
  · exact .faults _
  split
  · exact .failsWithZero rfl rfl
  · exact .succeedsWith _ rfl (readFrame_scalarAdvance _ s).unpackerWork

theorem execGetBatch_ends (n : BitVec 6) (esz : ElemSize) (batch : Count) (s : State) :
    Ends (.getBatch n esz batch) s (execGetBatch n esz batch s) := by
  unfold execGetBatch
  dsimp only
  split
  · exact .faults _
  split
  · exact .faults _
  split
  · exact .faults _
  · exact .succeedsWith _ rfl (readFrame_batchPhases _ _ _ _ s).unpackerWork

theorem execGetAligned_ends (n : BitVec 6) (esz : ElemSize) (s : State) :
    Ends (.getAligned n esz) s (execGetAligned n esz s) := by
  unfold execGetAligned
  split
  · exact .faults _
  split
  · exact .failsWithZero rfl rfl
  split
  · exact .failsWithZero rfl rfl
  · exact .succeedsWith _ rfl (readFrame_seekByte _ s).unpackerWork

/-- Reading a varint ends an unpacker command that has a value and may fail. -/
theorem getVarint_ends {i : Instr} (hunpacker : isPackerCommand i = false) (hvalue : producesValue i = true)
    (hfail : neverFails i = false) (result : BitVec 32 → Word) (s : State) : Ends i s (getVarint result s) := by
  obtain ⟨-, h⟩ | ⟨v, used, -, h⟩ := getVarint_cases result s <;> rw [h]
  · exact .failsWithZero hvalue hfail
  · exact .succeedsWith _ hvalue ((unitWork_of_unpacker hunpacker).mpr (readFrame_seekByte _ s).unpackerWork)

/-- The one fact about what any command can do: it ends in a next state, in one of the ways `Ends` names. -/
theorem exec_ends (i : Instr) (s : State) : Ends i s (exec i s) := by
  cases i with
  | wInit cap => exact execWInit_ends cap s
  | wRebind cap => exact execWRebind_ends cap s
  | putValue n => exact execPutValue_ends n s
  | putAligned n esz => exact execPutAligned_ends n esz s
  | getNextBytePtr count => exact execGetNextBytePtr_ends count s
  | flush al => exact execFlush_ends al s
  | putVlq => exact putBytes_ends rfl rfl rfl _ s
  | putZzvlq => exact putBytes_ends rfl rfl rfl _ s
  | bytesWritten => exact .succeedsWith _ rfl (UnitWork.refl _ s)
  | rInit cap => exact execRInit_ends cap s
  | getValue n esz => exact execGetValue_ends n esz s
  | getBatch n esz batch => exact execGetBatch_ends n esz batch s
  | getAligned n esz => exact execGetAligned_ends n esz s
  | getVlq => exact getVarint_ends rfl rfl rfl _ s
  | getZzvlq => exact getVarint_ends rfl rfl rfl _ s
  | bytesLeft => exact .succeedsWith _ rfl (UnitWork.refl _ s)

/-- Each way a command can end is a next state (R17). -/
theorem Ends.next {i : Instr} {s : State} {o : Outcome} (h : Ends i s o) : ∃ t, o = .next t := by
  cases h with
  | faults c => exact ⟨_, rfl⟩
  | fails => exact ⟨_, rfl⟩
  | failsWithZero => exact ⟨_, rfl⟩
  | succeeds => exact ⟨_, rfl⟩
  | succeedsWith v => exact ⟨_, rfl⟩

/-- `t` differs from `u` in the status registers alone: `RES`, `STATUS` and the fault record (R2). -/
def StatusFrame (u t : State) : Prop :=
  t = { u with ok := t.ok, res := t.res, fault := t.fault, fcause := t.fcause, fcmd := t.fcmd, farg := t.farg }

/-- However a command ends, it has done its unit's work, if any, and beyond that changed the status registers alone. -/
theorem Ends.work_and_status {i : Instr} {s t : State} (h : Ends i s (.next t)) :
    ∃ u, UnitWork i s u ∧ StatusFrame u t := by
  cases h with
  | faults c => exact ⟨s, .refl i s, rfl⟩
  | fails => exact ⟨s, .refl i s, rfl⟩
  | failsWithZero => exact ⟨s, .refl i s, rfl⟩
  | succeeds _ hwork => exact ⟨_, hwork, rfl⟩
  | succeedsWith v _ hwork => exact ⟨_, hwork, rfl⟩

end Sys2Proof.Machine
end

section
/-! The obligations of spec/00_scope.md: every command has a meaning, and the units share memory and status alone. -/

namespace Sys2Proof

open Sys2Proof.Machine

/-- Settles O22: each way a command can end is a next state. -/
theorem everyCommandAnswersNext : Obligations.EveryCommandAnswersNext := by
  intro i s
  exact (exec_ends i s).next

/-- Settles O26: a command does its own unit's work and sets the status registers, nothing else. -/
theorem unitsAreIsolated : Obligations.UnitsAreIsolated := by
  intro i s t h
  obtain ⟨u, hwork, hstatus⟩ := (h ▸ exec_ends i s : Ends i s (.next t)).work_and_status
  unfold StatusFrame at hstatus
  refine ⟨fun hpacker => ?_, fun hunpacker => ?_⟩
  · obtain ⟨hframe, hwindow⟩ := (unitWork_of_packer hpacker).mp hwork
    unfold PackerFrame at hframe
    rw [hstatus]
    exact ⟨by rw [hframe], hwindow⟩
  · have hframe := (unitWork_of_unpacker hunpacker).mp hwork
    unfold UnpackerWork ReadFrame at hframe
    rw [hstatus, hframe]

end Sys2Proof
end

section
/-! SUPPORT. How a command completes, with the checks it has passed; and one rule for what every write to `CMD` keeps.
`Ends` says which command may end in which way and what it may touch; `Answers` says what the work is and that its guards
held, which is what the invariants need. -/

namespace Sys2Proof.Machine

/-- The range check passes exactly where the range lies in the address space and is admitted (R51, R67). -/
theorem rangeFault_eq_none_iff (s : State) (base len : Nat) :
    rangeFault s base len = none ↔ base + len ≤ 2 ^ 64 ∧ admitsRange s.admitted base (base + len) = true := by
  rw [admitsRange_iff]
  obtain ⟨hpast, h⟩ | ⟨hin, ⟨a, hlo, hhi, ha⟩, h⟩ | ⟨hin, hall, h⟩ := rangeFault_cases s base len
  · simp only [h, reduceCtorEq, false_iff, not_and]
    omega
  · simp only [h, reduceCtorEq, false_iff, not_and]
    exact fun _ hadm => Bool.noConfusion ((hadm a hlo hhi).symm.trans ha)
  · exact iff_of_true h ⟨hin, hall⟩

/-- The values the clamp of GET_BATCH admits lie in the bits that are left (R147). -/
theorem batchCount_mul_le (nb batch : Nat) (s : State) : batchCount nb batch s * nb ≤ remBits s := by
  unfold batchCount
  split
  · simp [*]
  · exact (Nat.mul_le_mul_right nb (Nat.min_le_right _ _)).trans (Nat.div_mul_le_self _ _)

/-- A varint's bytes lie inside the buffer (R182). -/
theorem vlqDecodeFrom_used_le {m : Memory} {base a cap k i : Nat} {tmp v : BitVec 32} {used : Nat}
    (h : vlqDecodeFrom m base a cap k i tmp = some (v, used)) : a + used ≤ cap := by
  induction k generalizing i tmp with
  | zero => simp [vlqDecodeFrom] at h
  | succ k ih =>
    simp only [vlqDecodeFrom] at h
    split_ifs at h with hcap hlast
    · simp only [Option.some.injEq, Prod.mk.injEq] at h
      omega
    · exact ih h

/-- What a completed command of the packer has made of the state, the status registers apart, and the checks it has passed
(R104 to R110, R186). -/
inductive PackerDone (s : State) : State → Prop where
  | bind (cap : Count) : rangeFault s s.arg.toNat cap.toNat = none →
      PackerDone s { s with wBase := s.arg, wCap := cap, wAcc := 0, wCommitted := 0, wPending := 0, wNaf := false }
  | rebind (cap : Count) : rangeFault s s.arg.toNat cap.toNat = none → wpos s ≤ 8 * cap.toNat →
      PackerDone s { s with wBase := s.arg, wCap := cap }
  | short (nb : Nat) : s.arg.toNat < 2 ^ nb → wpos s + nb ≤ 8 * s.wCap.toNat → s.wPending.toNat + nb < 64 →
      PackerDone s (packShort nb s)
  | carry (nb : Nat) : nb ≤ 32 → s.arg.toNat < 2 ^ nb → wpos s + nb ≤ 8 * s.wCap.toNat →
      64 ≤ s.wPending.toNat + nb → meetsUnread s (packAddr s) 8 = false → PackerDone s (refill (packCarry nb s))
  | flushAligned : meetsUnread s (packAddr s) (partialBytes s) = false → PackerDone s (refill (alignFlush s))
  | flushBits : meetsUnread s (packAddr s) (partialBytes s) = false →
      PackerDone s
        (refill { s with mem := s.mem.writeLE (packAddr s) (partialBytes s) s.wAcc.toNat, wNaf := true })
  | append (bytes : List Byte) : alignedOffset s + bytes.length ≤ s.wCap.toNat →
      meetsUnread s (packAddr s) (partialBytes s + bytes.length) = false →
      PackerDone s (refill (appendAligned bytes s))
  | reserve (count : Count) (freeCount : Nat) : alignedOffset s + count.toNat ≤ s.wCap.toNat →
      meetsUnread s (packAddr s) (partialBytes s) = false →
      PackerDone s (refill { alignFlush s with
        wCommitted := BitVec.ofNat 32 (alignedOffset s + count.toNat), freeCount := freeCount })

/-- What a completed command of the unpacker has made of the state, the status registers apart, and the checks it has
passed (R144 to R153, R188). -/
inductive UnpackerDone (s : State) : State → Prop where
  | attach (cap : Count) : rangeFault s s.arg.toNat cap.toNat = none →
      UnpackerDone s (refill { s with rBase := s.arg, rCap := cap, rConsumed := 0, rPending := 0 })
  | value (nb : Nat) : nb ≤ 32 → rPos s + nb ≤ 8 * s.rCap.toNat → UnpackerDone s (scalarAdvance nb s)
  | batch (nb E count : Nat) : nb ≤ 32 → count * nb ≤ remBits s → rangeFault s s.arg.toNat (count * E) = none →
      meetsUnread s s.arg.toNat (count * E) = false → UnpackerDone s (batchPhases nb E s.arg.toNat count s)
  | seek (off : Nat) : off ≤ s.rCap.toNat → UnpackerDone s (seekByte off s)

/-- How any command ends from `s`: a fault, the status registers alone (a failure, or a count of bytes), or its unit's
completed work (R11, R26, R214). -/
inductive Answers (s : State) : Outcome → Prop where
  | faults (c : FaultCause) (w : Word) : Answers s (.next (faultEntry c w s))
  | status (ok : Bool) (res : Word) : Answers s (.next { s with ok := ok, res := res })
  | packs {u : State} (ok : Bool) (res : Word) : PackerDone s u → Answers s (.next { u with ok := ok, res := res })
  | unpacks {u : State} (ok : Bool) (res : Word) :
      UnpackerDone s u → Answers s (.next { u with ok := ok, res := res })

theorem execWInit_answers (cap : Count) (s : State) : Answers s (execWInit cap s) := by
  unfold execWInit
  split
  · exact .faults _ _
  next h => exact .packs true s.res (.bind cap h)

theorem execWRebind_answers (cap : Count) (s : State) : Answers s (execWRebind cap s) := by
  unfold execWRebind
  split
  · exact .faults _ _
  next h =>
    split
    · exact .status false s.res
    next hfits => exact .packs true s.res (.rebind cap h (Nat.le_of_not_lt hfits))

theorem execPutValue_answers (n : BitVec 6) (s : State) : Answers s (execPutValue n s) := by
  unfold execPutValue
  dsimp only
  split
  · exact .faults _ _
  next hwidth =>
  split
  · exact .faults _ _
  next hvalue =>
  split
  · exact .faults _ _
  split
  · exact .status false s.res
  next hfits =>
  have hv := Nat.lt_of_not_le hvalue
  have hf := Nat.le_of_not_lt hfits
  split
  next hfull =>
    split
    · exact .faults _ _
    next halias =>
      exact .packs true _ (.carry _ (Nat.le_of_not_lt hwidth) hv hf hfull (Bool.eq_false_iff.mpr halias))
  next hfull => exact .packs true _ (.short _ hv hf (Nat.lt_of_not_le hfull))

theorem execFlush_answers (al : Bool) (s : State) : Answers s (execFlush al s) := by
  unfold execFlush
  split
  · exact .faults _ _
  next halias =>
    have ha := Bool.eq_false_iff.mpr halias
    split
    · exact .packs true _ (.flushAligned ha)
    · exact .packs true _ (.flushBits ha)

theorem putBytes_answers (i : Instr) (bytes : List Byte) (s : State) : Answers s (putBytes i bytes s) := by
  obtain ⟨-, h⟩ | ⟨-, -, h⟩ | ⟨hfits, halias, h⟩ := putBytes_cases i bytes s <;> rw [h]
  · exact .status false s.res
  · exact .faults _ _
  · exact .packs true _ (.append bytes hfits halias)

theorem execPutAligned_answers (n : BitVec 6) (esz : ElemSize) (s : State) :
    Answers s (execPutAligned n esz s) := by
  unfold execPutAligned
  split
  · exact .faults _ _
  · exact putBytes_answers _ _ s

theorem execGetNextBytePtr_answers (count : Count) (s : State) : Answers s (execGetNextBytePtr count s) := by
  unfold execGetNextBytePtr
  split
  · exact .status false 0
  next hfits =>
    split
    · exact .faults _ _
    next halias =>
      exact .packs true _ (.reserve count _ (Nat.le_of_not_lt hfits) (Bool.eq_false_iff.mpr halias))

theorem execRInit_answers (cap : Count) (s : State) : Answers s (execRInit cap s) := by
  unfold execRInit
  split
  · exact .faults _ _
  next h => exact .unpacks true _ (.attach cap h)

theorem execGetValue_answers (n : BitVec 6) (esz : ElemSize) (s : State) : Answers s (execGetValue n esz s) := by
  unfold execGetValue
  split
  · exact .faults _ _
  next hwidth =>
    split
    · exact .status false 0
    next hfits => exact .unpacks true _ (.value _ (Nat.le_of_not_lt hwidth) (Nat.le_of_not_lt hfits))

theorem execGetBatch_answers (n : BitVec 6) (esz : ElemSize) (batch : Count) (s : State) :
    Answers s (execGetBatch n esz batch s) := by
  unfold execGetBatch
  dsimp only
  split
  · exact .faults _ _
  next hwidth =>
    split
    · exact .faults _ _
    next hrange =>
      split
      · exact .faults _ _
      next halias =>
        exact .unpacks true _ (.batch _ _ _ (Nat.le_of_not_lt hwidth) (batchCount_mul_le _ _ s) hrange
          (Bool.eq_false_iff.mpr halias))

theorem execGetAligned_answers (n : BitVec 6) (esz : ElemSize) (s : State) :
    Answers s (execGetAligned n esz s) := by
  unfold execGetAligned
  split
  · exact .faults _ _
  split
  · exact .status false 0
  split
  · exact .status false 0
  next hfits => exact .unpacks true _ (.seek _ (Nat.le_of_not_lt hfits))

theorem getVarint_answers (result : BitVec 32 → Word) (s : State) : Answers s (getVarint result s) := by
  obtain ⟨-, h⟩ | ⟨v, used, hdecode, h⟩ := getVarint_cases result s <;> rw [h]
  · exact .status false 0
  · exact .unpacks true _ (.seek _ (vlqDecodeFrom_used_le hdecode))

/-- What any command can do, with the checks that have passed. -/
theorem exec_answers (i : Instr) (s : State) : Answers s (exec i s) := by
  cases i with
  | wInit cap => exact execWInit_answers cap s
  | wRebind cap => exact execWRebind_answers cap s
  | putValue n => exact execPutValue_answers n s
  | putAligned n esz => exact execPutAligned_answers n esz s
  | getNextBytePtr count => exact execGetNextBytePtr_answers count s
  | flush al => exact execFlush_answers al s
  | putVlq => exact putBytes_answers _ _ s
  | putZzvlq => exact putBytes_answers _ _ s
  | bytesWritten => exact .status true _
  | rInit cap => exact execRInit_answers cap s
  | getValue n esz => exact execGetValue_answers n esz s
  | getBatch n esz batch => exact execGetBatch_answers n esz batch s
  | getAligned n esz => exact execGetAligned_answers n esz s
  | getVlq => exact getVarint_answers _ s
  | getZzvlq => exact getVarint_answers _ s
  | bytesLeft => exact .status true _

/-- The completed work of the packer changes the packer's own state and the window alone. -/
theorem PackerDone.frame {s u : State} (h : PackerDone s u) : PackerFrame s u := by
  cases h with
  | bind | rebind | short => rfl
  | carry nb => exact (packerFrame_packCarry nb s).refill_work.frame
  | flushAligned | flushBits | reserve => exact PackerWork.frame (PackerFrame.refill_work rfl)
  | append bytes => exact (packerFrame_appendAligned bytes s).refill_work.frame

/-- The completed work of the unpacker changes the reader's own state and memory alone. -/
theorem UnpackerDone.work {s u : State} (h : UnpackerDone s u) : UnpackerWork s u := by
  cases h with
  | attach => rfl
  | value nb => exact (readFrame_scalarAdvance nb s).unpackerWork
  | batch nb E count => exact (readFrame_batchPhases nb E _ count s).unpackerWork
  | seek off => exact (readFrame_seekByte off s).unpackerWork

/-- A property that does not look at the status registers, and that the completed work of either unit keeps, is kept by
every write to `CMD`: dropped, faulting, failing or succeeding (R78, R215). -/
theorem issueCommand_keeps {P : State → Prop} {s t : State} {w : Word}
    (hstatus : ∀ u v : State, StatusFrame u v → P u → P v)
    (hpacker : ∀ u, PackerDone s u → P u) (hunpacker : ∀ u, UnpackerDone s u → P u)
    (hs : P s) (h : issueCommand w s = .next t) : P t := by
  obtain ⟨-, hdrop⟩ | ⟨-, r, -, hreject⟩ | ⟨-, i, -, hexec⟩ := issueCommand_cases w s
  · cases hdrop.symm.trans h
    exact hs
  · cases hreject.symm.trans h
    exact hstatus s _ rfl hs
  · have hans : Answers s (.next t) := (hexec.symm.trans h) ▸ exec_answers i s
    cases hans with
    | faults c w => exact hstatus s _ rfl hs
    | status ok res => exact hstatus s _ rfl hs
    | packs ok res hdone => exact hstatus _ _ rfl (hpacker _ hdone)
    | unpacks ok res hdone => exact hstatus _ _ rfl (hunpacker _ hdone)

end Sys2Proof.Machine
end

section
/-! SUPPORT. What each unit's completed work keeps: the packer's cursor, its buffer, the read window (spec/10_state.md R33,
R36). -/

namespace Sys2Proof.Machine

/-! The packer's cursor and buffer. -/

/-- The three packer invariants of R33. -/
structure PackerCursor (s : State) : Prop where
  fits : wpos s ≤ 8 * s.wCap.toNat
  pending : s.wPending.toNat ≤ 63
  acc : s.wAcc.toNat < 2 ^ s.wPending.toNat

/-- The packer's buffer lies in the address space and is admitted (R51, R67). -/
def PackerBound (s : State) : Prop :=
  s.wBase.toNat + s.wCap.toNat ≤ 2 ^ 64 ∧
  admitsRange s.admitted s.wBase.toNat (s.wBase.toNat + s.wCap.toNat) = true

theorem packerInv_iff (s : State) : PackerInv s ↔ PackerCursor s ∧ PackerBound s :=
  ⟨fun ⟨hf, hp, ha, hs, hb⟩ => ⟨⟨hf, hp, ha⟩, hs, hb⟩, fun ⟨⟨hf, hp, ha⟩, hs, hb⟩ => ⟨hf, hp, ha, hs, hb⟩⟩

/-- A packer with no partial bits meets R33 wherever its committed bytes fit the buffer. -/
theorem packerCursor_of_empty {s : State} (hpending : s.wPending = 0) (hacc : s.wAcc = 0)
    (hfits : s.wCommitted.toNat ≤ s.wCap.toNat) : PackerCursor s where
  fits := by simpa [wpos, hpending] using hfits
  pending := by simp [hpending]
  acc := by simp [hpending, hacc]

theorem packerCursor_reset : PackerCursor State.reset := packerCursor_of_empty rfl rfl le_rfl

/-- The cursor's invariants rest on the cursor's own registers alone. -/
theorem PackerCursor.congr {s u : State} (h : PackerCursor s) (hcap : u.wCap = s.wCap)
    (hcommitted : u.wCommitted = s.wCommitted) (hpending : u.wPending = s.wPending) (hacc : u.wAcc = s.wAcc) :
    PackerCursor u where
  fits := by simpa only [wpos, hcap, hcommitted, hpending] using h.fits
  pending := hpending ▸ h.pending
  acc := by simpa only [hacc, hpending] using h.acc

theorem PackerBound.congr {s u : State} (h : PackerBound s) (hbase : u.wBase = s.wBase) (hcap : u.wCap = s.wCap)
    (hadmitted : u.admitted = s.admitted) : PackerBound u := by
  unfold PackerBound
  rwa [hbase, hcap, hadmitted]

/-- The partial bytes of the accumulator always fit the buffer (R103). -/
theorem PackerCursor.alignedOffset_le {s : State} (h : PackerCursor s) : alignedOffset s ≤ s.wCap.toNat := by
  have hfits := h.fits
  simp only [wpos, alignedOffset, partialBytes, ceil8] at *
  omega

/-- An offset inside the buffer is a 32-bit number. -/
theorem toNat_ofNat_of_le_count {cap : Count} {off : Nat} (h : off ≤ cap.toNat) :
    (BitVec.ofNat 32 off).toNat = off := by
  rw [BitVec.toNat_ofNat, Nat.mod_eq_of_lt (h.trans_lt cap.isLt)]

/-- The bits of `ARG` put above the accumulator's stay below the new bit count (R106). -/
theorem packerCursor_packShort {s : State} {nb : Nat} (harg : s.arg.toNat < 2 ^ nb)
    (hfits : wpos s + nb ≤ 8 * s.wCap.toNat) (hshort : s.wPending.toNat + nb < 64) (h : PackerCursor s) :
    PackerCursor (packShort nb s) := by
  have hpending : (packShort nb s).wPending.toNat = s.wPending.toNat + nb := by
    rw [packShort_wPending, BitVec.toNat_ofNat, Nat.mod_eq_of_lt (by omega)]
  refine ⟨?_, ?_, ?_⟩
  · rw [wpos, hpending, packShort_wCommitted, packShort_wCap]
    rw [wpos] at hfits
    omega
  · omega
  · have hshift : s.arg.toNat <<< s.wPending.toNat < 2 ^ (s.wPending.toNat + nb) := by
      rw [Nat.shiftLeft_eq, Nat.pow_add, Nat.mul_comm]
      exact Nat.mul_lt_mul_of_pos_left harg (Nat.two_pow_pos _)
    have hacc : s.wAcc.toNat < 2 ^ (s.wPending.toNat + nb) :=
      h.acc.trans_le (Nat.pow_le_pow_right (by omega) (by omega))
    rw [hpending, packShort_wAcc, BitVec.toNat_or, BitVec.toNat_ofNat]
    exact Nat.or_lt_two_pow hacc ((Nat.mod_le _ _).trans_lt hshift)

/-- The carry store leaves in the accumulator the bits of `ARG` that did not fit (R106). -/
theorem packerCursor_packCarry {s : State} {nb : Nat} (hnb : nb ≤ 32) (harg : s.arg.toNat < 2 ^ nb)
    (hfits : wpos s + nb ≤ 8 * s.wCap.toNat) (hfull : 64 ≤ s.wPending.toNat + nb) (h : PackerCursor s) :
    PackerCursor (packCarry nb s) := by
  have hpend := h.pending
  rw [wpos] at hfits
  have hpending : (packCarry nb s).wPending.toNat = s.wPending.toNat + nb - 64 := by
    rw [packCarry_wPending, BitVec.toNat_ofNat, Nat.mod_eq_of_lt (by omega)]
  have hcommitted : (packCarry nb s).wCommitted.toNat = s.wCommitted.toNat + 8 := by
    rw [packCarry_wCommitted, toNat_ofNat_of_le_count (cap := s.wCap) (by omega)]
  refine ⟨?_, ?_, ?_⟩
  · rw [wpos, hpending, hcommitted, packCarry_wCap]
    omega
  · omega
  · have hrest : s.arg.toNat >>> (nb - (s.wPending.toNat + nb - 64)) < 2 ^ (s.wPending.toNat + nb - 64) := by
      rw [Nat.shiftRight_eq_div_pow, Nat.div_lt_iff_lt_mul (Nat.two_pow_pos _), ← Nat.pow_add]
      exact harg.trans_le (Nat.pow_le_pow_right (by omega) (by omega))
    rw [hpending, packCarry_wAcc, BitVec.toNat_ofNat]
    exact (Nat.mod_le _ _).trans_lt hrest

/-- The packer's own completed work keeps R33. -/
theorem PackerDone.keeps_packerCursor {s u : State} (h : PackerDone s u) (hs : PackerCursor s) : PackerCursor u := by
  cases h with
  | bind cap => exact packerCursor_of_empty rfl rfl (Nat.zero_le _)
  | rebind cap _ hfits => exact ⟨hfits, hs.pending, hs.acc⟩
  | short nb harg hfits hshort => exact packerCursor_packShort harg hfits hshort hs
  | carry nb hnb harg hfits hfull =>
    exact (packerCursor_packCarry hnb harg hfits hfull hs).congr
      (refill_wCap _) (refill_wCommitted _) (refill_wPending _) (refill_wAcc _)
  | flushAligned =>
    refine packerCursor_of_empty (refill_wPending _) (refill_wAcc _) ?_
    rw [refill_wCommitted, refill_wCap, alignFlush_wCommitted, toNat_ofNat_of_le_count hs.alignedOffset_le]
    exact hs.alignedOffset_le
  | flushBits => exact hs.congr (refill_wCap _) (refill_wCommitted _) (refill_wPending _) (refill_wAcc _)
  | append bytes hfits =>
    refine packerCursor_of_empty (refill_wPending _) (refill_wAcc _) ?_
    rw [refill_wCommitted, refill_wCap, appendAligned_wCommitted, toNat_ofNat_of_le_count hfits]
    exact hfits
  | reserve count freeCount hfits =>
    refine packerCursor_of_empty (refill_wPending _) (refill_wAcc _) ?_
    rw [refill_wCommitted, refill_wCap, toNat_ofNat_of_le_count hfits]
    exact hfits

/-- A command of the packer binds only a buffer that lies in the address space and is admitted. -/
theorem PackerDone.keeps_packerBound {s u : State} (h : PackerDone s u) (hs : PackerBound s) : PackerBound u := by
  cases h with
  | bind cap hrange => exact (rangeFault_eq_none_iff _ _ _).mp hrange
  | rebind cap hrange => exact (rangeFault_eq_none_iff _ _ _).mp hrange
  | short => exact hs
  | carry | flushAligned | flushBits | append | reserve =>
    exact hs.congr (refill_wBase _) (refill_wCap _) (refill_admitted _)

/-- A command of the unpacker touches no register of the packer. -/
theorem UnpackerDone.keeps_packerCursor {s u : State} (h : UnpackerDone s u) (hs : PackerCursor s) :
    PackerCursor u := by
  have hwork := h.work
  unfold UnpackerWork ReadFrame at hwork
  exact hs.congr (by rw [hwork]) (by rw [hwork]) (by rw [hwork]) (by rw [hwork])

theorem UnpackerDone.keeps_packerBound {s u : State} (h : UnpackerDone s u) (hs : PackerBound s) : PackerBound u := by
  have hwork := h.work
  unfold UnpackerWork ReadFrame at hwork
  exact hs.congr (by rw [hwork]) (by rw [hwork]) (by rw [hwork])

theorem StatusFrame.keeps_packerCursor {u v : State} (h : StatusFrame u v) (hu : PackerCursor u) : PackerCursor v := by
  unfold StatusFrame at h
  exact hu.congr (by rw [h]) (by rw [h]) (by rw [h]) (by rw [h])

/-! The read window. -/

/-- Whatever a packer command stores, the window follows it (R36, log entry 8). -/
theorem PackerDone.keeps_window {s u : State} (h : PackerDone s u) (hs : windowExact s) : windowExact u := by
  cases h with
  | bind | rebind | short => exact hs
  | carry | flushAligned | flushBits | append | reserve => exact refill_windowExact _

theorem windowExact_scalarAdvance (nb : Nat) {s : State} (hs : windowExact s) : windowExact (scalarAdvance nb s) := by
  unfold scalarAdvance
  split
  · exact refill_windowExact _
  · exact hs

/-- Wherever an unpacker command moves the cursor's byte, binds a buffer or stores, it refills the window (R141). -/
theorem UnpackerDone.keeps_window {s u : State} (h : UnpackerDone s u) (hs : windowExact s) : windowExact u := by
  cases h with
  | attach => exact refill_windowExact _
  | value nb => exact windowExact_scalarAdvance nb hs
  | batch => exact refill_windowExact _
  | seek => exact refill_windowExact _

theorem StatusFrame.keeps_window {u v : State} (h : StatusFrame u v) (hu : windowExact u) : windowExact v := by
  unfold StatusFrame at h
  exact (windowExact_congr (by rw [h]) (by rw [h]) (by rw [h]) (by rw [h]) (by rw [h])).mpr hu

/-- An unattached reader's window holds zeros. -/
theorem windowExact_resetBlock (s : State) : windowExact (resetBlock s) := by
  intro i _
  simp

/-- No write to `CMD` breaks the window's equation. -/
theorem issueCommand_keeps_window {w : Word} {s t : State} (hs : windowExact s) (h : issueCommand w s = .next t) :
    windowExact t :=
  issueCommand_keeps (fun _ _ hframe => hframe.keeps_window) (fun _ hdone => hdone.keeps_window hs)
    (fun _ hdone => hdone.keeps_window hs) hs h

end Sys2Proof.Machine
end

section
/-! SUPPORT. The phases of GET_BATCH, packaged as one induction, and what they do to the cursor, the data memory and the
intermediate buffer (spec/41_unpacker.md R147 to R151). -/

namespace Sys2Proof.Machine

/-! One iteration of the bulk loop. -/

/-- One iteration of the bulk loop produces whole groups of 32, no more than are left, and leaves the cursor at the byte
after them (R149, R150). -/
theorem bulkStep_progress (nb E out i left : Nat) (s : State) :
    ∃ g, (bulkStep nb E out i left s).1 = 32 * g ∧ 32 * g ≤ left ∧
      (bulkStep nb E out i left s).2.rPending = 0 ∧
      (bulkStep nb E out i left s).2.rConsumed = BitVec.ofNat 32 (rPos s / 8 + 32 * g * nb / 8) := by
  unfold bulkStep
  split
  · refine ⟨left / 32, unpack32_length _ _ _ _, Nat.mul_div_le _ _, rfl, ?_⟩
    simp only [unpack32_length]
  · refine ⟨min 1024 left / 32, unpack32_length _ _ _ _, ?_, rfl, ?_⟩
    · omega
    · simp only [unpack32_length, Config.convBufSize]

/-- One iteration writes elements of the array alone. -/
theorem bulkStep_mem (nb E out i left : Nat) (s : State) :
    ∃ vals : List (BitVec 32), vals.length ≤ left ∧
      (bulkStep nb E out i left s).2.mem = writeElems s.mem E out i vals := by
  unfold bulkStep
  split
  · exact ⟨_, by rw [unpack32_length]; omega, rfl⟩
  · refine ⟨_, ?_, rfl⟩
    rw [List.length_take, unpack32_length]
    omega

/-- The intermediate buffer never holds more than its 1024 entries (R150). -/
theorem bulkStep_convBuf_length (nb E out i left : Nat) {s : State} (hs : s.convBuf.length ≤ 1024) :
    (bulkStep nb E out i left s).2.convBuf.length ≤ 1024 := by
  unfold bulkStep
  split
  · exact hs
  · simp only [List.length_append, List.length_drop, unpack32_length, Config.convBufSize]
    omega

/-! The induction over the phases. -/

section
variable {nb E out count : Nat} {P : Nat → State → Prop}

/-- The scalar phase before the bulk loop ends with all values done or at a byte boundary. -/
theorem headPhase_induction (hscalar : ∀ i s, P i s → i < count → P (i + 1) (scalarStep nb E out i s))
    {k i : Nat} {s : State} (hk : i + k = count) (h : P i s) :
    ∃ j u, headPhase nb E out k i s = (j, u) ∧ P j u ∧ j ≤ count ∧ (j = count ∨ rPos u % 8 = 0) := by
  induction k generalizing i s with
  | zero => exact ⟨i, s, rfl, h, by omega, .inl hk⟩
  | succ k ih =>
    rw [headPhase]
    split
    next haligned => exact ⟨i, s, rfl, h, by omega, .inr haligned⟩
    next => exact ih (by omega) (hscalar i s h (by omega))

theorem bulkPhase_induction
    (hbulk : ∀ i s, P i s → rPos s % 8 = 0 → i + 32 ≤ count →
      P (i + (bulkStep nb E out i (count - i) s).1) (bulkStep nb E out i (count - i) s).2)
    {k i : Nat} {s : State} (hi : i ≤ count) (haligned : i = count ∨ rPos s % 8 = 0) (h : P i s) :
    ∃ j u, bulkPhase nb E out count k i s = (j, u) ∧ P j u ∧ j ≤ count := by
  induction k generalizing i s with
  | zero => exact ⟨i, s, rfl, h, hi⟩
  | succ k ih =>
    rw [bulkPhase]
    split
    · exact ⟨i, s, rfl, h, hi⟩
    next hgroup =>
      have hleft : i + 32 ≤ count := by simp only [Config.bulkGroup] at hgroup; omega
      have hs : rPos s % 8 = 0 := haligned.resolve_left (by omega)
      have hnext := hbulk i s h hs hleft
      obtain ⟨g, hcount, hle, hpending, -⟩ := bulkStep_progress nb E out i (count - i) s
      split
      · exact ⟨i, s, rfl, h, hi⟩
      next n u hstep =>
        rw [hstep] at hnext hcount hpending
        refine ih ?_ (.inr ?_) hnext
        · simp only at hcount
          omega
        · simp only at hpending
          simp [rPos, hpending]

theorem tailPhase_induction (hscalar : ∀ i s, P i s → i < count → P (i + 1) (scalarStep nb E out i s))
    {k i : Nat} {s : State} (hk : i + k = count) (h : P i s) : P count (tailPhase nb E out k i s) := by
  induction k generalizing i s with
  | zero => exact hk ▸ h
  | succ k ih => exact ih (by omega) (hscalar i s h (by omega))

/-- What one scalar value, one bulk iteration and a refill keep, with the number of values done so far, holds of the state
after GET_BATCH with all of them done. -/
theorem batchPhases_induction (hscalar : ∀ i s, P i s → i < count → P (i + 1) (scalarStep nb E out i s))
    (hbulk : ∀ i s, P i s → rPos s % 8 = 0 → i + 32 ≤ count →
      P (i + (bulkStep nb E out i (count - i) s).1) (bulkStep nb E out i (count - i) s).2)
    (hrefill : ∀ i s, P i s → P i (refill s)) {s : State} (h : P 0 s) : P count (batchPhases nb E out count s) := by
  obtain ⟨i, u, hhead, hu, hi, haligned⟩ := headPhase_induction hscalar (Nat.zero_add count) h
  obtain ⟨j, v, hbulkp, hv, hj⟩ := bulkPhase_induction hbulk (k := count) hi haligned hu
  rw [batchPhases, hhead]
  dsimp only
  rw [hbulkp]
  exact hrefill _ _ (tailPhase_induction hscalar (by omega) (hrefill _ _ hv))

end

/-! The read position. -/

theorem rPos_le_of_consumed {s : State} (hfits : rPos s ≤ 8 * s.rCap.toNat) : s.rConsumed.toNat ≤ s.rCap.toNat := by
  rw [rPos] at hfits
  omega

/-- A value that reaches the window's end moves the cursor to the next eight bytes (R148). -/
theorem scalarAdvance_of_full {nb : Nat} {s : State} (h : 64 ≤ s.rPending.toNat + nb) :
    scalarAdvance nb s = refill { s with
      rConsumed := BitVec.ofNat 32 (s.rConsumed.toNat + 8)
      rPending := BitVec.ofNat 6 (s.rPending.toNat + nb - 64) } :=
  if_pos h

theorem scalarAdvance_of_short {nb : Nat} {s : State} (h : s.rPending.toNat + nb < 64) :
    scalarAdvance nb s = { s with rPending := BitVec.ofNat 6 (s.rPending.toNat + nb) } :=
  if_neg (Nat.not_le.mpr h)

/-- One scalar value moves the position by its width (R148). -/
theorem rPos_scalarAdvance {nb : Nat} {s : State} (hnb : nb ≤ 32) (hfits : rPos s + nb ≤ 8 * s.rCap.toNat) :
    rPos (scalarAdvance nb s) = rPos s + nb := by
  have hpending := s.rPending.isLt
  simp only [rPos] at hfits
  obtain hfull | hshort := le_or_gt 64 (s.rPending.toNat + nb)
  · rw [scalarAdvance_of_full hfull, rPos_refill]
    simp only [rPos]
    rw [toNat_ofNat_of_le_count (cap := s.rCap) (by omega), BitVec.toNat_ofNat, Nat.mod_eq_of_lt (by omega)]
    omega
  · rw [scalarAdvance_of_short hshort]
    simp only [rPos]
    rw [BitVec.toNat_ofNat, Nat.mod_eq_of_lt (by omega)]
    omega

/-- Moving to a byte of the buffer puts the position there (R153, R188). -/
theorem rPos_seekByte {off : Nat} {s : State} (hoff : off ≤ s.rCap.toNat) : rPos (seekByte off s) = 8 * off := by
  rw [rPos, seekByte_rConsumed, seekByte_rPending, toNat_ofNat_of_le_count hoff]
  simp

/-- An iteration of the bulk loop at a byte boundary moves the position by the widths of its values (R149). -/
theorem rPos_bulkStep {nb E out i left : Nat} {s : State} (haligned : rPos s % 8 = 0)
    (hfits : rPos s + left * nb ≤ 8 * s.rCap.toNat) :
    rPos (bulkStep nb E out i left s).2 = rPos s + (bulkStep nb E out i left s).1 * nb := by
  obtain ⟨g, hcount, hle, hpending, hconsumed⟩ := bulkStep_progress nb E out i left s
  have hwidth : 32 * g * nb = 8 * (4 * g * nb) := by ring
  have hinside := Nat.mul_le_mul_right nb hle
  have hzero : (0 : BitVec 6).toNat = 0 := rfl
  rw [rPos, hpending, hconsumed, hcount, toNat_ofNat_of_le_count (cap := s.rCap) (by omega), hzero]
  omega

/-- GET_BATCH moves the position by the widths of all its values (R146). -/
theorem rPos_batchPhases {nb E out count : Nat} {s : State} (hnb : nb ≤ 32)
    (hfits : rPos s + count * nb ≤ 8 * s.rCap.toNat) :
    rPos (batchPhases nb E out count s) = rPos s + count * nb := by
  refine (batchPhases_induction (P := fun i u => rPos u = rPos s + i * nb ∧ u.rCap = s.rCap) ?_ ?_ ?_ ?_).1
  · intro i u ⟨hpos, hcap⟩ hi
    have hinside := Nat.mul_le_mul_right nb (Nat.succ_le_of_lt hi)
    rw [Nat.succ_mul] at hinside
    have hstep := rPos_scalarAdvance hnb (s := u) (by rw [hpos, hcap]; omega)
    refine ⟨?_, (scalarAdvance_rCap nb u).trans hcap⟩
    rw [Nat.succ_mul, ← Nat.add_assoc, ← hpos]
    exact hstep
  · intro i u ⟨hpos, hcap⟩ haligned hi
    have hwidth : (count - i) * nb = count * nb - i * nb := Nat.sub_mul _ _ _
    have hinside := Nat.mul_le_mul_right nb (show i ≤ count by omega)
    have hstep := rPos_bulkStep (nb := nb) (E := E) (out := out) (i := i) (left := count - i) haligned
      (by rw [hpos, hcap, hwidth]; omega)
    refine ⟨by rw [hstep, hpos, Nat.add_mul, Nat.add_assoc], ?_⟩
    have hframe := readFrame_bulkStep nb E out i (count - i) u
    unfold ReadFrame at hframe
    rw [hframe]
    exact hcap
  · intro i u ⟨hpos, hcap⟩
    exact ⟨(rPos_refill u).trans hpos, (refill_rCap u).trans hcap⟩
  · simp

/-! The data memory and the intermediate buffer. -/

/-- GET_BATCH writes its output array alone, so an array inside the address space keeps the memory's form (R43, R146). -/
theorem batchPhases_keeps_memory {nb E out count : Nat} {s : State} (hspace : out + count * E ≤ 2 ^ 64)
    (hs : MemoryInv s) : MemoryInv (batchPhases nb E out count s) := by
  refine batchPhases_induction (P := fun _ u => MemoryInv u) ?_ ?_ ?_ hs
  · intro i u hu hi
    have hinside := Nat.mul_le_mul_right E (Nat.succ_le_of_lt hi)
    rw [Nat.succ_mul] at hinside
    exact ⟨Memory.writeLE_wf hu.canonical _ _ _, Memory.writeLE_below hu.inSpace (by omega) _⟩
  · intro i u hu _ hi
    obtain ⟨vals, hlen, hmem⟩ := bulkStep_mem nb E out i (count - i) u
    have hinside := Nat.mul_le_mul_right E (show i + vals.length ≤ count by omega)
    refine ⟨hmem ▸ writeElems_wf hu.canonical _ _ _ _, hmem ▸ writeElems_below hu.inSpace ?_⟩
    omega
  · exact fun _ u hu => ⟨by rw [refill_mem]; exact hu.canonical, by rw [refill_mem]; exact hu.inSpace⟩

theorem batchPhases_convBuf_length (nb E out count : Nat) {s : State} (hs : s.convBuf.length ≤ 1024) :
    (batchPhases nb E out count s).convBuf.length ≤ 1024 := by
  refine batchPhases_induction (P := fun _ u => u.convBuf.length ≤ 1024) ?_ ?_ ?_ hs
  · exact fun i u hu _ => by rw [scalarStep, scalarAdvance_convBuf]; exact hu
  · exact fun i u hu _ _ => bulkStep_convBuf_length nb E out i (count - i) hu
  · exact fun _ u hu => by rw [refill_convBuf]; exact hu

end Sys2Proof.Machine
end

section
/-! SUPPORT. The block's invariant: what it rests on, that it holds after a reset, and that every command and every action
of the host keeps it (spec/10_state.md R33, R37, R43). -/

namespace Sys2Proof.Machine

/-! The reader's cursor and buffer. -/

/-- The reader's buffer lies in the address space and is admitted (R51, R67). -/
def ReaderBound (s : State) : Prop :=
  s.rBase.toNat + s.rCap.toNat ≤ 2 ^ 64 ∧
  admitsRange s.admitted s.rBase.toNat (s.rBase.toNat + s.rCap.toNat) = true

/-- That the consumed bytes lie in the buffer follows from the position's bound. -/
theorem readerInv_iff (s : State) : ReaderInv s ↔ rPos s ≤ 8 * s.rCap.toNat ∧ ReaderBound s ∧ windowExact s :=
  ⟨fun ⟨hf, _, hs, hb, hw⟩ => ⟨hf, ⟨hs, hb⟩, hw⟩,
    fun ⟨hf, ⟨hs, hb⟩, hw⟩ => ⟨hf, rPos_le_of_consumed hf, hs, hb, hw⟩⟩

theorem ReaderBound.congr {s u : State} (h : ReaderBound s) (hbase : u.rBase = s.rBase) (hcap : u.rCap = s.rCap)
    (hadmitted : u.admitted = s.admitted) : ReaderBound u := by
  unfold ReaderBound
  rwa [hbase, hcap, hadmitted]

/-- The read position stays inside the buffer under the unpacker's own completed work (R37). -/
theorem UnpackerDone.keeps_rPos_le {s u : State} (h : UnpackerDone s u) (hs : rPos s ≤ 8 * s.rCap.toNat) :
    rPos u ≤ 8 * u.rCap.toNat := by
  cases h with
  | attach cap => rw [rPos_refill]; exact Nat.zero_le _
  | value nb hnb hfits => rwa [rPos_scalarAdvance hnb hfits, scalarAdvance_rCap]
  | batch nb E count hnb hclamp =>
    have hfits : rPos s + count * nb ≤ 8 * s.rCap.toNat := by rw [remBits] at hclamp; omega
    have hframe := readFrame_batchPhases nb E s.arg.toNat count s
    unfold ReadFrame at hframe
    rw [rPos_batchPhases hnb hfits, hframe]
    exact hfits
  | seek off hoff =>
    rw [rPos_seekByte hoff, seekByte_rCap]
    exact Nat.mul_le_mul_left 8 hoff

theorem PackerDone.keeps_rPos_le {s u : State} (h : PackerDone s u) (hs : rPos s ≤ 8 * s.rCap.toNat) :
    rPos u ≤ 8 * u.rCap.toNat := by
  have hframe := h.frame
  unfold PackerFrame at hframe
  rw [hframe]
  exact hs

theorem StatusFrame.keeps_rPos_le {u v : State} (h : StatusFrame u v) (hu : rPos u ≤ 8 * u.rCap.toNat) :
    rPos v ≤ 8 * v.rCap.toNat := by
  unfold StatusFrame at h
  rw [h]
  exact hu

/-- A command of the unpacker binds only a buffer that lies in the address space and is admitted. -/
theorem UnpackerDone.keeps_readerBound {s u : State} (h : UnpackerDone s u) (hs : ReaderBound s) : ReaderBound u := by
  cases h with
  | attach cap hrange =>
    have hbound : ReaderBound { s with rBase := s.arg, rCap := cap, rConsumed := 0, rPending := 0 } :=
      (rangeFault_eq_none_iff _ _ _).mp hrange
    exact hbound.congr (refill_rBase _) (refill_rCap _) (refill_admitted _)
  | value nb => exact hs.congr (scalarAdvance_rBase _ _) (scalarAdvance_rCap _ _) (scalarAdvance_admitted _ _)
  | batch nb E count =>
    have hframe := readFrame_batchPhases nb E s.arg.toNat count s
    unfold ReadFrame at hframe
    exact hs.congr (by rw [hframe]) (by rw [hframe]) (by rw [hframe])
  | seek off => exact hs.congr (seekByte_rBase _ _) (seekByte_rCap _ _) (seekByte_admitted _ _)

theorem PackerDone.keeps_readerBound {s u : State} (h : PackerDone s u) (hs : ReaderBound s) : ReaderBound u := by
  have hframe := h.frame
  unfold PackerFrame at hframe
  exact hs.congr (by rw [hframe]) (by rw [hframe]) (by rw [hframe])

/-! The data memory and the intermediate buffer. -/

theorem MemoryInv.congr {s u : State} (h : MemoryInv s) (hmem : u.mem = s.mem) : MemoryInv u :=
  ⟨hmem ▸ h.canonical, hmem ▸ h.inSpace⟩

/-- The packer stores inside its buffer, and so inside the address space (R56, R67). -/
theorem PackerDone.keeps_memory {s u : State} (h : PackerDone s u) (hp : PackerInv s) (hs : MemoryInv s) :
    MemoryInv u := by
  obtain ⟨hcursor, hspace, -⟩ := (packerInv_iff s).mp hp
  have hpartial : packAddr s + partialBytes s ≤ 2 ^ 64 := by
    have hoff := hcursor.alignedOffset_le
    simp only [alignedOffset, packAddr] at *
    omega
  have halign : MemoryInv (alignFlush s) :=
    ⟨Memory.writeLE_wf hs.canonical _ _ _, Memory.writeLE_below hs.inSpace hpartial _⟩
  cases h with
  | bind | rebind | short => exact hs.congr rfl
  | carry nb hnb _ hfits =>
    have hcarry : packAddr s + 8 ≤ 2 ^ 64 := by
      have hpending := hcursor.pending
      simp only [wpos, packAddr] at *
      omega
    have hstore : MemoryInv (packCarry nb s) :=
      ⟨packCarry_wf hs.canonical nb, Memory.writeLE_below hs.inSpace hcarry _⟩
    exact hstore.congr (refill_mem _)
  | flushAligned => exact halign.congr (refill_mem _)
  | flushBits => exact halign.congr (refill_mem _)
  | append bytes hfits =>
    have happend : MemoryInv (appendAligned bytes s) :=
      ⟨Memory.writeBytes_wf halign.canonical _ _, Memory.writeBytes_below halign.inSpace (by omega)⟩
    exact happend.congr (refill_mem _)
  | reserve => exact halign.congr (refill_mem _)

/-- The unpacker stores in the output array of GET_BATCH alone, which lies in the address space (R146, R67). -/
theorem UnpackerDone.keeps_memory {s u : State} (h : UnpackerDone s u) (hs : MemoryInv s) : MemoryInv u := by
  cases h with
  | attach => exact hs.congr (refill_mem _)
  | value nb => exact hs.congr (scalarAdvance_mem _ _)
  | batch nb E count _ _ hrange =>
    exact batchPhases_keeps_memory ((rangeFault_eq_none_iff _ _ _).mp hrange).1 hs
  | seek off => exact hs.congr (seekByte_mem _ _)

theorem UnpackerDone.keeps_convBuf_length {s u : State} (h : UnpackerDone s u) (hs : s.convBuf.length ≤ 1024) :
    u.convBuf.length ≤ 1024 := by
  cases h with
  | attach => rwa [refill_convBuf]
  | value nb => rwa [scalarAdvance_convBuf]
  | batch nb E count => exact batchPhases_convBuf_length _ _ _ _ hs
  | seek off => rwa [seekByte_convBuf]

theorem PackerDone.keeps_convBuf_length {s u : State} (h : PackerDone s u) (hs : s.convBuf.length ≤ 1024) :
    u.convBuf.length ≤ 1024 := by
  have hframe := h.frame
  unfold PackerFrame at hframe
  rwa [hframe]

/-! The invariant but for the fault record. -/

/-- The invariant of the two units, the memory and the intermediate buffer: all of `Inv` but the fault record. -/
structure UnitsInv (s : State) : Prop where
  packer : PackerInv s
  reader : ReaderInv s
  memory : MemoryInv s
  buffer : s.convBuf.length ≤ 1024

theorem inv_iff (s : State) : Inv s ↔ UnitsInv s ∧ FaultRecordInv s :=
  ⟨fun ⟨hp, hr, hf, hm, hb⟩ => ⟨⟨hp, hr, hm, hb⟩, hf⟩, fun ⟨⟨hp, hr, hm, hb⟩, hf⟩ => ⟨hp, hr, hf, hm, hb⟩⟩

theorem PackerDone.keeps_unitsInv {s u : State} (h : PackerDone s u) (hs : UnitsInv s) : UnitsInv u := by
  obtain ⟨hcursor, hbound⟩ := (packerInv_iff s).mp hs.packer
  obtain ⟨hpos, hreader, hwindow⟩ := (readerInv_iff s).mp hs.reader
  exact ⟨(packerInv_iff u).mpr ⟨h.keeps_packerCursor hcursor, h.keeps_packerBound hbound⟩,
    (readerInv_iff u).mpr ⟨h.keeps_rPos_le hpos, h.keeps_readerBound hreader, h.keeps_window hwindow⟩,
    h.keeps_memory hs.packer hs.memory, h.keeps_convBuf_length hs.buffer⟩

theorem UnpackerDone.keeps_unitsInv {s u : State} (h : UnpackerDone s u) (hs : UnitsInv s) : UnitsInv u := by
  obtain ⟨hcursor, hbound⟩ := (packerInv_iff s).mp hs.packer
  obtain ⟨hpos, hreader, hwindow⟩ := (readerInv_iff s).mp hs.reader
  exact ⟨(packerInv_iff u).mpr ⟨h.keeps_packerCursor hcursor, h.keeps_packerBound hbound⟩,
    (readerInv_iff u).mpr ⟨h.keeps_rPos_le hpos, h.keeps_readerBound hreader, h.keeps_window hwindow⟩,
    h.keeps_memory hs.memory, h.keeps_convBuf_length hs.buffer⟩

/-- What the units' invariant does not look at: the command port, the status registers and the host's side. -/
def PortFrame (u v : State) : Prop :=
  v = { u with
    arg := v.arg, ok := v.ok, res := v.res, fault := v.fault, fcause := v.fcause, fcmd := v.fcmd, farg := v.farg
    hostActions := v.hostActions, actionIndex := v.actionIndex, replies := v.replies, freeCount := v.freeCount }

theorem StatusFrame.portFrame {u v : State} (h : StatusFrame u v) : PortFrame u v := by
  unfold StatusFrame at h
  unfold PortFrame
  rw [h]

theorem PortFrame.keeps_unitsInv {u v : State} (h : PortFrame u v) (hu : UnitsInv u) : UnitsInv v := by
  obtain ⟨⟨hfits, hpending, hacc, hspace, hbound⟩, ⟨hpos, hconsumed, hrspace, hrbound, hwindow⟩,
    ⟨hcanonical, hin⟩, hbuffer⟩ := hu
  unfold PortFrame at h
  rw [h]
  exact ⟨⟨hfits, hpending, hacc, hspace, hbound⟩, ⟨hpos, hconsumed, hrspace, hrbound, hwindow⟩,
    ⟨hcanonical, hin⟩, hbuffer⟩

theorem issueCommand_keeps_unitsInv {w : Word} {s t : State} (hs : UnitsInv s) (h : issueCommand w s = .next t) :
    UnitsInv t :=
  issueCommand_keeps (fun _ _ hframe => hframe.portFrame.keeps_unitsInv) (fun _ hdone => hdone.keeps_unitsInv hs)
    (fun _ hdone => hdone.keeps_unitsInv hs) hs h

/-- A reset unbinds both units and leaves the memory (R42, R240). -/
theorem unitsInv_resetBlock {s : State} (hm : MemoryInv s) : UnitsInv (resetBlock s) := by
  have hempty : ∀ a, admitsRange s.admitted a a = true := fun a =>
    (admitsRange_iff _ _ _).mpr fun x hlo hhi => absurd hhi (Nat.not_lt.mpr hlo)
  have hzero : (0 : Word).toNat + (0 : Count).toNat ≤ 2 ^ 64 := by decide
  exact ⟨(packerInv_iff _).mpr ⟨packerCursor_of_empty rfl rfl le_rfl, hzero, hempty 0⟩,
    (readerInv_iff _).mpr ⟨le_rfl, ⟨hzero, hempty 0⟩, windowExact_resetBlock s⟩, hm.congr rfl, Nat.zero_le _⟩

/-- A host write of data memory that lies in the address space keeps the memory's form, and the window follows it (R43,
R225). -/
theorem unitsInv_refill_writeBytes {addr : Word} {bytes : List Byte} {s : State} (hs : UnitsInv s)
    (hspace : addr.toNat + bytes.length ≤ 2 ^ 64) :
    UnitsInv (refill { s with mem := s.mem.writeBytes addr.toNat bytes }) := by
  obtain ⟨hcursor, hbound⟩ := (packerInv_iff s).mp hs.packer
  obtain ⟨hpos, hreader, -⟩ := (readerInv_iff s).mp hs.reader
  have hstore : MemoryInv { s with mem := s.mem.writeBytes addr.toNat bytes } :=
    ⟨Memory.writeBytes_wf hs.memory.canonical _ _, Memory.writeBytes_below hs.memory.inSpace hspace⟩
  refine ⟨(packerInv_iff _).mpr ⟨?_, ?_⟩, (readerInv_iff _).mpr ⟨?_, ?_, refill_windowExact _⟩,
    hstore.congr (refill_mem _), ?_⟩
  · exact hcursor.congr (refill_wCap _) (refill_wCommitted _) (refill_wPending _) (refill_wAcc _)
  · exact hbound.congr (refill_wBase _) (refill_wCap _) (refill_admitted _)
  · rw [rPos_refill, refill_rCap]; exact hpos
  · exact hreader.congr (refill_rBase _) (refill_rCap _) (refill_admitted _)
  · rw [refill_convBuf]; exact hs.buffer

/-! The fault record. -/

/-- Every cause has a code of R212. -/
theorem FaultCause.code_range (c : FaultCause) : 1 ≤ c.code.toNat ∧ c.code.toNat ≤ 8 := by
  cases c <;> decide

theorem faultRecordInv_faultEntry (c : FaultCause) (w : Word) (s : State) : FaultRecordInv (faultEntry c w s) :=
  ⟨fun h => Bool.noConfusion h, fun _ => c.code_range⟩

theorem faultRecordInv_of_cleared {s : State} (hfault : s.fault = false) (hcause : s.fcause = 0) (hcmd : s.fcmd = 0)
    (harg : s.farg = 0) : FaultRecordInv s :=
  ⟨fun _ => ⟨hcause, hcmd, harg⟩, fun h => Bool.noConfusion (hfault.symm.trans h)⟩

/-- `u` has the fault record of `s`. -/
def SameRecord (s u : State) : Prop :=
  u.fault = s.fault ∧ u.fcause = s.fcause ∧ u.fcmd = s.fcmd ∧ u.farg = s.farg

theorem FaultRecordInv.congr {s u : State} (h : FaultRecordInv s) (hsame : SameRecord s u) : FaultRecordInv u := by
  obtain ⟨hfault, hcause, hcmd, harg⟩ := hsame
  exact ⟨by rw [hfault, hcause, hcmd, harg]; exact h.cleared, by rw [hfault, hcause]; exact h.recorded⟩

theorem PackerFrame.sameRecord {s u : State} (h : PackerFrame s u) : SameRecord s u := by
  unfold PackerFrame at h
  rw [h]
  exact ⟨rfl, rfl, rfl, rfl⟩

theorem UnpackerWork.sameRecord {s u : State} (h : UnpackerWork s u) : SameRecord s u := by
  unfold UnpackerWork ReadFrame at h
  rw [h]
  exact ⟨rfl, rfl, rfl, rfl⟩

theorem exec_keeps_faultRecord {i : Instr} {s t : State} (hs : FaultRecordInv s) (h : exec i s = .next t) :
    FaultRecordInv t := by
  have hans : Answers s (.next t) := h ▸ exec_answers i s
  cases hans with
  | faults c w => exact faultRecordInv_faultEntry c w s
  | status ok res => exact hs.congr ⟨rfl, rfl, rfl, rfl⟩
  | packs ok res hdone => exact hs.congr hdone.frame.sameRecord
  | unpacks ok res hdone => exact hs.congr hdone.work.sameRecord

theorem issueCommand_keeps_faultRecord {w : Word} {s t : State} (hs : FaultRecordInv s)
    (h : issueCommand w s = .next t) : FaultRecordInv t := by
  obtain ⟨-, hdrop⟩ | ⟨-, r, -, hreject⟩ | ⟨-, i, -, hexec⟩ := issueCommand_cases w s
  · cases hdrop.symm.trans h
    exact hs
  · cases hreject.symm.trans h
    exact faultRecordInv_faultEntry _ _ s
  · exact exec_keeps_faultRecord hs (hexec.symm.trans h)

/-! The actions of the host. -/

/-- What an action of the host or the platform makes of the state, where it has a move (R225, R240). -/
inductive HostDoes (s : State) : State → Prop where
  | commands {t : State} (w : Word) : issueCommand w s = .next t → HostDoes s t
  | resets : HostDoes s (resetBlock s)
  | clearsFault : HostDoes s (faultClear s)
  | stores (addr : Word) (bytes : List Byte) : addr.toNat + bytes.length ≤ 2 ^ 64 →
      meetsUnread s addr.toNat bytes.length = false →
      HostDoes s (refill { s with mem := s.mem.writeBytes addr.toNat bytes })
  | portOnly (arg : Word) (replies : List Reply) : HostDoes s { s with arg := arg, replies := replies }

theorem passesAddressSpace_eq_false_iff (base len : Nat) :
    passesAddressSpace base len = false ↔ base + len ≤ 2 ^ 64 := by
  rw [passesAddressSpace, decide_eq_false_iff_not, Nat.not_lt]

theorem hostDoes_of_writeReg {r : HostReg} {v : Word} {s t : State} (h : writeReg r v s = .next t) : HostDoes s t := by
  cases r with
  | cmd => exact .commands v h
  | arg => cases h; exact .portOnly v s.replies
  | ctrl =>
    cases h
    unfold writeCtrl
    split
    · exact .resets
    split
    · exact .clearsFault
    · exact .portOnly s.arg s.replies
  | res | status | fcmd | farg | wBase | wCap | wAcc | wCommitted | wPending | rBase | rCap | rPos | reserved =>
    cases h
    exact .portOnly s.arg s.replies

theorem hostDoes_of_hostWriteMem {addr : Word} {bytes : List Byte} {s t : State}
    (h : hostWriteMem addr bytes s = .next t) : HostDoes s t := by
  unfold hostWriteMem at h
  split at h
  · cases h
  next hspace =>
    split at h
    · cases h
    next hunread =>
      cases h
      exact .stores addr bytes ((passesAddressSpace_eq_false_iff _ _).mp (Bool.eq_false_iff.mpr hspace))
        (Bool.eq_false_iff.mpr hunread)

theorem hostDoes_of_hostReadMem {addr : Word} {n : Nat} {s t : State} (h : hostReadMem addr n s = .next t) :
    HostDoes s t := by
  unfold hostReadMem at h
  split at h
  · cases h
  · cases h
    exact .portOnly s.arg _

/-- The one fact about what any action can do. -/
theorem hostDoes_of_perform {a : HostAction} {s t : State} (h : perform a s = .next t) : HostDoes s t := by
  cases a with
  | writeReg r v => exact hostDoes_of_writeReg h
  | readReg r => cases h; exact .portOnly s.arg _
  | writeMem addr bytes => exact hostDoes_of_hostWriteMem h
  | readMem addr n => exact hostDoes_of_hostReadMem h
  | hardwareReset => cases h; exact .resets

/-- A property that taking an action off the host's list keeps, and that whatever the host does keeps, is kept by every
step. -/
theorem step_keeps {P : State → Prop} {s t : State} (htake : ∀ rest, P s → P (takeAction rest s))
    (hdoes : ∀ u v : State, HostDoes u v → P u → P v) (hs : P s) (h : step s = .next t) : P t := by
  obtain ⟨-, hidle⟩ | ⟨a, rest, -, haction⟩ := step_cases s
  · cases hidle.symm.trans h
    exact hs
  · exact hdoes _ _ (hostDoes_of_perform (haction.symm.trans h)) (htake rest hs)

/-- Whatever the host does, the window follows the memory it shows (R36). -/
theorem HostDoes.keeps_window {s t : State} (h : HostDoes s t) (hs : windowExact s) : windowExact t := by
  cases h with
  | commands w hissue => exact issueCommand_keeps_window hs hissue
  | resets => exact windowExact_resetBlock s
  | clearsFault | portOnly => exact hs
  | stores => exact refill_windowExact _

/-! The whole invariant. -/

theorem PortFrame.keeps_inv {u v : State} (h : PortFrame u v) (hsame : SameRecord u v) (hu : Inv u) : Inv v := by
  obtain ⟨hunits, hrecord⟩ := (inv_iff u).mp hu
  exact (inv_iff v).mpr ⟨h.keeps_unitsInv hunits, hrecord.congr hsame⟩

theorem inv_takeAction (rest : List HostAction) {s : State} (hs : Inv s) : Inv (takeAction rest s) :=
  PortFrame.keeps_inv (u := s) rfl ⟨rfl, rfl, rfl, rfl⟩ hs

theorem inv_resetBlock {s : State} (hm : MemoryInv s) : Inv (resetBlock s) :=
  (inv_iff _).mpr ⟨unitsInv_resetBlock hm, faultRecordInv_of_cleared rfl rfl rfl rfl⟩

theorem memoryInv_reset : MemoryInv State.reset := ⟨reset_mem_wf, fun _ hc => absurd hc List.not_mem_nil⟩

/-- Whatever the host does keeps the invariant. -/
theorem HostDoes.keeps_inv {s t : State} (h : HostDoes s t) (hs : Inv s) : Inv t := by
  obtain ⟨hunits, hrecord⟩ := (inv_iff s).mp hs
  cases h with
  | commands w hissue =>
    exact (inv_iff t).mpr ⟨issueCommand_keeps_unitsInv hunits hissue, issueCommand_keeps_faultRecord hrecord hissue⟩
  | resets => exact inv_resetBlock hs.memory
  | clearsFault =>
    exact (inv_iff _).mpr
      ⟨PortFrame.keeps_unitsInv (u := s) rfl hunits, faultRecordInv_of_cleared rfl rfl rfl rfl⟩
  | stores addr bytes hspace =>
    exact (inv_iff _).mpr ⟨unitsInv_refill_writeBytes hunits hspace,
      hrecord.congr ⟨refill_fault _, refill_fcause _, refill_fcmd _, refill_farg _⟩⟩
  | portOnly => exact PortFrame.keeps_inv (u := s) rfl ⟨rfl, rfl, rfl, rfl⟩ hs

end Sys2Proof.Machine
end

section
/-! The obligations of spec/10_state.md about the invariants: at reset, after every command, after every step. -/

namespace Sys2Proof

open Sys2Proof.Machine

/-- Settles O56: reset of the launch state. -/
theorem invHoldsAtReset : Obligations.InvHoldsAtReset := by
  unfold Obligations.InvHoldsAtReset
  exact inv_resetBlock memoryInv_reset

/-- Settles O57: taking an action off the list and whatever the action does keep the invariant. -/
theorem everyStepKeepsInv : Obligations.EveryStepKeepsInv := by
  intro s t hs h
  exact step_keeps (fun rest hu => inv_takeAction rest hu) (fun _ _ hdoes => hdoes.keeps_inv) hs h

/-- Settles O58: no command moves the packer's cursor past its buffer or leaves stray bits in the accumulator. -/
theorem packerInvariantsAfterEveryCommand : Obligations.PackerInvariantsAfterEveryCommand := by
  refine ⟨?_, fun w s t ⟨hfits, hpending, hacc⟩ h => ?_⟩
  · obtain ⟨hfits, hpending, hacc⟩ := packerCursor_reset
    exact ⟨hfits, hpending, hacc⟩
  · have hs : PackerCursor s := ⟨hfits, hpending, hacc⟩
    obtain ⟨hfits, hpending, hacc⟩ := issueCommand_keeps (fun _ _ hframe => hframe.keeps_packerCursor)
      (fun _ hdone => hdone.keeps_packerCursor hs) (fun _ hdone => hdone.keeps_packerCursor hs) hs h
    exact ⟨hfits, hpending, hacc⟩

/-- Settles O59: whatever changes the memory the window shows refills it. -/
theorem windowEquationKeptForAllEightBytes : Obligations.WindowEquationKeptForAllEightBytes := by
  refine ⟨windowExact_resetBlock State.reset, fun s t hs h => ?_⟩
  exact step_keeps (fun _ hu => hu) (fun _ _ hdoes => hdoes.keeps_window) hs h

/-- Settles O60: the position never leaves the buffer, and the window is refilled with it. -/
theorem unpackerInvariantsAfterEveryCommand : Obligations.UnpackerInvariantsAfterEveryCommand := by
  refine ⟨⟨le_rfl, le_rfl, Nat.zero_le _, windowExact_resetBlock State.reset⟩, fun w s t ⟨hfits, _, _, hwindow⟩ h => ?_⟩
  have hpos : rPos t ≤ 8 * t.rCap.toNat := issueCommand_keeps (fun _ _ hframe => hframe.keeps_rPos_le)
    (fun _ hdone => hdone.keeps_rPos_le hfits) (fun _ hdone => hdone.keeps_rPos_le hfits) hfits h
  exact ⟨hpos, rPos_le_of_consumed hpos, Nat.le_of_lt_succ t.rPending.isLt, issueCommand_keeps_window hwindow h⟩

end Sys2Proof
end

section
/-! SUPPORT. What a command that does not fault leaves of the status registers (spec/10_state.md R23, R26). -/

namespace Sys2Proof.Machine

/-- Both units' work leaves the fault record. -/
theorem UnitWork.sameRecord {i : Instr} {s u : State} (h : UnitWork i s u) : SameRecord s u := by
  cases hunit : isPackerCommand i with
  | true => exact ((unitWork_of_packer hunit).mp h).frame.sameRecord
  | false => exact ((unitWork_of_unpacker hunit).mp h).sameRecord

/-- Both units' work leaves the command port: `ARG`, `RES` and `STATUS.OK`. -/
theorem UnitWork.samePort {i : Instr} {s u : State} (h : UnitWork i s u) :
    u.arg = s.arg ∧ u.res = s.res ∧ u.ok = s.ok := by
  cases hunit : isPackerCommand i with
  | true =>
    have hframe := ((unitWork_of_packer hunit).mp h).frame
    unfold PackerFrame at hframe
    rw [hframe]
    exact ⟨rfl, rfl, rfl⟩
  | false =>
    have hframe := (unitWork_of_unpacker hunit).mp h
    unfold UnpackerWork ReadFrame at hframe
    rw [hframe]
    exact ⟨rfl, rfl, rfl⟩

/-- A command ends by a fault, or without one and with the fault flag as it was. -/
theorem Ends.fault_cases {i : Instr} {s t : State} (h : Ends i s (.next t)) :
    (∃ c, t = faultEntry c (encode i) s) ∨ t.fault = s.fault := by
  cases h with
  | faults c => exact .inl ⟨c, rfl⟩
  | fails => exact .inr rfl
  | failsWithZero => exact .inr rfl
  | succeeds _ hwork => exact .inr hwork.sameRecord.1
  | succeedsWith v _ hwork => exact .inr hwork.sameRecord.1

/-- Where a command leaves a fault in a block that had none, it has changed the fault state alone. -/
theorem Ends.eq_faultEntry {i : Instr} {s t : State} (h : Ends i s (.next t)) (hs : s.fault = false)
    (ht : t.fault = true) : ∃ c, t = faultEntry c (encode i) s :=
  h.fault_cases.resolve_right fun hsame => Bool.noConfusion (ht.symm.trans (hsame.trans hs))

/-- A command that cannot fail and has not faulted leaves `STATUS.OK` at 1 (R26). -/
theorem Ends.ok_of_neverFails {i : Instr} {s t : State} (h : Ends i s (.next t)) (ht : t.fault = false)
    (hnever : neverFails i = true) : t.ok = true := by
  cases h with
  | faults c => exact Bool.noConfusion ht
  | fails _ hfails => exact Bool.noConfusion (hnever.symm.trans hfails)
  | failsWithZero _ hfails => exact Bool.noConfusion (hnever.symm.trans hfails)
  | succeeds => rfl
  | succeedsWith => rfl

theorem Ends.res_of_no_value {i : Instr} {s t : State} (h : Ends i s (.next t)) (hvalue : producesValue i = false) :
    t.res = s.res := by
  cases h with
  | faults c => rfl
  | fails => rfl
  | failsWithZero hproduces => exact Bool.noConfusion (hproduces.symm.trans hvalue)
  | succeeds _ hwork => exact hwork.samePort.2.1
  | succeedsWith v hproduces => exact Bool.noConfusion (hproduces.symm.trans hvalue)

theorem Ends.res_of_failed {i : Instr} {s t : State} (h : Ends i s (.next t)) (hvalue : producesValue i = true)
    (ht : t.fault = false) (hok : t.ok = false) : t.res = 0 := by
  cases h with
  | faults c => exact Bool.noConfusion ht
  | fails hproduces => exact Bool.noConfusion (hvalue.symm.trans hproduces)
  | failsWithZero => rfl
  | succeeds => exact Bool.noConfusion hok
  | succeedsWith => exact Bool.noConfusion hok

theorem Ends.arg_eq {i : Instr} {s t : State} (h : Ends i s (.next t)) : t.arg = s.arg := by
  cases h with
  | faults c => rfl
  | fails => rfl
  | failsWithZero => rfl
  | succeeds _ hwork => exact hwork.samePort.1
  | succeedsWith v _ hwork => exact hwork.samePort.1

theorem ends_of_exec {i : Instr} {s t : State} (h : exec i s = .next t) : Ends i s (.next t) := h ▸ exec_ends i s

end Sys2Proof.Machine
end

section
/-! SUPPORT. What no command reads: `STATUS.OK`, and `ARG` where R73 gives the command no use of it (spec/10_state.md R21,
R26). -/

namespace Sys2Proof.Machine

/-- The state with other values of `ARG` and `STATUS.OK`. -/
def withPort (v : Word) (b : Bool) (s : State) : State := { s with arg := v, ok := b }

/-! The shared operations look at neither, so they commute with the change. -/

section
variable (v : Word) (b : Bool)

theorem withPort_refill (s : State) : refill (withPort v b s) = withPort v b (refill s) := rfl

theorem withPort_scalarAdvance (nb : Nat) (s : State) :
    scalarAdvance nb (withPort v b s) = withPort v b (scalarAdvance nb s) := by
  obtain hfull | hshort := le_or_gt 64 (s.rPending.toNat + nb)
  · rw [scalarAdvance_of_full hfull, scalarAdvance_of_full (s := withPort v b s) hfull]
    rfl
  · rw [scalarAdvance_of_short hshort, scalarAdvance_of_short (s := withPort v b s) hshort]
    rfl

theorem scalarValue_withPort (nb : Nat) (s : State) : scalarValue nb (withPort v b s) = scalarValue nb s := by
  simp only [scalarValue, withPort_scalarAdvance]
  rfl

theorem withPort_scalarStep (nb E out i : Nat) (s : State) :
    scalarStep nb E out i (withPort v b s) = withPort v b (scalarStep nb E out i s) := by
  simp only [scalarStep, withPort_scalarAdvance, scalarValue_withPort]
  rfl

theorem withPort_headPhase (nb E out k i : Nat) (s : State) :
    headPhase nb E out k i (withPort v b s) =
      ((headPhase nb E out k i s).1, withPort v b (headPhase nb E out k i s).2) := by
  induction k generalizing i s with
  | zero => rfl
  | succ k ih =>
    have hpos : rPos (withPort v b s) = rPos s := rfl
    simp only [headPhase, hpos, withPort_scalarStep, ih]
    split <;> rfl

theorem withPort_bulkStep (nb E out i left : Nat) (s : State) :
    bulkStep nb E out i left (withPort v b s) =
      ((bulkStep nb E out i left s).1, withPort v b (bulkStep nb E out i left s).2) := by
  unfold bulkStep
  split <;> rfl

theorem withPort_bulkPhase (nb E out count k i : Nat) (s : State) :
    bulkPhase nb E out count k i (withPort v b s) =
      ((bulkPhase nb E out count k i s).1, withPort v b (bulkPhase nb E out count k i s).2) := by
  induction k generalizing i s with
  | zero => rfl
  | succ k ih =>
    simp only [bulkPhase, withPort_bulkStep]
    split
    · rfl
    · cases hstep : bulkStep nb E out i (count - i) s with
      | mk g u =>
        cases g with
        | zero => rfl
        | succ g => exact ih _ u

theorem withPort_tailPhase (nb E out k i : Nat) (s : State) :
    tailPhase nb E out k i (withPort v b s) = withPort v b (tailPhase nb E out k i s) := by
  induction k generalizing i s with
  | zero => rfl
  | succ k ih => rw [tailPhase, withPort_scalarStep, ih, tailPhase]

theorem withPort_batchPhases (nb E out count : Nat) (s : State) :
    batchPhases nb E out count (withPort v b s) = withPort v b (batchPhases nb E out count s) := by
  simp only [batchPhases, withPort_headPhase, withPort_bulkPhase, withPort_refill, withPort_tailPhase]

end

/-! Each command's answer to the change. -/

/-- What the answers `o` from `s` and `o'` from `withPort v b s` have in common: both fault with the same cause, or both
complete with the same work, `STATUS.OK` and `RES`. -/
inductive AnswersAlike (v : Word) (b : Bool) (s : State) : Outcome → Outcome → Prop where
  | faults (c : FaultCause) (w : Word) :
      AnswersAlike v b s (.next (faultEntry c w s)) (.next (faultEntry c w (withPort v b s)))
  | completes {u u' : State} (ok : Bool) (res : Word) : u.fault = s.fault → u' = withPort v b u →
      AnswersAlike v b s (.next { u with ok := ok, res := res }) (.next { u' with ok := ok, res := res })

section
variable {v : Word} {b : Bool} {s : State}

theorem AnswersAlike.ite {p p' : Prop} [Decidable p] [Decidable p'] {x y x' y' : Outcome} (hp : p' ↔ p)
    (hx : AnswersAlike v b s x x') (hy : AnswersAlike v b s y y') :
    AnswersAlike v b s (if p then x else y) (if p' then x' else y') := by
  by_cases h : p
  · rwa [if_pos h, if_pos (hp.mpr h)]
  · rwa [if_neg h, if_neg (mt hp.mp h)]

theorem AnswersAlike.raise (i : Instr) (c : FaultCause) :
    AnswersAlike v b s (raise i c s) (raise i c (withPort v b s)) := .faults c (encode i)

theorem AnswersAlike.failCommand : AnswersAlike v b s (failCommand s) (failCommand (withPort v b s)) :=
  .completes (u := s) false s.res rfl rfl

theorem AnswersAlike.failWithZero : AnswersAlike v b s (failWithZero s) (failWithZero (withPort v b s)) :=
  .completes (u := s) false 0 rfl rfl

theorem AnswersAlike.succeed {u u' : State} (hfault : u.fault = s.fault) (h : u' = withPort v b u) :
    AnswersAlike v b s (succeed u) (succeed u') := by
  subst h
  exact .completes (u := u) true u.res hfault rfl

theorem AnswersAlike.succeedWith {u u' : State} (res : Word) (hfault : u.fault = s.fault)
    (h : u' = withPort v b u) : AnswersAlike v b s (succeedWith res u) (succeedWith res u') :=
  .completes true res hfault h

theorem putBytes_alike (i : Instr) (bytes : List Byte) (s : State) :
    AnswersAlike v b s (putBytes i bytes s) (putBytes i bytes (withPort v b s)) :=
  .ite Iff.rfl .failCommand (.ite Iff.rfl (.raise i _) (.succeed rfl rfl))

theorem getVarint_alike (result : BitVec 32 → Word) (s : State) :
    AnswersAlike v b s (getVarint result s) (getVarint result (withPort v b s)) := by
  have hdecode : vlqDecode (withPort v b s).mem (withPort v b s).rBase.toNat (ceil8 (rPos (withPort v b s)))
      (withPort v b s).rCap.toNat = vlqDecode s.mem s.rBase.toNat (ceil8 (rPos s)) s.rCap.toNat := rfl
  rw [getVarint, getVarint, hdecode]
  cases vlqDecode s.mem s.rBase.toNat (ceil8 (rPos s)) s.rCap.toNat with
  | none => exact .failWithZero
  | some r => exact .succeedWith _ rfl rfl

/-- A command to which R73 gives no use of `ARG` answers alike whatever `ARG` and `STATUS.OK` hold. -/
theorem exec_alike_of_not_readsArg {i : Instr} (h : readsArg i = false) (v : Word) (b : Bool) (s : State) :
    AnswersAlike v b s (exec i s) (exec i (withPort v b s)) := by
  cases i with
  | wInit | wRebind | putValue | putAligned | putVlq | putZzvlq | rInit | getBatch => exact Bool.noConfusion h
  | getNextBytePtr count => exact .ite Iff.rfl .failWithZero (.ite Iff.rfl (.raise _ _) (.succeedWith _ rfl rfl))
  | flush al => exact .ite Iff.rfl (.raise _ _) (.ite Iff.rfl (.succeed rfl rfl) (.succeed rfl rfl))
  | bytesWritten => exact .succeedWith _ rfl rfl
  | getValue n esz =>
    refine .ite Iff.rfl (.raise _ _) (.ite Iff.rfl .failWithZero ?_)
    rw [scalarValue_withPort]
    exact .succeedWith _ (scalarAdvance_fault _ s) (withPort_scalarAdvance v b _ s)
  | getAligned n esz =>
    exact .ite Iff.rfl (.raise _ _) (.ite Iff.rfl .failWithZero (.ite Iff.rfl .failWithZero (.succeedWith _ rfl rfl)))
  | getVlq => exact getVarint_alike _ s
  | getZzvlq => exact getVarint_alike _ s
  | bytesLeft => exact .succeedWith _ rfl rfl

/-- The range check looks at neither `ARG` nor `STATUS.OK`. -/
theorem rangeFault_withPort (base len : Nat) : rangeFault (withPort v b s) base len = rangeFault s base len := rfl

theorem execGetBatch_alike (n : BitVec 6) (esz : ElemSize) (batch : Count) (b : Bool) (s : State) :
    AnswersAlike s.arg b s (execGetBatch n esz batch s) (execGetBatch n esz batch (withPort s.arg b s)) := by
  have hcount : batchCount n.toNat batch.toNat (withPort s.arg b s) = batchCount n.toNat batch.toNat s := rfl
  have harg : (withPort s.arg b s).arg = s.arg := rfl
  simp only [execGetBatch, hcount, harg, rangeFault_withPort, withPort_batchPhases]
  refine .ite Iff.rfl (.raise _ _) ?_
  cases rangeFault s s.arg.toNat (batchCount n.toNat batch.toNat s * elemBytes esz) with
  | some c => exact .raise _ c
  | none =>
    have hrecord := (readFrame_batchPhases n.toNat (elemBytes esz) s.arg.toNat
      (batchCount n.toNat batch.toNat s) s).unpackerWork.sameRecord
    exact .ite Iff.rfl (.raise _ _) (.succeedWith _ hrecord.1 rfl)

/-- No command looks at `STATUS.OK` (R26). -/
theorem exec_alike_of_same_arg (i : Instr) (b : Bool) (s : State) :
    AnswersAlike s.arg b s (exec i s) (exec i (withPort s.arg b s)) := by
  have harg : (withPort s.arg b s).arg = s.arg := rfl
  cases i with
  | wInit cap =>
    simp only [exec, execWInit, harg, rangeFault_withPort]
    cases rangeFault s s.arg.toNat cap.toNat with
    | some c => exact .raise _ c
    | none => exact .succeed rfl rfl
  | wRebind cap =>
    simp only [exec, execWRebind, harg, rangeFault_withPort]
    cases rangeFault s s.arg.toNat cap.toNat with
    | some c => exact .raise _ c
    | none => exact .ite Iff.rfl .failCommand (.succeed rfl rfl)
  | putValue n =>
    exact .ite Iff.rfl (.raise _ _) (.ite Iff.rfl (.raise _ _) (.ite Iff.rfl (.raise _ _) (.ite Iff.rfl .failCommand
      (.ite Iff.rfl (.ite Iff.rfl (.raise _ _) (.succeed rfl rfl)) (.succeed rfl rfl)))))
  | putAligned n esz => exact .ite Iff.rfl (.raise _ _) (putBytes_alike _ _ s)
  | putVlq => exact putBytes_alike _ _ s
  | putZzvlq => exact putBytes_alike _ _ s
  | rInit cap =>
    simp only [exec, execRInit, harg, rangeFault_withPort]
    cases rangeFault s s.arg.toNat cap.toNat with
    | some c => exact .raise _ c
    | none => exact .succeed rfl rfl
  | getBatch n esz batch => exact execGetBatch_alike n esz batch b s
  | getNextBytePtr | flush | bytesWritten | getValue | getAligned | getVlq | getZzvlq | bytesLeft =>
    exact exec_alike_of_not_readsArg rfl s.arg b s

end

/-- What answering alike means for the two next states: where the command faults, it faults alike, keeps the other
`STATUS.OK` and records the other `ARG`; else `ARG` is all that differs. -/
theorem AnswersAlike.next_eq {v : Word} {b : Bool} {s t : State} {o' : Outcome} (h : AnswersAlike v b s (.next t) o')
    (hs : s.fault = false) :
    o' = .next { t with
      arg := v, ok := if t.fault then b else t.ok, farg := if t.fault then v else t.farg } := by
  cases h with
  | faults c w => rfl
  | completes ok res hfault hwith =>
    subst hwith
    simp [hfault, hs, withPort]

end Sys2Proof.Machine
end

section
/-! The obligations of spec/10_state.md about the command port: `STATUS.OK`, `RES` and `ARG`. -/

namespace Sys2Proof

open Sys2Proof.Machine

/-- Settles O23: a fault keeps `STATUS.OK`, every other ending writes it, and no command looks at it. -/
theorem completedCommandsWriteOk : Obligations.CompletedCommandsWriteOk := by
  intro i s t hs h
  refine ⟨fun ht => ?_, (ends_of_exec h).ok_of_neverFails, fun b => ?_⟩
  · obtain ⟨c, rfl⟩ := (ends_of_exec h).eq_faultEntry hs ht
    rfl
  · have halike : AnswersAlike s.arg b s (.next t) (exec i (withPort s.arg b s)) := h ▸ exec_alike_of_same_arg i b s
    refine (halike.next_eq hs).trans ?_
    by_cases ht : t.fault = true
    · obtain ⟨c, rfl⟩ := (ends_of_exec h).eq_faultEntry hs ht
      rfl
    · simp only [if_neg ht, ← (ends_of_exec h).arg_eq]

/-- Settles O24: each way a command can end says what it leaves in `RES`. -/
theorem resWrittenByValueCommandsOnly : Obligations.ResWrittenByValueCommandsOnly := by
  intro i s t hs h
  refine ⟨(ends_of_exec h).res_of_no_value, fun ht => ?_, (ends_of_exec h).res_of_failed⟩
  obtain ⟨c, rfl⟩ := (ends_of_exec h).eq_faultEntry hs ht
  rfl

/-- Settles O25: `ARG` is outside both units' work, and the commands without a use of it answer alike whatever it holds. -/
theorem argIsNeverWrittenAndIgnoredWhenUnused : Obligations.ArgIsNeverWrittenAndIgnoredWhenUnused := by
  intro i s t hs h
  refine ⟨(ends_of_exec h).arg_eq, fun hunused v => ?_⟩
  have halike : AnswersAlike v s.ok s (.next t) (exec i (withPort v s.ok s)) :=
    h ▸ exec_alike_of_not_readsArg hunused v s.ok s
  refine (halike.next_eq hs).trans ?_
  by_cases ht : t.fault = true
  · obtain ⟨c, rfl⟩ := (ends_of_exec h).eq_faultEntry hs ht
    rfl
  · simp only [if_neg ht]

end Sys2Proof
end

section
/-! SUPPORT. The step that runs a command, and the register map (spec/10_state.md R25, R39 to R41). -/

namespace Sys2Proof.Machine

/-- A step whose next action writes the word of a command to `CMD` of a block without a fault runs the command (R78). -/
theorem step_of_command {s : State} {w : Word} {i : Instr} {rest : List HostAction}
    (haction : s.hostActions = .writeReg .cmd w :: rest) (hs : s.fault = false) (hdecode : decode w = .ok i) :
    step s = exec i (takeAction rest s) := by
  simp only [step, performNext, haction, perform, writeReg, issueCommand, takeAction_fault, hs, hdecode,
    Bool.false_eq_true, if_false]

/-! `CTRL`. -/

theorem writeCtrl_of_reset {v : Word} (h : v.getLsbD 1 = true) (s : State) : writeCtrl v s = resetBlock s := if_pos h

theorem writeCtrl_of_clear {v : Word} (hreset : v.getLsbD 1 = false) (hclear : v.getLsbD 0 = true) (s : State) :
    writeCtrl v s = faultClear s := by
  rw [writeCtrl, hreset, hclear]
  rfl

theorem writeCtrl_of_zeros {v : Word} (hreset : v.getLsbD 1 = false) (hclear : v.getLsbD 0 = false) (s : State) :
    writeCtrl v s = s := by
  rw [writeCtrl, hreset, hclear]
  rfl

/-- `CTRL` takes the two low bits of what is written and no other (R39). -/
theorem writeCtrl_congr {u v : Word} (h : u.extractLsb' 0 2 = v.extractLsb' 0 2) (s : State) :
    writeCtrl u s = writeCtrl v s := by
  have hbit : ∀ i < 2, u.getLsbD i = v.getLsbD i := fun i hi => by
    simpa [hi] using congrArg (fun x => x.getLsbD i) h
  simp only [writeCtrl, hbit 0 (by omega), hbit 1 (by omega)]

/-! The register map. -/

/-- The register window holds the whole map (R41). -/
theorem map_le_windowBytes : 0xA0 ≤ Config.windowBytes := Nat.le_add_right _ _

/-- An aligned offset of the map lies in the window (R40, R41). -/
theorem aligned_inside_window {off : Nat} (hoff : off % 8 = 0 ∧ off < 0xA0) :
    off % 8 = 0 ∧ off < Config.windowBytes := ⟨hoff.1, hoff.2.trans_le map_le_windowBytes⟩

theorem regAtOffset_reserved {off : Nat} (halign : off % 8 = 0) (hwindow : off < Config.windowBytes)
    (hreserved : off = 0x38 ∨ (0x68 ≤ off ∧ off ≤ 0x78) ∨ off = 0x98 ∨ 0xA0 ≤ off) :
    regAtOffset off = some .reserved := by
  refine (if_pos ⟨halign, hwindow⟩).trans ?_
  obtain rfl | hgap | rfl | hpast := hreserved
  · rfl
  · obtain rfl | rfl | rfl : off = 0x68 ∨ off = 0x70 ∨ off = 0x78 := by omega
    · rfl
    · rfl
    · rfl
  · rfl
  · obtain ⟨k, rfl⟩ := Nat.exists_eq_add_of_le' hpast
    rfl

/-! `STATUS`. -/

/-- Bit `i` of `STATUS`, field by field from bit 0 up (R25). -/
theorem statusWord_getLsbD (s : State) (i : Nat) :
    (statusWord s).getLsbD i =
      if i < 1 then (BitVec.ofBool s.ok).getLsbD i
      else if i - 1 < 1 then (BitVec.ofBool s.fault).getLsbD (i - 1)
      else if i - 1 - 1 < 1 then (BitVec.ofBool s.wNaf).getLsbD (i - 1 - 1)
      else if i - 1 - 1 - 1 < 5 then false
      else if i - 1 - 1 - 1 - 5 < 4 then s.fcause.getLsbD (i - 1 - 1 - 1 - 5)
      else false := by
  simp only [statusWord, BitVec.getLsbD_append, BitVec.ofNat_eq_ofNat, BitVec.getLsbD_zero]

/-- The fields of `STATUS` at their bit positions (R25). -/
theorem statusWord_fields (s : State) :
    (statusWord s).getLsbD 0 = s.ok ∧ (statusWord s).getLsbD 1 = s.fault ∧ (statusWord s).getLsbD 2 = s.wNaf ∧
    (statusWord s).extractLsb' 3 5 = 0 ∧ (statusWord s).extractLsb' 8 4 = s.fcause ∧
    (statusWord s).extractLsb' 12 52 = 0 := by
  refine ⟨?_, ?_, ?_, BitVec.eq_of_getLsbD_eq fun i hi => ?_, BitVec.eq_of_getLsbD_eq fun i hi => ?_,
    BitVec.eq_of_getLsbD_eq fun i hi => ?_⟩
  · rw [statusWord_getLsbD]; simp
  · rw [statusWord_getLsbD]; simp
  · rw [statusWord_getLsbD]; simp
  · rw [BitVec.getLsbD_extractLsb', statusWord_getLsbD, if_neg (by omega), if_neg (by omega), if_neg (by omega),
      if_pos (by omega)]
    simp
  · rw [BitVec.getLsbD_extractLsb', statusWord_getLsbD, if_neg (by omega), if_neg (by omega), if_neg (by omega),
      if_neg (by omega), if_pos (by omega), show 8 + i - 1 - 1 - 1 - 5 = i by omega]
    simp [hi]
  · rw [BitVec.getLsbD_extractLsb', statusWord_getLsbD, if_neg (by omega), if_neg (by omega), if_neg (by omega),
      if_neg (by omega), if_neg (by omega)]
    simp

end Sys2Proof.Machine
end

section
/-! The obligations of spec/10_state.md about the step, `CTRL` and the register map. -/

namespace Sys2Proof

open Sys2Proof.Machine

/-- Settles O9: the write to `CMD` is taken off the list and its word's command runs. -/
theorem stepRunsTheDecodedCommand : Obligations.StepRunsTheDecodedCommand := by
  intro s w i rest haction hs hdecode
  exact step_of_command haction hs hdecode

/-- Settles O15: `CTRL` takes bit 1 before bit 0 and no other bit. -/
theorem controlRegisterWrites : Obligations.ControlRegisterWrites := by
  intro s v
  refine ⟨rfl, fun hreset => ⟨?_, resetBlock s, rfl, rfl, rfl, rfl, rfl⟩, fun hreset hclear => ?_,
    fun hreset hclear => ?_, fun u hbits => ?_⟩
  · exact congrArg Host.Outcome.next (writeCtrl_of_reset hreset s)
  · exact congrArg Host.Outcome.next (writeCtrl_of_clear hreset hclear s)
  · exact congrArg Host.Outcome.next (writeCtrl_of_zeros hreset hclear s)
  · exact congrArg Host.Outcome.next (writeCtrl_congr hbits s)

/-- Settles O19: each offset of the map lies in the window and reaches its register. -/
theorem registerMapReads : Obligations.RegisterMapReads := by
  intro s
  have hwide {n : Nat} (x : BitVec n) : x.setWidth 64 = BitVec.ofNat 64 x.toNat := (BitVec.ofNat_toNat 64 x).symm
  simp only [List.forall_mem_cons]
  exact ⟨
    ⟨.arg, if_pos (aligned_inside_window (off := 0x00) (by decide)), rfl⟩,
    ⟨.cmd, if_pos (aligned_inside_window (off := 0x08) (by decide)), rfl⟩,
    ⟨.res, if_pos (aligned_inside_window (off := 0x10) (by decide)), rfl⟩,
    ⟨.ctrl, if_pos (aligned_inside_window (off := 0x20) (by decide)), rfl⟩,
    ⟨.fcmd, if_pos (aligned_inside_window (off := 0x28) (by decide)), rfl⟩,
    ⟨.farg, if_pos (aligned_inside_window (off := 0x30) (by decide)), rfl⟩,
    ⟨.wBase, if_pos (aligned_inside_window (off := 0x40) (by decide)), rfl⟩,
    ⟨.wCap, if_pos (aligned_inside_window (off := 0x48) (by decide)), hwide s.wCap⟩,
    ⟨.wAcc, if_pos (aligned_inside_window (off := 0x50) (by decide)), rfl⟩,
    ⟨.wCommitted, if_pos (aligned_inside_window (off := 0x58) (by decide)), hwide s.wCommitted⟩,
    ⟨.wPending, if_pos (aligned_inside_window (off := 0x60) (by decide)), hwide s.wPending⟩,
    ⟨.rBase, if_pos (aligned_inside_window (off := 0x80) (by decide)), rfl⟩,
    ⟨.rCap, if_pos (aligned_inside_window (off := 0x88) (by decide)), hwide s.rCap⟩,
    ⟨.rPos, if_pos (aligned_inside_window (off := 0x90) (by decide)), rfl⟩,
    fun p hp => absurd hp List.not_mem_nil⟩

/-- Settles O20: reserved offsets reach the reserved register, which reads 0, and only `ARG`, `CMD` and `CTRL` take a
write. -/
theorem reservedOffsetsAndReadOnlyRegisters : Obligations.ReservedOffsetsAndReadOnlyRegisters := by
  refine ⟨map_le_windowBytes, fun off => regAtOffset_reserved, fun off halign => if_neg fun h => halign h.1,
    fun s => rfl, fun r v s harg hcmd hctrl => ?_⟩
  cases r with
  | arg => exact absurd rfl harg
  | cmd => exact absurd rfl hcmd
  | ctrl => exact absurd rfl hctrl
  | res | status | fcmd | farg | wBase | wCap | wAcc | wCommitted | wPending | rBase | rCap | rPos | reserved => rfl

/-- Settles O21: the fields of the word, and the fault record's rule for a block without a fault. -/
theorem statusWordFields : Obligations.StatusWordFields := by
  refine ⟨if_pos (aligned_inside_window (off := 0x18) (by decide)), fun s => ?_⟩
  obtain ⟨hok, hfault, hnaf, hlow, hcause, hhigh⟩ := statusWord_fields s
  refine ⟨hok, hfault, hnaf, hlow, hcause, hhigh, fun hrecord hclear => ?_⟩
  exact hcause.trans (hrecord.cleared (hfault.symm.trans hclear)).1

end Sys2Proof
end

section
/-! SUPPORT. The bytes a command may change: which range, and that it is clear of the unread region (spec/20_memory.md R50,
R56, R57). -/

namespace Sys2Proof.Machine

/-! Memory unchanged outside a range. -/

/-- Two writes inside a range leave everything outside it. -/
theorem sameOutside.trans_inside {m m' m'' : Memory} {lo len lo' len' : Nat} (h : sameOutside m m' lo len)
    (h' : sameOutside m' m'' lo' len') (hlo : lo ≤ lo') (hhi : lo' + len' ≤ lo + len) :
    sameOutside m m'' lo len :=
  fun a ha => (h' a (by omega)).trans (h a ha)

/-- A byte that has changed lies in the range outside of which nothing has. -/
theorem sameOutside.mem_of_changed {m m' : Memory} {lo len a : Nat} (h : sameOutside m m' lo len)
    (ha : m'.read a ≠ m.read a) : lo ≤ a ∧ a < lo + len := by
  by_contra hout
  exact ha (h a (by omega))

/-- A byte of a range that passed the alias check is not unread: a region that holds a byte is an attached reader's (R57). -/
theorem not_unread_of_meetsUnread_eq_false {s : State} {lo len a : Nat} (h : meetsUnread s lo len = false)
    (hlo : lo ≤ a) (hhi : a < lo + len) : ¬ (unreadLo s ≤ a ∧ a < unreadHi s) := by
  rintro ⟨hunreadLo, hunreadHi⟩
  have hattached : 0 < s.rCap.toNat := by
    simp only [unreadLo, unreadHi] at hunreadLo hunreadHi
    omega
  have hhit := (meetsUnread_iff s lo len).mpr ⟨hattached, a, hlo, hhi, hunreadLo, hunreadHi⟩
  exact Bool.noConfusion (h.symm.trans hhit)

/-- GET_BATCH writes its output array alone (R146). -/
theorem batchPhases_sameOutside {nb E out count : Nat} {s : State} (hs : s.mem.wf) :
    sameOutside s.mem (batchPhases nb E out count s).mem out (count * E) := by
  refine (batchPhases_induction (P := fun _ u => u.mem.wf ∧ sameOutside s.mem u.mem out (count * E)) ?_ ?_ ?_
    ⟨hs, fun _ _ => rfl⟩).2
  · intro i u ⟨hwf, hsame⟩ hi
    have hinside := Nat.mul_le_mul_right E (Nat.succ_le_of_lt hi)
    rw [Nat.succ_mul] at hinside
    exact ⟨Memory.writeLE_wf hwf _ _ _,
      hsame.trans_inside (Memory.sameOutside_writeLE hwf _ _ _) (by omega) (by omega)⟩
  · intro i u ⟨hwf, hsame⟩ _ hi
    obtain ⟨vals, hlen, hmem⟩ := bulkStep_mem nb E out i (count - i) u
    have hinside := Nat.mul_le_mul_right E (show i + vals.length ≤ count by omega)
    rw [Nat.add_mul] at hinside
    rw [hmem]
    exact ⟨writeElems_wf hwf _ _ _ _,
      hsame.trans_inside (sameOutside_writeElems hwf _ _ _ _) (by omega) (by omega)⟩
  · intro i u hu
    rwa [refill_mem]

/-! Where each command stores. -/

/-- What command `i` does to the memory of `s`: nothing, a packer command's store inside its bound buffer, or the output
array of GET_BATCH; a store is in the range of R56 and clear of the unread region. -/
inductive Stores (i : Instr) (s : State) : Outcome → Prop where
  | nothing {t : State} : t.mem = s.mem → Stores i s (.next t)
  | packs {t : State} (len : Nat) : isPackerCommand i = true → storedRange i s = (packAddr s, len) →
      s.wCommitted.toNat + len ≤ s.wCap.toNat → meetsUnread s (packAddr s) len = false →
      sameOutside s.mem t.mem (packAddr s) len → Stores i s (.next t)
  | batch {t : State} (n : BitVec 6) (esz : ElemSize) (batch : Count) (len : Nat) : i = .getBatch n esz batch →
      storedRange i s = (s.arg.toNat, len) → meetsUnread s s.arg.toNat len = false →
      sameOutside s.mem t.mem s.arg.toNat len → Stores i s (.next t)

/-- The status registers a success sets are no memory. -/
theorem Stores.succeedWith {i : Instr} {s u : State} (v : Word) (h : Stores i s (.next u)) :
    Stores i s (succeedWith v u) := by
  cases h with
  | nothing hsame => exact .nothing hsame
  | packs len hpacker hrange hfits hclear hsame => exact .packs len hpacker hrange hfits hclear hsame
  | batch n esz batch len hi hrange hclear hsame => exact .batch n esz batch len hi hrange hclear hsame

theorem execWInit_stores (cap : Count) (s : State) : Stores (.wInit cap) s (execWInit cap s) := by
  unfold execWInit
  split
  · exact .nothing rfl
  · exact .nothing rfl

theorem execWRebind_stores (cap : Count) (s : State) : Stores (.wRebind cap) s (execWRebind cap s) := by
  unfold execWRebind
  split
  · exact .nothing rfl
  split
  · exact .nothing rfl
  · exact .nothing rfl

/-- PUT_VALUE stores the eight bytes of a full accumulator, or nothing (R106). -/
theorem execPutValue_stores (n : BitVec 6) {s : State} (hp : PackerInv s) (hm : s.mem.wf) :
    Stores (.putValue n) s (execPutValue n s) := by
  unfold execPutValue
  dsimp only
  split
  · exact .nothing rfl
  split
  · exact .nothing rfl
  split
  · exact .nothing rfl
  split
  · exact .nothing rfl
  next hfits =>
  split
  next hfull =>
    split
    · exact .nothing rfl
    next halias =>
      have hbuffer : s.wCommitted.toNat + 8 ≤ s.wCap.toNat := by
        have hpending := hp.pending
        simp only [wpos, Config.accW] at hfits hfull
        omega
      have hrange : storedRange (.putValue n) s = (packAddr s, 8) := congrArg (Prod.mk (packAddr s)) (if_pos hfull)
      exact .packs 8 rfl hrange hbuffer (Bool.eq_false_iff.mpr halias) (Memory.sameOutside_writeLE hm _ _ _)
  · exact .nothing rfl

/-- FLUSH stores the partial bytes of the accumulator, in both its forms (R107). -/
theorem execFlush_stores (al : Bool) {s : State} (hp : PackerCursor s) (hm : s.mem.wf) :
    Stores (.flush al) s (execFlush al s) := by
  unfold execFlush
  split
  · exact .nothing rfl
  next halias =>
  have hclear := Bool.eq_false_iff.mpr halias
  split
  · exact .packs _ rfl rfl hp.alignedOffset_le hclear (alignFlush_sameOutside hm)
  · exact .packs _ rfl rfl hp.alignedOffset_le hclear (Memory.sameOutside_writeLE hm _ _ _)

/-- Appending a byte-aligned field stores the partial bytes and the field (R109, R186). -/
theorem putBytes_stores {i : Instr} {bytes : List Byte} {s : State} (hpacker : isPackerCommand i = true)
    (hrange : storedRange i s = (packAddr s, partialBytes s + bytes.length)) (hm : s.mem.wf) :
    Stores i s (putBytes i bytes s) := by
  obtain ⟨-, h⟩ | ⟨-, -, h⟩ | ⟨hfits, hclear, h⟩ := putBytes_cases i bytes s <;> rw [h]
  · exact .nothing rfl
  · exact .nothing rfl
  · exact .packs _ hpacker hrange (Nat.add_assoc .. ▸ hfits) hclear (appendAligned_sameOutside hm bytes)

theorem execPutAligned_stores (n : BitVec 6) (esz : ElemSize) {s : State} (hm : s.mem.wf) :
    Stores (.putAligned n esz) s (execPutAligned n esz s) := by
  unfold execPutAligned
  split
  · exact .nothing rfl
  · exact putBytes_stores rfl (by rw [bytesLE_length]; rfl) hm

/-- GET_NEXT_BYTE_PTR stores the partial bytes alone; the bytes it reserves are the host's to write (R110). -/
theorem execGetNextBytePtr_stores (count : Count) {s : State} (hp : PackerCursor s) (hm : s.mem.wf) :
    Stores (.getNextBytePtr count) s (execGetNextBytePtr count s) := by
  unfold execGetNextBytePtr
  split
  · exact .nothing rfl
  split
  · exact .nothing rfl
  next halias =>
    exact .packs _ rfl rfl hp.alignedOffset_le (Bool.eq_false_iff.mpr halias) (alignFlush_sameOutside hm)

theorem execRInit_stores (cap : Count) (s : State) : Stores (.rInit cap) s (execRInit cap s) := by
  unfold execRInit
  split
  · exact .nothing rfl
  · exact .nothing (refill_mem _)

theorem execGetValue_stores (n : BitVec 6) (esz : ElemSize) (s : State) :
    Stores (.getValue n esz) s (execGetValue n esz s) := by
  unfold execGetValue
  split
  · exact .nothing rfl
  split
  · exact .nothing rfl
  · exact .succeedWith _ (.nothing (scalarAdvance_mem _ s))

/-- The output array of GET_BATCH has as many elements as the clamp admits (R56, R147). -/
theorem storedRange_getBatch (n : BitVec 6) (esz : ElemSize) (batch : Count) (s : State) :
    storedRange (.getBatch n esz batch) s = (s.arg.toNat, batchCount n.toNat batch.toNat s * elemBytes esz) := by
  rw [← ElemSize.sizeOf_eq_elemBytes]
  rfl

theorem execGetBatch_stores (n : BitVec 6) (esz : ElemSize) (batch : Count) {s : State} (hm : s.mem.wf) :
    Stores (.getBatch n esz batch) s (execGetBatch n esz batch s) := by
  unfold execGetBatch
  dsimp only
  split
  · exact .nothing rfl
  split
  · exact .nothing rfl
  split
  · exact .nothing rfl
  next halias =>
    exact .succeedWith _ (.batch n esz batch _ rfl (storedRange_getBatch n esz batch s)
      (Bool.eq_false_iff.mpr halias) (batchPhases_sameOutside hm))

theorem execGetAligned_stores (n : BitVec 6) (esz : ElemSize) (s : State) :
    Stores (.getAligned n esz) s (execGetAligned n esz s) := by
  unfold execGetAligned
  split
  · exact .nothing rfl
  split
  · exact .nothing rfl
  split
  · exact .nothing rfl
  · exact .succeedWith _ (.nothing (seekByte_mem _ s))

theorem getVarint_stores (i : Instr) (result : BitVec 32 → Word) (s : State) : Stores i s (getVarint result s) := by
  obtain ⟨-, h⟩ | ⟨v, used, -, h⟩ := getVarint_cases result s <;> rw [h]
  · exact .nothing rfl
  · exact .succeedWith _ (.nothing (seekByte_mem _ s))

/-- Each command stores in the range R56 gives it, or not at all. -/
theorem exec_stores (i : Instr) {s : State} (hp : PackerInv s) (hm : s.mem.wf) : Stores i s (exec i s) := by
  have hcursor := ((packerInv_iff s).mp hp).1
  cases i with
  | wInit cap => exact execWInit_stores cap s
  | wRebind cap => exact execWRebind_stores cap s
  | putValue n => exact execPutValue_stores n hp hm
  | putAligned n esz => exact execPutAligned_stores n esz hm
  | getNextBytePtr count => exact execGetNextBytePtr_stores count hcursor hm
  | flush al => exact execFlush_stores al hcursor hm
  | putVlq => exact putBytes_stores rfl rfl hm
  | putZzvlq => exact putBytes_stores rfl rfl hm
  | bytesWritten => exact .nothing rfl
  | rInit cap => exact execRInit_stores cap s
  | getValue n esz => exact execGetValue_stores n esz s
  | getBatch n esz batch => exact execGetBatch_stores n esz batch hm
  | getAligned n esz => exact execGetAligned_stores n esz s
  | getVlq => exact getVarint_stores _ _ s
  | getZzvlq => exact getVarint_stores _ _ s
  | bytesLeft => exact .nothing rfl

/-- A command that has changed the memory has neither faulted nor failed (R57, R102). -/
theorem Ends.succeeds_of_mem_ne {i : Instr} {s t : State} (h : Ends i s (.next t)) (hs : s.fault = false)
    (hmem : t.mem ≠ s.mem) : t.fault = false ∧ t.ok = true := by
  cases h with
  | faults c => exact absurd rfl hmem
  | fails => exact absurd rfl hmem
  | failsWithZero => exact absurd rfl hmem
  | succeeds _ hwork => exact ⟨hwork.sameRecord.1.trans hs, rfl⟩
  | succeedsWith v _ hwork => exact ⟨hwork.sameRecord.1.trans hs, rfl⟩

end Sys2Proof.Machine
end

section
/-! The obligation of spec/20_memory.md: which bytes a command may change. -/

namespace Sys2Proof

open Sys2Proof.Machine

/-- Settles O27: a command that changed a byte succeeded, and its store is in its own range, past the alias check. -/
theorem commandsWriteOnlyTheirRanges : Obligations.CommandsWriteOnlyTheirRanges := by
  intro i s t a hinv hs h hchanged
  have hmem : t.mem ≠ s.mem := fun hsame => hchanged (congrArg (Memory.read · a) hsame)
  obtain ⟨hfault, hok⟩ := (ends_of_exec h).succeeds_of_mem_ne hs hmem
  have hstores : Stores i s (.next t) := h ▸ exec_stores i hinv.packer hinv.memory.canonical
  refine ⟨hfault, hok, ?_⟩
  cases hstores with
  | nothing hsame => exact absurd hsame hmem
  | packs len hpacker hrange hfits hclear hsame =>
    obtain ⟨hlo, hhi⟩ := hsame.mem_of_changed hchanged
    rw [hrange]
    refine ⟨not_unread_of_meetsUnread_eq_false hclear hlo hhi, hlo, hhi, .inl ⟨hpacker, ?_⟩⟩
    simp only [packAddr] at hlo hhi
    omega
  | batch n esz batch len hi hrange hclear hsame =>
    obtain ⟨hlo, hhi⟩ := hsame.mem_of_changed hchanged
    rw [hrange]
    exact ⟨not_unread_of_meetsUnread_eq_false hclear hlo hhi, hlo, hhi, .inr ⟨n, esz, batch, hi⟩⟩

end Sys2Proof
end

section
/-! SUPPORT. The decoder as a search of the opcode table: which row a word meets, and what the row's command keeps of the
word (spec/30_encoding.md R70 to R78). -/

namespace Sys2Proof

open Laws

/-! The row of an opcode. -/

/-- A row is found by its own opcode, which no other row has (R73). -/
theorem rowOf_eq_some_iff (opc : Byte) (r : OpcodeRow) :
    rowOf opc = some r ↔ r ∈ opcodeTable ∧ opcField r.pattern = opc := by
  have hfound {q : OpcodeRow} (h : rowOf opc = some q) : q ∈ opcodeTable ∧ opcField q.pattern = opc :=
    ⟨List.mem_of_find?_eq_some h, by simpa using List.find?_some h⟩
  refine ⟨hfound, fun ⟨hr, hopc⟩ => ?_⟩
  cases h : rowOf opc with
  | none => exact absurd hopc (by simpa using List.find?_eq_none.mp h r hr)
  | some q =>
    obtain ⟨hq, hqopc⟩ := hfound h
    have hsame := List.inj_on_of_nodup_map (List.pairwise_map.mpr opcodeTable_distinct) hq hr (hqopc.trans hopc.symm)
    rw [hsame]

/-- The opcodes R73 assigns. -/
theorem opcodeTable_assigned : ∀ r ∈ opcodeTable,
    (0x10 ≤ (opcField r.pattern).toNat ∧ (opcField r.pattern).toNat ≤ 0x18) ∨
    (0x20 ≤ (opcField r.pattern).toNat ∧ (opcField r.pattern).toNat ≤ 0x26) := by decide

/-- Outside the opcodes R73 assigns there is no row (R75). -/
theorem rowOf_unassigned {opc : Byte}
    (h : opc.toNat ≤ 0x0F ∨ (0x19 ≤ opc.toNat ∧ opc.toNat ≤ 0x1F) ∨ 0x27 ≤ opc.toNat) : rowOf opc = none := by
  refine Option.eq_none_iff_forall_ne_some.mpr fun r hr => ?_
  obtain ⟨hmem, rfl⟩ := (rowOf_eq_some_iff opc r).mp hr
  have := opcodeTable_assigned r hmem
  omega

/-! The three answers of the decoder. -/

theorem decode_of_no_row {w : Word} (h : rowOf (opcField w) = none) : decode w = .error .illegalOpcode := by
  rw [decode, h]

theorem decode_of_match {w : Word} {r : OpcodeRow} (hr : rowOf (opcField w) = some r)
    (hmatch : w &&& r.mask = r.pattern) : decode w = .ok (r.build w) := by
  rw [decode, hr]
  exact if_pos hmatch

theorem decode_of_mismatch {w : Word} {r : OpcodeRow} (hr : rowOf (opcField w) = some r)
    (hmatch : w &&& r.mask ≠ r.pattern) : decode w = .error .reservedField := by
  rw [decode, hr]
  exact if_neg hmatch

/-- Every mask covers the opcode, so a word that meets a row has the row's opcode (R74). -/
theorem opcField_of_match {w : Word} {r : OpcodeRow} (hr : r ∈ opcodeTable) (hmatch : w &&& r.mask = r.pattern) :
    opcField w = opcField r.pattern := by
  have hcovered : ∀ q ∈ opcodeTable, opcField q.mask = BitVec.allOnes 8 := by decide
  calc opcField w = opcField w &&& opcField r.mask := by rw [hcovered r hr, BitVec.and_allOnes]
    _ = opcField (w &&& r.mask) := by simp only [opcField, BitVec.extractLsb'_and]
    _ = opcField r.pattern := by rw [hmatch]

/-- A word decodes to the command of the row it meets, and to no other (R78). -/
theorem decode_eq_ok_iff (w : Word) (i : Instr) :
    decode w = .ok i ↔ ∃ r ∈ opcodeTable, w &&& r.mask = r.pattern ∧ r.build w = i := by
  constructor
  · intro h
    cases hrow : rowOf (opcField w) with
    | none => cases (decode_of_no_row hrow).symm.trans h
    | some r =>
      by_cases hmatch : w &&& r.mask = r.pattern
      · cases (decode_of_match hrow hmatch).symm.trans h
        exact ⟨r, ((rowOf_eq_some_iff _ r).mp hrow).1, hmatch, rfl⟩
      · cases (decode_of_mismatch hrow hmatch).symm.trans h
  · rintro ⟨r, hr, hmatch, rfl⟩
    exact decode_of_match ((rowOf_eq_some_iff _ r).mpr ⟨hr, (opcField_of_match hr hmatch).symm⟩) hmatch

/-! A word as its fields. -/

theorem not_cutFields (a : Count) (r : BitVec 15) (l : BitVec 1) (e : BitVec 2) (n : BitVec 6) (o : Byte) :
    ~~~cutFields a r l e n o = cutFields (~~~a) (~~~r) (~~~l) (~~~e) (~~~n) (~~~o) := by
  simp only [cutFields, ← BitVec.not_append]

theorem ofBool_alField (w : Word) : BitVec.ofBool (alField w) = w.extractLsb' 16 1 := by
  rw [alField, BitVec.getLsbD_eq_extractLsb']
  generalize w.extractLsb' 16 1 = x
  revert x
  decide

/-- Every word is made of its fields and the reserved bits 31:17 (R71). -/
theorem cutFields_of_word (w : Word) :
    cutFields (arg32Field w) (w.extractLsb' 17 15) (BitVec.ofBool (alField w)) (eszField w) (nField w) (opcField w) =
      w := by
  have hjoin (lo len lo' : Nat) {len' : Nat} (h : lo' = lo + len) :
      w.extractLsb' lo' len' ++ w.extractLsb' lo len = w.extractLsb' lo (len' + len) :=
    BitVec.extractLsb'_append_extractLsb'_eq_extractLsb' h
  rw [ofBool_alField, cutFields, arg32Field, eszField, nField, opcField, hjoin 17 15 32 rfl, hjoin 16 1 17 rfl,
    hjoin 14 2 16 rfl, hjoin 8 6 14 rfl, hjoin 0 8 8 rfl]
  exact BitVec.extractLsb'_eq_self

/-- What a mask leaves free of a word, field by field. -/
theorem and_not_cutFields (w : Word) (a : Count) (r : BitVec 15) (l : BitVec 1) (e : BitVec 2) (n : BitVec 6) (o : Byte) :
    w &&& ~~~cutFields a r l e n o =
      cutFields (arg32Field w &&& ~~~a) (w.extractLsb' 17 15 &&& ~~~r) (BitVec.ofBool (alField w) &&& ~~~l)
        (eszField w &&& ~~~e) (nField w &&& ~~~n) (opcField w &&& ~~~o) := by
  conv_lhs => rw [← cutFields_of_word w]
  rw [not_cutFields, and_cutFields]

/-- Two words that agree under a mask and outside it are one word. -/
theorem eq_of_mask_parts {u v m : Word} (hunder : u &&& m = v &&& m) (houtside : u &&& ~~~m = v &&& ~~~m) : u = v := by
  have hparts (x : Word) : x = x &&& m ||| x &&& ~~~m := by
    rw [← BitVec.and_or_distrib_left, BitVec.or_not_self, BitVec.and_allOnes]
  rw [hparts u, hparts v, hunder, houtside]

/-! The bits each mask of R74 leaves free, which the word of the row's command takes over. -/

section
variable (w : Word) (opc : Byte)

theorem packFields_arg32_free :
    packFields (arg32Field w) false 0 0 opc &&& ~~~0x00000000FFFFFFFF = w &&& ~~~0x00000000FFFFFFFF := by
  rw [mask_arg32, and_not_cutFields, and_not_cutFields]
  simp

theorem packFields_n_free :
    packFields 0 false 0 (nField w) opc &&& ~~~0xFFFFFFFFFFFFC0FF = w &&& ~~~0xFFFFFFFFFFFFC0FF := by
  rw [mask_n, and_not_cutFields, and_not_cutFields]
  simp

theorem packFields_n_esz_free :
    packFields 0 false (ElemSize.ofCode (eszField w)).code (nField w) opc &&& ~~~0xFFFFFFFFFFFF00FF =
      w &&& ~~~0xFFFFFFFFFFFF00FF := by
  rw [mask_n_esz, and_not_cutFields, and_not_cutFields]
  simp [ElemSize.code_ofCode]

theorem packFields_al_free :
    packFields 0 (alField w) 0 0 opc &&& ~~~0xFFFFFFFFFFFEFFFF = w &&& ~~~0xFFFFFFFFFFFEFFFF := by
  rw [mask_al, and_not_cutFields, and_not_cutFields]
  simp

theorem packFields_n_esz_arg32_free :
    packFields (arg32Field w) false (ElemSize.ofCode (eszField w)).code (nField w) opc &&& ~~~0x00000000FFFF00FF =
      w &&& ~~~0x00000000FFFF00FF := by
  rw [mask_n_esz_arg32, and_not_cutFields, and_not_cutFields]
  simp [ElemSize.code_ofCode]

theorem packFields_none_free :
    packFields 0 false 0 0 opc &&& ~~~0xFFFFFFFFFFFFFFFF = w &&& ~~~0xFFFFFFFFFFFFFFFF := by
  rw [mask_none, and_not_cutFields, and_not_cutFields]
  simp

end

/-! The rows and the encoder. -/

/-- A row's command is one of the row's mask and match, and its word takes over the bits the mask leaves free. -/
structure OpcodeRow.Faithful (r : OpcodeRow) : Prop where
  mask : ∀ w, ruleMask (r.build w) = r.mask
  pattern : ∀ w, (r.build w).opcode.setWidth 64 = r.pattern
  free : ∀ w, encode (r.build w) &&& ~~~r.mask = w &&& ~~~r.mask

theorem opcodeTable_faithful : ∀ r ∈ opcodeTable, r.Faithful := by
  simp only [opcodeTable, List.forall_mem_cons]
  exact ⟨
    ⟨fun _ => rfl, fun _ => rfl, fun w => packFields_arg32_free w 0x10⟩,
    ⟨fun _ => rfl, fun _ => rfl, fun w => packFields_arg32_free w 0x11⟩,
    ⟨fun _ => rfl, fun _ => rfl, fun w => packFields_n_free w 0x12⟩,
    ⟨fun _ => rfl, fun _ => rfl, fun w => packFields_n_esz_free w 0x13⟩,
    ⟨fun _ => rfl, fun _ => rfl, fun w => packFields_arg32_free w 0x14⟩,
    ⟨fun _ => rfl, fun _ => rfl, fun w => packFields_al_free w 0x15⟩,
    ⟨fun _ => rfl, fun _ => rfl, fun w => packFields_none_free w 0x16⟩,
    ⟨fun _ => rfl, fun _ => rfl, fun w => packFields_none_free w 0x17⟩,
    ⟨fun _ => rfl, fun _ => rfl, fun w => packFields_none_free w 0x18⟩,
    ⟨fun _ => rfl, fun _ => rfl, fun w => packFields_arg32_free w 0x20⟩,
    ⟨fun _ => rfl, fun _ => rfl, fun w => packFields_n_esz_free w 0x21⟩,
    ⟨fun _ => rfl, fun _ => rfl, fun w => packFields_n_esz_arg32_free w 0x22⟩,
    ⟨fun _ => rfl, fun _ => rfl, fun w => packFields_n_esz_free w 0x23⟩,
    ⟨fun _ => rfl, fun _ => rfl, fun w => packFields_none_free w 0x24⟩,
    ⟨fun _ => rfl, fun _ => rfl, fun w => packFields_none_free w 0x25⟩,
    ⟨fun _ => rfl, fun _ => rfl, fun w => packFields_none_free w 0x26⟩,
    fun r hr => absurd hr List.not_mem_nil⟩

/-- The word of any command has its opcode's match under its mask. -/
theorem encode_and_ruleMask (i : Instr) : encode i &&& ruleMask i = i.opcode.setWidth 64 := by
  cases i with
  | wInit cap => exact MaskMatch.wInit cap
  | wRebind cap => exact MaskMatch.wRebind cap
  | putValue n => exact MaskMatch.putValue n
  | putAligned n esz => exact MaskMatch.putAligned n esz
  | getNextBytePtr count => exact MaskMatch.getNextBytePtr count
  | flush al => exact MaskMatch.flush al
  | putVlq => exact MaskMatch.putVlq
  | putZzvlq => exact MaskMatch.putZzvlq
  | bytesWritten => exact MaskMatch.bytesWritten
  | rInit cap => exact MaskMatch.rInit cap
  | getValue n esz => exact MaskMatch.getValue n esz
  | getBatch n esz batch => exact MaskMatch.getBatch n esz batch
  | getAligned n esz => exact MaskMatch.getAligned n esz
  | getVlq => exact MaskMatch.getVlq
  | getZzvlq => exact MaskMatch.getZzvlq
  | bytesLeft => exact MaskMatch.bytesLeft

/-- The word of a row's command meets the row. -/
theorem OpcodeRow.Faithful.encode_build_match {r : OpcodeRow} (h : r.Faithful) (w : Word) :
    encode (r.build w) &&& r.mask = r.pattern := by
  rw [← h.mask w, encode_and_ruleMask, h.pattern]

/-- A word that meets a row is the word of the row's command. -/
theorem OpcodeRow.Faithful.encode_build {r : OpcodeRow} (h : r.Faithful) {w : Word}
    (hmatch : w &&& r.mask = r.pattern) : encode (r.build w) = w :=
  eq_of_mask_parts ((h.encode_build_match w).trans hmatch.symm) (h.free w)

/-- Every command is what some row makes of the command's own word. -/
theorem exists_row_build_encode (i : Instr) : ∃ r ∈ opcodeTable, r.build (encode i) = i := by
  have hrow (k : Nat) (hk : k < opcodeTable.length) (h : opcodeTable[k].build (encode i) = i) :
      ∃ r ∈ opcodeTable, r.build (encode i) = i := ⟨_, List.getElem_mem hk, h⟩
  cases i with
  | wInit cap => exact hrow 0 (by decide) (by simp [opcodeTable, encode])
  | wRebind cap => exact hrow 1 (by decide) (by simp [opcodeTable, encode])
  | putValue n => exact hrow 2 (by decide) (by simp [opcodeTable, encode])
  | putAligned n esz => exact hrow 3 (by decide) (by simp [opcodeTable, encode])
  | getNextBytePtr count => exact hrow 4 (by decide) (by simp [opcodeTable, encode])
  | flush al => exact hrow 5 (by decide) (by simp [opcodeTable, encode])
  | putVlq => exact hrow 6 (by decide) rfl
  | putZzvlq => exact hrow 7 (by decide) rfl
  | bytesWritten => exact hrow 8 (by decide) rfl
  | rInit cap => exact hrow 9 (by decide) (by simp [opcodeTable, encode])
  | getValue n esz => exact hrow 10 (by decide) (by simp [opcodeTable, encode])
  | getBatch n esz batch => exact hrow 11 (by decide) (by simp [opcodeTable, encode])
  | getAligned n esz => exact hrow 12 (by decide) (by simp [opcodeTable, encode])
  | getVlq => exact hrow 13 (by decide) rfl
  | getZzvlq => exact hrow 14 (by decide) rfl
  | bytesLeft => exact hrow 15 (by decide) rfl

/-- Decoding undoes encoding. -/
theorem decode_encode (i : Instr) : decode (encode i) = .ok i := by
  obtain ⟨r, hr, hbuild⟩ := exists_row_build_encode i
  have hmatch := (opcodeTable_faithful r hr).encode_build_match (encode i)
  rw [hbuild] at hmatch
  exact (decode_eq_ok_iff _ i).mpr ⟨r, hr, hmatch, hbuild⟩

/-- Encoding undoes decoding. -/
theorem encode_of_decode {w : Word} {i : Instr} (h : decode w = .ok i) : encode i = w := by
  obtain ⟨r, hr, hmatch, rfl⟩ := (decode_eq_ok_iff w i).mp h
  exact (opcodeTable_faithful r hr).encode_build hmatch

end Sys2Proof
end

section
/-! SUPPORT. What a word issued to a block without a fault does, and when a command raises `WIDTH` (spec/30_encoding.md R75
to R78, spec/60_exceptions.md R212). -/

namespace Sys2Proof.Machine

/-! Issuing a word. -/

theorem issueCommand_of_ok {w : Word} {i : Instr} {s : State} (hs : s.fault = false) (h : decode w = .ok i) :
    issueCommand w s = exec i s := by
  simp only [issueCommand, hs, h, Bool.false_eq_true, if_false]

theorem issueCommand_of_error {w : Word} {r : DecodeReject} {s : State} (hs : s.fault = false)
    (h : decode w = .error r) : issueCommand w s = .next (faultEntry (rejectCause r) w s) := by
  simp only [issueCommand, hs, h, Bool.false_eq_true, if_false]

theorem issueCommand_of_no_row {w : Word} {s : State} (hs : s.fault = false) (h : rowOf (opcField w) = none) :
    issueCommand w s = .next (faultEntry .illegalOpcode w s) :=
  issueCommand_of_error hs (decode_of_no_row h)

/-! Commands that are not well formed. -/

/-- A command that is not well formed raises `WIDTH` before any other check (R76, R216). -/
theorem exec_of_illFormed {i : Instr} (h : i.wellFormed = false) (s : State) :
    exec i s = .next (faultEntry .width (encode i) s) := by
  cases i with
  | wInit | wRebind | getNextBytePtr | flush | putVlq | putZzvlq | bytesWritten | rInit | getVlq | getZzvlq | bytesLeft =>
    exact Bool.noConfusion h
  | putValue n | getValue n | getBatch n => exact if_pos (Nat.lt_of_not_le (of_decide_eq_false h))
  | putAligned n esz =>
    have hn := of_decide_eq_false h
    rw [ElemSize.sizeOf_eq_elemBytes] at hn
    exact if_pos (by omega)
  | getAligned n esz => exact if_pos (Nat.lt_one_iff.mp (Nat.lt_of_not_le (of_decide_eq_false h)))

/-! Commands that are. -/

/-- The outcome is no `WIDTH` fault: a fault of another cause, or a state whose fault flag is that of `s`. -/
inductive NoWidthFault (s : State) : Outcome → Prop where
  | faults {c : FaultCause} (w : Word) : c ≠ .width → NoWidthFault s (.next (faultEntry c w s))
  | completes {u : State} : u.fault = s.fault → NoWidthFault s (.next u)

theorem rangeFault_ne_width {s : State} {base len : Nat} {c : FaultCause} (h : rangeFault s base len = some c) :
    c ≠ .width := by
  obtain ⟨-, hrange⟩ | ⟨-, -, hrange⟩ | ⟨-, -, hrange⟩ := rangeFault_cases s base len <;> cases hrange.symm.trans h
  · exact nofun
  · exact nofun

theorem FaultCause.eq_width_of_code {c : FaultCause} (h : c.code = 3) : c = .width := by
  revert h
  cases c <;> decide

theorem batchPhases_fault (nb E out count : Nat) (s : State) : (batchPhases nb E out count s).fault = s.fault :=
  (readFrame_batchPhases nb E out count s).unpackerWork.sameRecord.1

section
variable {s : State}

theorem NoWidthFault.ite {p : Prop} [Decidable p] {x y : Outcome} (hx : NoWidthFault s x) (hy : NoWidthFault s y) :
    NoWidthFault s (if p then x else y) := by
  split
  · exact hx
  · exact hy

theorem NoWidthFault.iteNeg {p : Prop} [Decidable p] {x y : Outcome} (hp : ¬ p) (hy : NoWidthFault s y) :
    NoWidthFault s (if p then x else y) := by
  rwa [if_neg hp]

theorem NoWidthFault.succeedWith {u : State} (v : Word) (h : u.fault = s.fault) : NoWidthFault s (succeedWith v u) :=
  .completes h

theorem putBytes_noWidthFault (i : Instr) (bytes : List Byte) : NoWidthFault s (putBytes i bytes s) := by
  obtain ⟨-, h⟩ | ⟨-, -, h⟩ | ⟨-, -, h⟩ := putBytes_cases i bytes s <;> rw [h]
  · exact .completes rfl
  · exact .faults _ nofun
  · exact .completes (refill_fault _)

theorem getVarint_noWidthFault (result : BitVec 32 → Word) : NoWidthFault s (getVarint result s) := by
  obtain ⟨-, h⟩ | ⟨v, used, -, h⟩ := getVarint_cases result s <;> rw [h]
  · exact .completes rfl
  · exact .completes (seekByte_fault (ceil8 (rPos s) + used) s)

end

/-- A well-formed command raises no `WIDTH` in any state. -/
theorem exec_noWidthFault {i : Instr} (h : i.wellFormed = true) (s : State) : NoWidthFault s (exec i s) := by
  cases i with
  | wInit cap =>
    rw [exec, execWInit]
    split
    next hrange => exact .faults _ (rangeFault_ne_width hrange)
    · exact .completes rfl
  | wRebind cap =>
    rw [exec, execWRebind]
    split
    next hrange => exact .faults _ (rangeFault_ne_width hrange)
    · exact .ite (.completes rfl) (.completes rfl)
  | putValue n =>
    exact .iteNeg (Nat.not_lt.mpr (of_decide_eq_true h)) (.ite (.faults _ nofun) (.ite (.faults _ nofun)
      (.ite (.completes rfl) (.ite (.ite (.faults _ nofun) (.completes rfl)) (.completes rfl)))))
  | putAligned n esz =>
    have hn := of_decide_eq_true h
    rw [ElemSize.sizeOf_eq_elemBytes] at hn
    exact .iteNeg (by omega) (putBytes_noWidthFault _ _)
  | getNextBytePtr count => exact .ite (.completes rfl) (.ite (.faults _ nofun) (.completes rfl))
  | flush al => exact .ite (.faults _ nofun) (.ite (.completes rfl) (.completes rfl))
  | putVlq => exact putBytes_noWidthFault _ _
  | putZzvlq => exact putBytes_noWidthFault _ _
  | bytesWritten => exact .completes rfl
  | rInit cap =>
    rw [exec, execRInit]
    split
    next hrange => exact .faults _ (rangeFault_ne_width hrange)
    · exact .completes rfl
  | getValue n esz =>
    exact .iteNeg (Nat.not_lt.mpr (of_decide_eq_true h)) (.ite (.completes rfl) (.succeedWith _ (scalarAdvance_fault _ s)))
  | getBatch n esz batch =>
    refine .iteNeg (Nat.not_lt.mpr (of_decide_eq_true h)) ?_
    split
    next hrange => exact .faults _ (rangeFault_ne_width hrange)
    · exact .ite (.faults _ nofun) (.succeedWith _ (batchPhases_fault _ _ _ _ s))
  | getAligned n esz =>
    exact .iteNeg (Nat.one_le_iff_ne_zero.mp (of_decide_eq_true h))
      (.ite (.completes rfl) (.ite (.completes rfl) (.succeedWith _ (seekByte_fault _ s))))
  | getVlq => exact getVarint_noWidthFault _
  | getZzvlq => exact getVarint_noWidthFault _
  | bytesLeft => exact .completes rfl

/-- Where there was no fault, an outcome that is no `WIDTH` fault records none. -/
theorem NoWidthFault.not_recorded {s t : State} (h : NoWidthFault s (.next t)) (hs : s.fault = false) :
    ¬ (t.fault = true ∧ t.fcause = 3) := by
  rintro ⟨hfault, hcause⟩
  cases h with
  | faults w hc => exact hc (FaultCause.eq_width_of_code hcause)
  | completes hsame => exact Bool.noConfusion (hfault.symm.trans (hsame.trans hs))

end Sys2Proof.Machine
end

section
/-! The obligations of spec/30_encoding.md. -/

namespace Sys2Proof

open Sys2Proof.Machine

/-- Settles O3: the row that makes the command of the command's own word is the row that word meets. -/
theorem decodeOfEncodeIsIdentity : Obligations.DecodeOfEncodeIsIdentity := decode_encode

/-- Settles O4: the word of a row's command has the row's match under the mask and the decoded word's bits outside it. -/
theorem encodeOfDecodeIsIdentity : Obligations.EncodeOfDecodeIsIdentity := fun _ _ => encode_of_decode

/-- Settles O5: the rows written out are those of the opcode table, and a word of a row's opcode is tried on that row. -/
theorem opcodeRowsSelectOrFault : Obligations.OpcodeRowsSelectOrFault := by
  unfold Obligations.OpcodeRowsSelectOrFault
  intro esz rows
  have hrows : rows = opcodeTable.map fun r => (r.pattern, r.mask, r.build) := rfl
  rw [hrows, List.forall_mem_map]
  intro r hr w s hs hopc
  have hrow : rowOf (opcField w) = some r := (rowOf_eq_some_iff _ r).mpr ⟨hr, hopc.symm⟩
  refine ⟨fun hmatch => ?_, fun hmatch => issueCommand_of_error hs (decode_of_mismatch hrow hmatch)⟩
  have hdecode := decode_of_match hrow hmatch
  exact ⟨hdecode, issueCommand_of_ok hs hdecode⟩

/-- Settles O6: no row has an opcode outside R73, and the zero word's opcode is 0. -/
theorem unassignedOpcodesFault : Obligations.UnassignedOpcodesFault := by
  intro w s hs hopc
  exact ⟨issueCommand_of_no_row hs (rowOf_unassigned hopc), issueCommand_of_no_row hs (rowOf_unassigned (by decide))⟩

/-- Settles O7: the field values named are those that make the command ill formed, but for the failing `GET_ALIGNED`, and
a word that decodes is the word of its command. -/
theorem inadmissibleWidthsFault : Obligations.InadmissibleWidthsFault := by
  refine ⟨fun s n esz batch => ⟨fun hn => ?_, fun hn => ?_, fun hn => ?_, fun hpos hn => ?_⟩, fun w s hs => ?_⟩
  · have hwidth : bitWidthAdmitted n = false := decide_eq_false (Nat.not_le.mpr hn)
    exact ⟨exec_of_illFormed (i := .putValue n) hwidth s, exec_of_illFormed (i := .getValue n esz) hwidth s,
      exec_of_illFormed (i := .getBatch n esz batch) hwidth s⟩
  · exact exec_of_illFormed (i := .putAligned n esz) (decide_eq_false (by omega)) s
  · exact exec_of_illFormed (i := .getAligned n esz) (decide_eq_false (by omega)) s
  · rw [ElemSize.sizeOf_eq_elemBytes] at hn
    exact (if_neg hpos).trans (if_pos hn)
  · cases hdecode : decode w with
    | ok i => exact .inl ⟨i, encode_of_decode hdecode, issueCommand_of_ok hs hdecode⟩
    | error r =>
      have hfault := issueCommand_of_error hs hdecode
      cases r with
      | illegalOpcode => exact .inr (.inl hfault)
      | reservedField => exact .inr (.inr hfault)

/-- Settles O8: the width check comes first, and no other check raises `WIDTH`. -/
theorem widthFaultExactlyWhenIllFormed : Obligations.WidthFaultExactlyWhenIllFormed := by
  intro i s t hs h
  cases hform : i.wellFormed with
  | false =>
    cases (exec_of_illFormed hform s).symm.trans h
    exact iff_of_true ⟨rfl, rfl⟩ rfl
  | true =>
    have hno : NoWidthFault s (.next t) := h ▸ exec_noWidthFault hform s
    exact iff_of_false (hno.not_recorded hs) nofun

/-- Settles O1: the words written out are the words of the lines' commands, and those decode back. -/
theorem workedExamplesAssemble : Obligations.WorkedExamplesAssemble := by
  have hputv : encode (.putValue 3) = 0x0000000000000312 := by decide
  have hgetb : encode (.getBatch 3 .w 4) = 0x0000000400008322 := by decide
  have hflush : encode (.flush true) = 0x0000000000010015 := by decide
  simp only [Obligations.WorkedExamplesAssemble, assemble, issueWith, issueAlone, ← hputv, ← hgetb, ← hflush,
    decode_encode, and_self]

/-- Settles O2: each word is the word of the command named, which decodes back. -/
theorem specWordsDecode : Obligations.SpecWordsDecode := by
  have hdecode {w : Word} {i : Instr} (h : encode i = w) : decode w = .ok i := h ▸ decode_encode i
  exact ⟨hdecode (by decide), hdecode (by decide), hdecode (by decide), hdecode (by decide), hdecode (by decide),
    hdecode (by decide), hdecode (by decide), hdecode (by decide), hdecode (by decide), hdecode (by decide),
    hdecode (by decide), hdecode (by decide), hdecode (by decide), hdecode (by decide), hdecode (by decide),
    hdecode (by decide)⟩

end Sys2Proof
end

section
/-! SUPPORT. The checks of a range and of the unread region, each outcome as an equation (spec/20_memory.md R51, R57, R67),
and the bytes a store leaves of a word (spec/20_memory.md R52). -/

namespace Sys2Proof.Machine

theorem rangeFault_of_past {s : State} {base len : Nat} (h : 2 ^ 64 < base + len) :
    rangeFault s base len = some .addressRange :=
  if_pos (decide_eq_true h)

theorem rangeFault_of_not_admitted {s : State} {base len : Nat} (hspace : base + len ≤ 2 ^ 64)
    (h : ∃ a, base ≤ a ∧ a < base + len ∧ memAdmits s.admitted a = false) : rangeFault s base len = some .bus := by
  obtain ⟨a, hlo, hhi, ha⟩ := h
  obtain ⟨hpast, -⟩ | ⟨-, -, hbus⟩ | ⟨-, hall, -⟩ := rangeFault_cases s base len
  · omega
  · exact hbus
  · exact Bool.noConfusion ((hall a hlo hhi).symm.trans ha)

theorem rangeFault_of_admitted {s : State} {base len : Nat} (hspace : base + len ≤ 2 ^ 64)
    (h : ∀ a, base ≤ a → a < base + len → memAdmits s.admitted a = true) : rangeFault s base len = none :=
  (rangeFault_eq_none_iff s base len).mpr ⟨hspace, (admitsRange_iff _ _ _).mpr h⟩

theorem meetsUnread_eq_false_iff (s : State) (lo len : Nat) :
    meetsUnread s lo len = false ↔ ¬ hitsUnread s lo len := by
  rw [← meetsUnread_iff, Bool.not_eq_true]

/-- Byte `j` of a word, as the number it stands for has it and as the word's bits have it (R52). -/
theorem ofNat_byte_of_word {w : Nat} (v : BitVec w) (j : Nat) :
    BitVec.ofNat 8 (v.toNat / 256 ^ j) = v.extractLsb' (8 * j) 8 := by
  apply BitVec.eq_of_toNat_eq
  rw [BitVec.extractLsb'_toNat, BitVec.toNat_ofNat, Nat.shiftRight_eq_div_pow, Nat.pow_mul]

/-- `MemWrite` of a word leaves the word's bytes, least significant first (R11, R52). -/
theorem Memory.read_writeLE_word {m : Memory} (hm : m.wf) {w : Nat} (v : BitVec w) {a n j : Nat} (hj : j < n) :
    (m.writeLE a n v.toNat).read (a + j) = v.extractLsb' (8 * j) 8 := by
  rw [Memory.read_writeLE hm, if_pos (by omega), Nat.add_sub_cancel_left, ofNat_byte_of_word]

end Sys2Proof.Machine
end

section
/-! SUPPORT. The packer's commands that store nothing, each outcome as an equation under the checks that lead to it, and
how a command fails (spec/40_packer.md R100, R102, R104, R105, R111). -/

namespace Sys2Proof.Machine

/-! W_INIT and W_REBIND. -/

/-- The packer bound to the buffer of `cap` bytes at `ARG`, its cursor empty (R104). -/
def boundAt (cap : Count) (s : State) : State :=
  { s with wBase := s.arg, wCap := cap, wAcc := 0, wCommitted := 0, wPending := 0, wNaf := false, ok := true }

theorem wpos_boundAt (cap : Count) (s : State) : wpos (boundAt cap s) = 0 := rfl

theorem packerCursor_boundAt (cap : Count) (s : State) : PackerCursor (boundAt cap s) :=
  packerCursor_of_empty rfl rfl (Nat.zero_le _)

theorem execWInit_of_fault {s : State} {cap : Count} {c : FaultCause}
    (h : rangeFault s s.arg.toNat cap.toNat = some c) :
    exec (.wInit cap) s = .next (faultEntry c (encode (.wInit cap)) s) := by
  simp only [exec, execWInit, h, raise]

theorem execWInit_of_none {s : State} {cap : Count} (h : rangeFault s s.arg.toNat cap.toNat = none) :
    exec (.wInit cap) s = .next (boundAt cap s) := by
  simp only [exec, execWInit, h, succeed, boundAt]

/-- A W_INIT that has not faulted has bound the packer. -/
theorem execWInit_bound {s t : State} {cap : Count} (h : exec (.wInit cap) s = .next t) (ht : t.fault = false) :
    t = boundAt cap s := by
  cases hrange : rangeFault s s.arg.toNat cap.toNat with
  | some c =>
    cases (execWInit_of_fault hrange).symm.trans h
    exact Bool.noConfusion ht
  | none =>
    cases (execWInit_of_none hrange).symm.trans h
    rfl

theorem execWRebind_of_fault {s : State} {cap : Count} {c : FaultCause}
    (h : rangeFault s s.arg.toNat cap.toNat = some c) :
    exec (.wRebind cap) s = .next (faultEntry c (encode (.wRebind cap)) s) := by
  simp only [exec, execWRebind, h, raise]

theorem execWRebind_of_small {s : State} {cap : Count} (h : rangeFault s s.arg.toNat cap.toNat = none)
    (hcap : 8 * cap.toNat < wpos s) : exec (.wRebind cap) s = .next { s with ok := false } := by
  simp only [exec, execWRebind, h, if_pos hcap, failCommand]

theorem execWRebind_of_fits {s : State} {cap : Count} (h : rangeFault s s.arg.toNat cap.toNat = none)
    (hcap : wpos s ≤ 8 * cap.toNat) :
    exec (.wRebind cap) s = .next { s with wBase := s.arg, wCap := cap, ok := true } := by
  simp only [exec, execWRebind, h, if_neg (Nat.not_lt.mpr hcap), succeed]

/-! BYTES_WRITTEN. -/

/-- The offset of the next aligned field is the write position in whole bytes (R100). -/
theorem alignedOffset_eq (s : State) : alignedOffset s = ceil8 (wpos s) := by
  simp only [alignedOffset, partialBytes, wpos, ceil8]
  omega

/-- With the write position at the buffer's end the count of bytes written is the capacity (R111, R112). -/
theorem execBytesWritten_at_end {s : State} (h : wpos s = 8 * s.wCap.toNat) :
    exec .bytesWritten s = .next { s with ok := true, res := BitVec.ofNat 64 s.wCap.toNat } := by
  have hoff : alignedOffset s = s.wCap.toNat := by
    rw [alignedOffset_eq, h, ceil8]
    omega
  rw [← hoff]
  rfl

/-! Failure. -/

theorem Ends.eq_of_failed {i : Instr} {s t : State} (h : Ends i s (.next t)) (ht : t.fault = false)
    (hok : t.ok = false) : t = { s with ok := false, res := if producesValue i then 0 else s.res } := by
  cases h with
  | faults c => exact Bool.noConfusion ht
  | fails hvalue => simp only [hvalue, Bool.false_eq_true, if_false]
  | failsWithZero hvalue => simp only [hvalue, if_true]
  | succeeds => exact Bool.noConfusion hok
  | succeedsWith => exact Bool.noConfusion hok

end Sys2Proof.Machine
end

section
/-! SUPPORT. PUT_VALUE: the checks it makes, the state it leaves when they pass, and each other outcome
(spec/40_packer.md R106). -/

namespace Sys2Proof.Machine

/-- The checks PUT_VALUE makes have passed, in their order (R106, R216). -/
structure PutAdmits (n : BitVec 6) (s : State) : Prop where
  width : n.toNat ≤ 32
  value : s.arg.toNat < 2 ^ n.toNat
  sequence : s.wNaf = false
  fits : wpos s + n.toNat ≤ 8 * s.wCap.toNat
  clear : 64 ≤ s.wPending.toNat + n.toNat → meetsUnread s (packAddr s) 8 = false

/-- What PUT_VALUE makes of the packer and the memory once its checks have passed. -/
def packed (nb : Nat) (s : State) : State :=
  if 64 ≤ s.wPending.toNat + nb then refill (packCarry nb s) else packShort nb s

theorem packed_of_full {nb : Nat} {s : State} (h : 64 ≤ s.wPending.toNat + nb) :
    packed nb s = refill (packCarry nb s) := if_pos h

theorem packed_of_short {nb : Nat} {s : State} (h : s.wPending.toNat + nb < 64) : packed nb s = packShort nb s :=
  if_neg (Nat.not_le.mpr h)

/-! Each outcome. -/

section
variable {n : BitVec 6} {s : State}

theorem execPutValue_of_wide (h : 32 < n.toNat) :
    exec (.putValue n) s = .next (faultEntry .width (encode (.putValue n)) s) :=
  exec_of_illFormed (i := .putValue n) (decide_eq_false (Nat.not_le.mpr h)) s

theorem execPutValue_of_large (hwidth : n.toNat ≤ 32) (h : 2 ^ n.toNat ≤ s.arg.toNat) :
    exec (.putValue n) s = .next (faultEntry .valueRange (encode (.putValue n)) s) :=
  (if_neg (Nat.not_lt.mpr hwidth)).trans (if_pos h)

section
variable (hwidth : n.toNat ≤ 32) (hvalue : s.arg.toNat < 2 ^ n.toNat)
include hwidth hvalue

theorem execPutValue_of_naf (h : s.wNaf = true) :
    exec (.putValue n) s = .next (faultEntry .sequence (encode (.putValue n)) s) :=
  (if_neg (Nat.not_lt.mpr hwidth)).trans ((if_neg (Nat.not_le.mpr hvalue)).trans (if_pos h))

variable (hnaf : s.wNaf = false)
include hnaf

/-- Past the checks of the command and of the flag, the cursor and the unread region decide. -/
theorem execPutValue_of_bits : exec (.putValue n) s =
    if 8 * s.wCap.toNat < wpos s + n.toNat then failCommand s
    else if 64 ≤ s.wPending.toNat + n.toNat then
      if meetsUnread s (packAddr s) 8 then raise (.putValue n) .aliased s
      else succeed (refill (packCarry n.toNat s))
    else succeed (packShort n.toNat s) :=
  (if_neg (Nat.not_lt.mpr hwidth)).trans
    ((if_neg (Nat.not_le.mpr hvalue)).trans (if_neg (Bool.eq_false_iff.mp hnaf)))

theorem execPutValue_of_no_space (h : 8 * s.wCap.toNat < wpos s + n.toNat) :
    exec (.putValue n) s = .next { s with ok := false } :=
  (execPutValue_of_bits hwidth hvalue hnaf).trans (if_pos h)

theorem execPutValue_of_hit (hfits : wpos s + n.toNat ≤ 8 * s.wCap.toNat) (hfull : 64 ≤ s.wPending.toNat + n.toNat)
    (h : meetsUnread s (packAddr s) 8 = true) :
    exec (.putValue n) s = .next (faultEntry .aliased (encode (.putValue n)) s) := by
  rw [execPutValue_of_bits hwidth hvalue hnaf, if_neg (Nat.not_lt.mpr hfits), if_pos hfull, if_pos h]
  rfl

end

theorem PutAdmits.exec_eq (h : PutAdmits n s) :
    exec (.putValue n) s = .next { packed n.toNat s with ok := true } := by
  rw [execPutValue_of_bits h.width h.value h.sequence, if_neg (Nat.not_lt.mpr h.fits)]
  obtain hfull | hshort := le_or_gt 64 (s.wPending.toNat + n.toNat)
  · rw [if_pos hfull, if_neg (Bool.eq_false_iff.mp (h.clear hfull)), packed_of_full hfull]
    rfl
  · rw [if_neg (Nat.not_le.mpr hshort), packed_of_short hshort]
    rfl

/-- PUT_VALUE passes its checks, or faults, or fails. -/
theorem execPutValue_cases (n : BitVec 6) (s : State) :
    PutAdmits n s ∨ (∃ c, exec (.putValue n) s = .next (faultEntry c (encode (.putValue n)) s)) ∨
      exec (.putValue n) s = .next { s with ok := false } := by
  obtain hwide | hwidth := Nat.lt_or_ge 32 n.toNat
  · exact .inr (.inl ⟨_, execPutValue_of_wide hwide⟩)
  obtain hlarge | hvalue := le_or_gt (2 ^ n.toNat) s.arg.toNat
  · exact .inr (.inl ⟨_, execPutValue_of_large hwidth hlarge⟩)
  obtain hnaf | hnaf := s.wNaf.eq_false_or_eq_true
  · exact .inr (.inl ⟨_, execPutValue_of_naf hwidth hvalue hnaf⟩)
  obtain hspace | hfits := Nat.lt_or_ge (8 * s.wCap.toNat) (wpos s + n.toNat)
  · exact .inr (.inr (execPutValue_of_no_space hwidth hvalue hnaf hspace))
  by_cases hhit : 64 ≤ s.wPending.toNat + n.toNat ∧ meetsUnread s (packAddr s) 8 = true
  · exact .inr (.inl ⟨_, execPutValue_of_hit hwidth hvalue hnaf hfits hhit.1 hhit.2⟩)
  · exact .inl ⟨hwidth, hvalue, hnaf, hfits,
      fun hfull => Bool.eq_false_iff.mpr fun hmeets => hhit ⟨hfull, hmeets⟩⟩

/-- A PUT_VALUE that has neither faulted nor failed has passed its checks. -/
theorem PutAdmits.of_ok {t : State} (h : exec (.putValue n) s = .next t) (hfault : t.fault = false)
    (hok : t.ok = true) : PutAdmits n s := by
  obtain hadmits | ⟨c, hfaults⟩ | hfails := execPutValue_cases n s
  · exact hadmits
  · cases hfaults.symm.trans h
    exact Bool.noConfusion hfault
  · cases hfails.symm.trans h
    exact Bool.noConfusion hok

end

/-! What the accumulator and the memory hold after it. -/

/-- The accumulator with the bits of `ARG` put above its own, as the rule writes it (R106). -/
theorem ofNat_shiftLeft_word (v : Word) (k : Nat) : BitVec.ofNat 64 (v.toNat <<< k) = v <<< k := by
  apply BitVec.eq_of_toNat_eq
  rw [BitVec.toNat_shiftLeft, BitVec.toNat_ofNat]

theorem ofNat_shiftRight_word (v : Word) (k : Nat) : BitVec.ofNat 64 (v.toNat >>> k) = v >>> k := by
  apply BitVec.eq_of_toNat_eq
  rw [BitVec.toNat_ushiftRight, BitVec.toNat_ofNat, Nat.mod_eq_of_lt]
  exact (Nat.shiftRight_le _ _).trans_lt v.isLt

theorem packShort_eq (nb : Nat) (s : State) : packShort nb s = { s with
    wAcc := s.wAcc ||| (s.arg <<< s.wPending.toNat), wPending := BitVec.ofNat 7 (s.wPending.toNat + nb) } := by
  rw [packShort, ofNat_shiftLeft_word]

theorem packCarry_eq {nb : Nat} {s : State} (hpending : s.wPending.toNat ≤ 63) (hfull : 64 ≤ s.wPending.toNat + nb) :
    packCarry nb s = { s with
      mem := s.mem.writeLE (packAddr s) 8 (s.wAcc ||| (s.arg <<< s.wPending.toNat)).toNat
      wCommitted := BitVec.ofNat 32 (s.wCommitted.toNat + 8)
      wPending := BitVec.ofNat 7 (s.wPending.toNat + nb - 64)
      wAcc := s.arg >>> (64 - s.wPending.toNat) } := by
  simp only [packCarry, ofNat_shiftLeft_word, ofNat_shiftRight_word]
  rw [show nb - (s.wPending.toNat + nb - 64) = 64 - s.wPending.toNat by omega]

end Sys2Proof.Machine
end

section
/-! SUPPORT. The packer's logical output bit by bit: what a store leaves of a word's bits in the stream, and what PUT_VALUE
appends (spec/00_scope.md R13, spec/40_packer.md R101, R106). -/

namespace Sys2Proof.Machine

/-! Stream bits. -/

theorem Memory.streamBit_eq_one (m : Memory) (base p : Nat) :
    (m.streamBit base p == 1) = (m.read (base + p / 8)).getLsbD (p % 8) := by
  rw [BitVec.getLsbD, Nat.testBit_eq_decide_div_mod_eq, Memory.streamBit, Nat.shiftRight_eq_div_pow]
  rfl

/-- A word stored at byte `off` of a buffer puts its bits at the stream bits from `8 * off` on (R13, R52). -/
theorem Memory.streamBit_writeLE_inside {m : Memory} (hm : m.wf) {w : Nat} (v : BitVec w) {base off n p : Nat}
    (hlo : 8 * off ≤ p) (hhi : p < 8 * (off + n)) :
    ((m.writeLE (base + off) n v.toNat).streamBit base p == 1) = v.getLsbD (p - 8 * off) := by
  rw [Memory.streamBit_eq_one, show base + p / 8 = base + off + (p / 8 - off) by omega,
    Memory.read_writeLE_word hm v (by omega), BitVec.getLsbD_extractLsb',
    show 8 * (p / 8 - off) + p % 8 = p - 8 * off by omega]
  simp [Nat.mod_lt]

/-- A store from byte `off` on leaves the stream bits before it. -/
theorem Memory.streamBit_writeLE_before {m : Memory} (hm : m.wf) (v : Nat) {base off n p : Nat} (h : p < 8 * off) :
    (m.writeLE (base + off) n v).streamBit base p = m.streamBit base p := by
  rw [Memory.streamBit, Memory.streamBit, Memory.read_writeLE hm, if_neg (by omega)]

/-- `StreamBits` is the number whose bits the stream holds (R13). -/
theorem Memory.streamBits_eq {m : Memory} {base p n x : Nat} (hx : x < 2 ^ n)
    (h : ∀ i < n, (m.streamBit base (p + i) == 1) = x.testBit i) : m.streamBits base p n = x := by
  apply Nat.eq_of_testBit_eq
  intro i
  rw [Memory.testBit_streamBits]
  obtain hin | hout := Nat.lt_or_ge i n
  · rw [h i hin, decide_eq_true hin, Bool.true_and]
  · rw [decide_eq_false (Nat.not_lt.mpr hout), Bool.false_and,
      Nat.testBit_lt_two_pow (hx.trans_le (Nat.pow_le_pow_right (by omega) hout))]

/-! The logical output. -/

theorem packedBit_of_committed {s : State} {p : Nat} (h : p < 8 * s.wCommitted.toNat) :
    packedBit s p = (s.mem.streamBit s.wBase.toNat p == 1) := if_pos h

theorem packedBit_of_pending {s : State} {p : Nat} (h : 8 * s.wCommitted.toNat ≤ p) :
    packedBit s p = s.wAcc.getLsbD (p - 8 * s.wCommitted.toNat) := if_neg (Nat.not_lt.mpr h)

/-- The logical output rests on the packer's base, cursor and accumulator and the memory alone. -/
theorem packedBit_congr {s u : State} (hbase : u.wBase = s.wBase) (hcommitted : u.wCommitted = s.wCommitted)
    (hacc : u.wAcc = s.wAcc) (hmem : u.mem = s.mem) (p : Nat) : packedBit u p = packedBit s p := by
  rw [packedBit, packedBit, hbase, hcommitted, hacc, hmem]

theorem packedBit_refill (s : State) (p : Nat) : packedBit (refill s) p = packedBit s p :=
  packedBit_congr (refill_wBase s) (refill_wCommitted s) (refill_wAcc s) (refill_mem s) p

/-- The accumulator is zero above the pending bits (R33). -/
theorem PackerCursor.wAcc_getLsbD {s : State} (h : PackerCursor s) {q : Nat} (hq : s.wPending.toNat ≤ q) :
    s.wAcc.getLsbD q = false :=
  BitVec.testBit_toNat s.wAcc ▸
    Nat.testBit_lt_two_pow (h.acc.trans_le (Nat.pow_le_pow_right (by omega) hq))

/-- Past the write position the logical output holds zeros, which an align-flush fills the byte with (R33, R103). -/
theorem PackerCursor.packedBit_past {s : State} (h : PackerCursor s) {p : Nat} (hp : wpos s ≤ p) :
    packedBit s p = false := by
  rw [wpos] at hp
  rw [packedBit_of_pending (by omega), h.wAcc_getLsbD (by omega)]

/-- The 64-bit window with `ARG` put above the pending bits (R106). -/
theorem PackerCursor.window_getLsbD {s : State} (h : PackerCursor s) {q : Nat} (hq : q < 64) :
    (s.wAcc ||| (s.arg <<< s.wPending.toNat)).getLsbD q =
      if q < s.wPending.toNat then s.wAcc.getLsbD q else s.arg.getLsbD (q - s.wPending.toNat) := by
  rw [BitVec.getLsbD_or, BitVec.getLsbD_shiftLeft]
  split
  next hlow => simp [hlow]
  next hhigh =>
    rw [h.wAcc_getLsbD (Nat.le_of_not_lt hhigh)]
    simp [hhigh, hq]

/-! What PUT_VALUE does to it. -/

theorem PackerCursor.packedBit_packShort {s : State} {nb p : Nat} (hcursor : PackerCursor s)
    (hp : p < wpos s + nb) (hshort : s.wPending.toNat + nb < 64) :
    packedBit (packShort nb s) p = if p < wpos s then packedBit s p else s.arg.getLsbD (p - wpos s) := by
  have hwpos : wpos s = 8 * s.wCommitted.toNat + s.wPending.toNat := rfl
  obtain hcommitted | hpending := Nat.lt_or_ge p (8 * s.wCommitted.toNat)
  · rw [if_pos (by omega), packedBit_of_committed hcommitted]
    exact packedBit_of_committed (s := packShort nb s) hcommitted
  · rw [packedBit_of_pending hpending, packedBit_of_pending (s := packShort nb s) hpending, packShort_wAcc,
      packShort_wCommitted, ofNat_shiftLeft_word, hcursor.window_getLsbD (by omega), hwpos, Nat.sub_add_eq]
    exact if_congr (by omega) rfl rfl

section
variable {n : BitVec 6} {s : State} (hadmits : PutAdmits n s)
include hadmits

/-- The work of a PUT_VALUE that has passed its checks is a completed work of the packer. -/
theorem PutAdmits.packerDone : PackerDone s (packed n.toNat s) := by
  obtain hfull | hshort := le_or_gt 64 (s.wPending.toNat + n.toNat)
  · rw [packed_of_full hfull]
    exact .carry _ hadmits.width hadmits.value hadmits.fits hfull (hadmits.clear hfull)
  · rw [packed_of_short hshort]
    exact .short _ hadmits.value hadmits.fits hshort

variable (hcursor : PackerCursor s)
include hcursor

theorem PutAdmits.wpos_packed : wpos (packed n.toNat s) = wpos s + n.toNat := by
  have hwidth := hadmits.width
  have hfits := hadmits.fits
  have hpending := hcursor.pending
  simp only [wpos] at hfits
  obtain hfull | hshort := le_or_gt 64 (s.wPending.toNat + n.toNat)
  · rw [packed_of_full hfull, wpos_refill, wpos, packCarry_wCommitted, packCarry_wPending,
      toNat_ofNat_of_le_count (cap := s.wCap) (by omega), BitVec.toNat_ofNat, Nat.mod_eq_of_lt (by omega), wpos]
    omega
  · rw [packed_of_short hshort, wpos, packShort_wCommitted, packShort_wPending, BitVec.toNat_ofNat,
      Nat.mod_eq_of_lt (by omega), wpos]
    omega

theorem PutAdmits.packedBit_packCarry {p : Nat} (hm : s.mem.wf) (hfull : 64 ≤ s.wPending.toNat + n.toNat) :
    packedBit (packCarry n.toNat s) p = if p < wpos s then packedBit s p else s.arg.getLsbD (p - wpos s) := by
  have hwpos : wpos s = 8 * s.wCommitted.toNat + s.wPending.toNat := rfl
  have hfits := hadmits.fits
  have hpend := hcursor.pending
  have hcommitted : (packCarry n.toNat s).wCommitted.toNat = s.wCommitted.toNat + 8 := by
    rw [packCarry_wCommitted, toNat_ofNat_of_le_count (cap := s.wCap) (by omega)]
  obtain hstored | hrest := Nat.lt_or_ge p (8 * (s.wCommitted.toNat + 8))
  · rw [packedBit_of_committed (s := packCarry n.toNat s) (by omega), packCarry_mem, packCarry_wBase,
      ofNat_shiftLeft_word, packAddr]
    obtain hbefore | hwindow := Nat.lt_or_ge p (8 * s.wCommitted.toNat)
    · rw [if_pos (by omega), packedBit_of_committed hbefore, Memory.streamBit_writeLE_before hm _ hbefore]
    · rw [packedBit_of_pending hwindow, Memory.streamBit_writeLE_inside hm _ hwindow hstored,
        hcursor.window_getLsbD (by omega), hwpos, Nat.sub_add_eq]
      exact if_congr (by omega) rfl rfl
  · have hacc : (packCarry n.toNat s).wAcc = s.arg >>> (64 - s.wPending.toNat) := by rw [packCarry_eq hpend hfull]
    rw [packedBit_of_pending (s := packCarry n.toNat s) (by omega), hcommitted, hacc, BitVec.getLsbD_ushiftRight,
      if_neg (by omega),
      show 64 - s.wPending.toNat + (p - 8 * (s.wCommitted.toNat + 8)) = p - wpos s by omega]

/-- PUT_VALUE keeps the logical output and puts the bits of `ARG` after it, least significant first (R101, R106). -/
theorem PutAdmits.packedBit_packed (hm : s.mem.wf) {p : Nat} (hp : p < wpos s + n.toNat) :
    packedBit (packed n.toNat s) p = if p < wpos s then packedBit s p else s.arg.getLsbD (p - wpos s) := by
  obtain hfull | hshort := le_or_gt 64 (s.wPending.toNat + n.toNat)
  · rw [packed_of_full hfull, packedBit_refill]
    exact hadmits.packedBit_packCarry hcursor hm hfull
  · rw [packed_of_short hshort]
    exact hcursor.packedBit_packShort hp hshort

end

end Sys2Proof.Machine
end

section
/-! SUPPORT. The commands that store the partial bytes of the accumulator: FLUSH, the append of a byte-aligned field and
the reservation, each outcome as an equation, and the bytes each leaves (spec/40_packer.md R103, R107 to R110). -/

namespace Sys2Proof.Machine

/-! FLUSH. -/

/-- The accumulator's bytes stored and the flag set: what a non-aligned flush does (R107). -/
def flushedBits (s : State) : State :=
  { s with mem := s.mem.writeLE (packAddr s) (partialBytes s) s.wAcc.toNat, wNaf := true }

theorem execFlush_of_hit {al : Bool} {s : State} (h : meetsUnread s (packAddr s) (partialBytes s) = true) :
    exec (.flush al) s = .next (faultEntry .aliased (encode (.flush al)) s) := if_pos h

theorem execFlush_aligned {s : State} (h : meetsUnread s (packAddr s) (partialBytes s) = false) :
    exec (.flush true) s = .next { refill (alignFlush s) with ok := true } := if_neg (Bool.eq_false_iff.mp h)

theorem execFlush_bits {s : State} (h : meetsUnread s (packAddr s) (partialBytes s) = false) :
    exec (.flush false) s = .next { refill (flushedBits s) with ok := true } := if_neg (Bool.eq_false_iff.mp h)

/-- A FLUSH without a fault has passed the alias check, its only one. -/
theorem clear_of_execFlush {al : Bool} {s t : State} (h : exec (.flush al) s = .next t) (ht : t.fault = false) :
    meetsUnread s (packAddr s) (partialBytes s) = false := by
  refine Bool.eq_false_iff.mpr fun hhit => ?_
  cases (execFlush_of_hit hhit).symm.trans h
  exact Bool.noConfusion ht

/-! A byte-aligned field. -/

theorem putBytes_of_no_space {i : Instr} {bytes : List Byte} {s : State}
    (h : s.wCap.toNat < alignedOffset s + bytes.length) : putBytes i bytes s = .next { s with ok := false } := if_pos h

theorem putBytes_of_hit {i : Instr} {bytes : List Byte} {s : State}
    (hfits : alignedOffset s + bytes.length ≤ s.wCap.toNat)
    (h : meetsUnread s (packAddr s) (partialBytes s + bytes.length) = true) :
    putBytes i bytes s = .next (faultEntry .aliased (encode i) s) :=
  (if_neg (Nat.not_lt.mpr hfits)).trans (if_pos h)

theorem putBytes_of_clear {i : Instr} {bytes : List Byte} {s : State}
    (hfits : alignedOffset s + bytes.length ≤ s.wCap.toNat)
    (h : meetsUnread s (packAddr s) (partialBytes s + bytes.length) = false) :
    putBytes i bytes s = .next { refill (appendAligned bytes s) with ok := true } :=
  (if_neg (Nat.not_lt.mpr hfits)).trans (if_neg (Bool.eq_false_iff.mp h))

theorem execPutAligned_of_width {n : BitVec 6} {esz : ElemSize} {s : State} (hpos : 1 ≤ n.toNat)
    (hsize : n.toNat ≤ esz.sizeOf) :
    exec (.putAligned n esz) s = putBytes (.putAligned n esz) (bytesLE n.toNat s.arg.toNat) s := by
  rw [ElemSize.sizeOf_eq_elemBytes] at hsize
  exact if_neg (by omega)

/-- The partial bytes stay below the field put after them (R109, R186). -/
theorem appendAligned_partialBytes {s : State} (hm : s.mem.wf) (bytes : List Byte) {j : Nat} (hj : j < partialBytes s) :
    (appendAligned bytes s).mem.read (packAddr s + j) = s.wAcc.extractLsb' (8 * j) 8 := by
  rw [appendAligned_mem, Memory.sameOutside_writeBytes (alignFlush_wf hm) _ _ _, alignFlush_mem,
    Memory.read_writeLE_word hm _ hj]
  simp only [packAddr, alignedOffset]
  omega

/-- Byte `j` of the field is byte `j` of the word it is cut from (R52, R109). -/
theorem appendAligned_bytesLE {s : State} (hm : s.mem.wf) (v : Word) {n j : Nat} (hj : j < n) :
    (appendAligned (bytesLE n v.toNat) s).mem.read (packAddr s + partialBytes s + j) = v.extractLsb' (8 * j) 8 := by
  have hlen : j < (bytesLE n v.toNat).length := by rwa [bytesLE_length]
  rw [← ofNat_byte_of_word, ← bytesLE_getElem n v.toNat j hlen, ← appendAligned_holdsBytes hm _ j hlen, packAddr,
    alignedOffset, Nat.add_assoc s.wBase.toNat]

/-! The reservation. -/

/-- The partial bytes stored and the cursor moved past `count` bytes more (R110). -/
def reserved (count : Count) (s : State) : State :=
  { alignFlush s with
    wCommitted := BitVec.ofNat 32 (alignedOffset s + count.toNat)
    freeCount := if s.wBase.toNat + alignedOffset s < Config.addressSpace then s.freeCount else s.freeCount + 1 }

theorem execGetNextBytePtr_of_no_space {count : Count} {s : State}
    (h : s.wCap.toNat < alignedOffset s + count.toNat) :
    exec (.getNextBytePtr count) s = .next { s with ok := false, res := 0 } := if_pos h

section
variable {count : Count} {s : State} (hfits : alignedOffset s + count.toNat ≤ s.wCap.toNat)
include hfits

theorem execGetNextBytePtr_of_hit (h : meetsUnread s (packAddr s) (partialBytes s) = true) :
    exec (.getNextBytePtr count) s = .next (faultEntry .aliased (encode (.getNextBytePtr count)) s) :=
  (if_neg (Nat.not_lt.mpr hfits)).trans (if_pos h)

theorem execGetNextBytePtr_of_clear (h : meetsUnread s (packAddr s) (partialBytes s) = false) :
    exec (.getNextBytePtr count) s =
      .next { refill (reserved count s) with ok := true, res := reservedAddress s } :=
  (if_neg (Nat.not_lt.mpr hfits)).trans (if_neg (Bool.eq_false_iff.mp h))

end

/-- Below `2^64` the address of the reserved window is what `RES` receives, and no free value is taken (R110). -/
theorem reservedAddress_of_inSpace {s : State} (h : s.wBase.toNat + alignedOffset s < 2 ^ 64) :
    (reservedAddress s).toNat = s.wBase.toNat + alignedOffset s := by
  rw [reservedAddress, if_pos h, BitVec.toNat_ofNat, Nat.mod_eq_of_lt h]

theorem reserved_freeCount_of_inSpace {count : Count} {s : State} (h : s.wBase.toNat + alignedOffset s < 2 ^ 64) :
    (reserved count s).freeCount = s.freeCount := if_pos h

/-! After a non-aligned flush. -/

/-- An aligned flush after a non-aligned one stores the same bytes in the same place (R108). -/
theorem read_alignFlush_flushedBits {s : State} (hm : s.mem.wf) (a : Nat) :
    (alignFlush (flushedBits s)).mem.read a = (flushedBits s).mem.read a := by
  have hwf : (flushedBits s).mem.wf := Memory.writeLE_wf hm _ _ _
  have hsecond := Memory.read_writeLE hwf (packAddr s) (partialBytes s) s.wAcc.toNat a
  have hfirst := Memory.read_writeLE hm (packAddr s) (partialBytes s) s.wAcc.toNat a
  refine hsecond.trans ?_
  split
  next hin => exact (hfirst.trans (if_pos hin)).symm
  next => rfl

end Sys2Proof.Machine
end

section
/-! SUPPORT. Sequences of PUT_VALUE: when one goes through, and the logical output it leaves (spec/40_packer.md R112,
R113). -/

namespace Sys2Proof.Machine

/-! One command of a sequence. -/

/-- The state after a PUT_VALUE of the low `n` bits of `v` that passes its checks. -/
def putNext (n : BitVec 6) (v : Word) (s : State) : State :=
  { packed n.toNat { s with arg := v } with ok := true }

/-- `t` differs from `s` in the command port, the packer's cursor and accumulator, memory and the window alone: what a
sequence of PUT_VALUE may change. -/
def PutFrame (s t : State) : Prop :=
  t = { s with
    arg := t.arg, ok := t.ok, wAcc := t.wAcc, wCommitted := t.wCommitted, wPending := t.wPending, mem := t.mem
    rWindow := t.rWindow }

theorem PutFrame.trans {s t u : State} (hst : PutFrame s t) (htu : PutFrame t u) : PutFrame s u := by
  unfold PutFrame at *
  rw [htu, hst]

theorem putFrame_putNext (n : BitVec 6) (v : Word) (s : State) : PutFrame s (putNext n v s) := by
  unfold PutFrame putNext packed
  split
  · simp only [refill, packCarry]
  · rfl

theorem PutFrame.fault_eq {s t : State} (h : PutFrame s t) : t.fault = s.fault := by
  unfold PutFrame at h
  rw [h]

/-- No PUT_VALUE binds another buffer or touches the flag of a non-aligned flush (R106). -/
theorem PutFrame.binding_eq {s t : State} (h : PutFrame s t) :
    t.wBase = s.wBase ∧ t.wCap = s.wCap ∧ t.wNaf = s.wNaf := by
  unfold PutFrame at h
  rw [h]
  exact ⟨rfl, rfl, rfl⟩

/-- A sequence of PUT_VALUE meets the unread region no more than its buffer did before it. -/
theorem PutFrame.meetsUnread_eq {s t : State} (h : PutFrame s t) (lo len : Nat) :
    meetsUnread t lo len = meetsUnread s lo len := by
  unfold PutFrame at h
  rw [h]
  rfl

section
variable {n : BitVec 6} {v : Word} {s : State} (hadmits : PutAdmits n { s with arg := v })
include hadmits

/-- A PUT_VALUE that passes its checks is followed by the rest of its sequence. -/
theorem PutAdmits.putAll_cons (hs : s.fault = false) (rest : List (BitVec 6 × Word)) :
    putAll ((n, v) :: rest) s = putAll rest (putNext n v s) := by
  have hfault : (putNext n v s).fault = false := (putFrame_putNext n v s).fault_eq.trans hs
  rw [putAll, hadmits.exec_eq]
  exact if_pos (by rw [Bool.and_eq_true, Bool.not_eq_true']; exact ⟨rfl, hfault⟩)

variable (hcursor : PackerCursor s)
include hcursor

theorem PutAdmits.wpos_putNext : wpos (putNext n v s) = wpos s + n.toNat :=
  hadmits.wpos_packed (hcursor.congr rfl rfl rfl rfl)

theorem PutAdmits.packerCursor_putNext : PackerCursor (putNext n v s) :=
  (hadmits.packerDone.keeps_packerCursor (hcursor.congr rfl rfl rfl rfl)).congr rfl rfl rfl rfl

theorem PutAdmits.packedBit_putNext (hm : s.mem.wf) {p : Nat} (hp : p < wpos s + n.toNat) :
    packedBit (putNext n v s) p = if p < wpos s then packedBit s p else v.getLsbD (p - wpos s) :=
  hadmits.packedBit_packed (hcursor.congr rfl rfl rfl rfl) hm hp

end

theorem putNext_wf (n : BitVec 6) (v : Word) {s : State} (hm : s.mem.wf) : (putNext n v s).mem.wf := by
  unfold putNext packed
  split
  · exact Memory.writeLE_wf hm _ _ _
  · exact hm

/-- The first command of a sequence that goes through has passed its checks. -/
theorem putAdmits_of_putAll_cons {n : BitVec 6} {v : Word} {rest : List (BitVec 6 × Word)} {s t : State}
    (h : putAll ((n, v) :: rest) s = some t) : PutAdmits n { s with arg := v } := by
  rw [putAll] at h
  split at h
  next u hexec =>
    split at h
    next hended =>
      rw [Bool.and_eq_true, Bool.not_eq_true'] at hended
      exact .of_ok hexec hended.2 hended.1
    next => cases h
  next => cases h
  next => cases h

/-! The bits of a sequence. -/

theorem totalWidth_nil : totalWidth [] = 0 := rfl

theorem totalWidth_cons (n : BitVec 6) (v : Word) (rest : List (BitVec 6 × Word)) :
    totalWidth ((n, v) :: rest) = n.toNat + totalWidth rest := List.sum_cons

/-- Bit `p` of the stream of a sequence's values in order, each least significant bit first (R13, R113). -/
def valuesBit : List (BitVec 6 × Word) → Nat → Bool
  | [], _ => false
  | (n, v) :: rest, p => if p < n.toNat then v.getLsbD p else valuesBit rest (p - n.toNat)

/-- Value `j` lies at the sum of the widths before it (R113). -/
theorem valuesBit_at {vs : List (BitVec 6 × Word)} {j i : Nat} (hj : j < vs.length) (hi : i < vs[j].1.toNat) :
    valuesBit vs (totalWidth (vs.take j) + i) = vs[j].2.getLsbD i := by
  induction vs generalizing j with
  | nil => exact absurd hj (Nat.not_lt_zero j)
  | cons p rest ih =>
    obtain ⟨n, v⟩ := p
    cases j with
    | zero =>
      rw [List.take_zero, totalWidth_nil, Nat.zero_add, valuesBit]
      exact if_pos hi
    | succ j =>
      rw [List.take_succ_cons, totalWidth_cons, Nat.add_assoc, valuesBit, if_neg (by omega), Nat.add_sub_cancel_left]
      exact ih (Nat.lt_of_succ_lt_succ hj) hi

/-- A value and those before it lie in the whole sequence. -/
theorem totalWidth_take_add_le {vs : List (BitVec 6 × Word)} {j : Nat} (hj : j < vs.length) :
    totalWidth (vs.take j) + vs[j].1.toNat ≤ totalWidth vs := by
  induction vs generalizing j with
  | nil => exact absurd hj (Nat.not_lt_zero j)
  | cons p rest ih =>
    obtain ⟨n, v⟩ := p
    cases j with
    | zero =>
      rw [List.take_zero, totalWidth_nil, Nat.zero_add, totalWidth_cons]
      exact Nat.le_add_right _ _
    | succ j =>
      rw [List.take_succ_cons, totalWidth_cons, totalWidth_cons, Nat.add_assoc]
      exact Nat.add_le_add_left (ih (Nat.lt_of_succ_lt_succ hj)) _

/-! The whole sequence. -/

/-- What a sequence of PUT_VALUE that goes through makes of `s`: its bits after the output of `s`, each value below `2^n`,
and the packer's invariants and everything else kept. -/
structure PutsAll (vs : List (BitVec 6 × Word)) (s t : State) : Prop where
  cursor : PackerCursor t
  canonical : t.mem.wf
  frame : PutFrame s t
  position : wpos t = wpos s + totalWidth vs
  values : ∀ p ∈ vs, p.2.toNat < 2 ^ p.1.toNat
  bits : ∀ p < wpos s + totalWidth vs,
    packedBit t p = if p < wpos s then packedBit s p else valuesBit vs (p - wpos s)

theorem putsAll_nil {s : State} (hcursor : PackerCursor s) (hm : s.mem.wf) : PutsAll [] s s where
  cursor := hcursor
  canonical := hm
  frame := rfl
  position := rfl
  values _ hp := absurd hp List.not_mem_nil
  bits _ hp := (if_pos hp).symm

theorem PutsAll.cons {n : BitVec 6} {v : Word} {rest : List (BitVec 6 × Word)} {s t : State}
    (hadmits : PutAdmits n { s with arg := v }) (hcursor : PackerCursor s) (hm : s.mem.wf)
    (h : PutsAll rest (putNext n v s) t) : PutsAll ((n, v) :: rest) s t := by
  have hnext := hadmits.wpos_putNext hcursor
  refine ⟨h.cursor, h.canonical, (putFrame_putNext n v s).trans h.frame, ?_,
    List.forall_mem_cons.mpr ⟨hadmits.value, h.values⟩, fun p hp => ?_⟩
  · rw [h.position, hnext, totalWidth_cons, Nat.add_assoc]
  · rw [totalWidth_cons] at hp
    rw [h.bits p (by omega), hnext, valuesBit]
    obtain hfirst | hrest := Nat.lt_or_ge p (wpos s + n.toNat)
    · rw [if_pos hfirst, hadmits.packedBit_putNext hcursor hm hfirst]
      obtain hold | hnew := Nat.lt_or_ge p (wpos s)
      · rw [if_pos hold, if_pos hold]
      · rw [if_neg (by omega), if_neg (by omega), if_pos (by omega)]
    · rw [if_neg (by omega), if_neg (by omega), if_neg (by omega), Nat.sub_add_eq]

theorem putsAll_of_putAll {vs : List (BitVec 6 × Word)} {s t : State} (hcursor : PackerCursor s) (hm : s.mem.wf)
    (hs : s.fault = false) (h : putAll vs s = some t) : PutsAll vs s t := by
  induction vs generalizing s with
  | nil =>
    cases h
    exact putsAll_nil hcursor hm
  | cons p rest ih =>
    obtain ⟨n, v⟩ := p
    have hadmits := putAdmits_of_putAll_cons h
    rw [hadmits.putAll_cons hs] at h
    exact .cons hadmits hcursor hm (ih (hadmits.packerCursor_putNext hcursor) (putNext_wf n v hm)
      ((putFrame_putNext n v s).fault_eq.trans hs) h)

/-- A sequence of admissible values whose widths fit the buffer goes through, where the buffer is clear of the unread
region and no non-aligned flush came last (R100, R106). -/
theorem putAll_of_fits {vs : List (BitVec 6 × Word)} {s : State} (hcursor : PackerCursor s) (hs : s.fault = false)
    (hnaf : s.wNaf = false) (hvalues : ∀ p ∈ vs, p.1.toNat ≤ 32 ∧ p.2.toNat < 2 ^ p.1.toNat)
    (hfits : wpos s + totalWidth vs ≤ 8 * s.wCap.toNat)
    (hclear : meetsUnread s s.wBase.toNat s.wCap.toNat = false) : ∃ t, putAll vs s = some t := by
  induction vs generalizing s with
  | nil => exact ⟨s, rfl⟩
  | cons p rest ih =>
    obtain ⟨n, v⟩ := p
    obtain ⟨⟨hwidth, hvalue⟩, hrest⟩ := List.forall_mem_cons.mp hvalues
    rw [totalWidth_cons] at hfits
    have hadmits : PutAdmits n { s with arg := v } := by
      refine ⟨hwidth, hvalue, hnaf, Nat.le_trans (Nat.add_le_add_left (Nat.le_add_right _ _) _) hfits, fun hfull => ?_⟩
      refine meetsUnread_mono (lo' := packAddr s) (len' := 8) hclear (Nat.le_add_right _ _) ?_
      simp only [wpos] at hfits
      simp only [packAddr] at hfull ⊢
      omega
    have hframe := putFrame_putNext n v s
    obtain ⟨hbase, hcap, hflag⟩ := hframe.binding_eq
    rw [hadmits.putAll_cons hs]
    refine ih (hadmits.packerCursor_putNext hcursor) (hframe.fault_eq.trans hs) (hflag.trans hnaf) hrest ?_ ?_
    · rw [hadmits.wpos_putNext hcursor, hcap, Nat.add_assoc]
      exact hfits
    · rw [hframe.meetsUnread_eq, hbase, hcap]
      exact hclear

/-- A PUT_VALUE of no bits leaves the packer as it is (R106). -/
theorem packed_zero {s : State} (hpending : s.wPending.toNat ≤ 63) (harg : s.arg = 0) : packed 0 s = s := by
  have hacc : s.wAcc ||| (s.arg <<< s.wPending.toNat) = s.wAcc := by rw [harg]; simp
  rw [packed_of_short (by omega), packShort_eq, hacc, Nat.add_zero, BitVec.ofNat_toNat, BitVec.setWidth_eq]

/-! The buffer after an aligned flush. -/

/-- An align-flush puts the logical output in the buffer, up to the byte boundary (R101, R103). -/
theorem streamBit_alignFlush {s : State} (hm : s.mem.wf) {p : Nat} (hp : p < 8 * alignedOffset s) :
    ((alignFlush s).mem.streamBit s.wBase.toNat p == 1) = packedBit s p := by
  rw [alignFlush_mem, packAddr]
  obtain hcommitted | hpending := Nat.lt_or_ge p (8 * s.wCommitted.toNat)
  · rw [packedBit_of_committed hcommitted, Memory.streamBit_writeLE_before hm _ hcommitted]
  · rw [packedBit_of_pending hpending, Memory.streamBit_writeLE_inside hm _ hpending hp]

end Sys2Proof.Machine
end

section
/-! The obligations of spec/40_packer.md. -/

namespace Sys2Proof

open Sys2Proof.Machine

/-- Settles O28: a fault is a fault entry, and a failure sets `STATUS.OK` and, where there is a value, `RES`. -/
theorem failedPackerCommandsAreAtomic : Obligations.FailedPackerCommandsAreAtomic := by
  intro i s t _ hs h
  refine ⟨fun hfault => ?_, fun hfault hok => (ends_of_exec h).eq_of_failed hfault hok⟩
  obtain ⟨c, rfl⟩ := (ends_of_exec h).eq_faultEntry hs hfault
  rfl

/-- Settles O30: the range check decides, and W_INIT has no other. -/
theorem wInitBindsTheBuffer : Obligations.WInitBindsTheBuffer := by
  intro cap s
  exact ⟨fun hpast => execWInit_of_fault (rangeFault_of_past hpast),
    fun hspace hbus => execWInit_of_fault (rangeFault_of_not_admitted hspace hbus),
    fun hspace hall => execWInit_of_none (rangeFault_of_admitted hspace hall)⟩

/-- Settles O31: the range check decides first, then whether the cursor fits the new capacity. -/
theorem wRebindKeepsTheCursor : Obligations.WRebindKeepsTheCursor := by
  intro cap s
  refine ⟨fun hpast => execWRebind_of_fault (rangeFault_of_past hpast),
    fun hspace hbus => execWRebind_of_fault (rangeFault_of_not_admitted hspace hbus), fun hspace hall => ?_⟩
  have hrange := rangeFault_of_admitted hspace hall
  exact ⟨fun hsmall => execWRebind_of_small hrange hsmall, fun hfits => execWRebind_of_fits hrange hfits⟩

/-- Settles O32: the checks in their order, then the accumulator short of 64 bits or its carry store. -/
theorem putValueOutcomes : Obligations.PutValueOutcomes := by
  intro n s hp hm nb P C acc at_
  refine ⟨execPutValue_of_wide, execPutValue_of_large, fun hwidth hvalue => ⟨execPutValue_of_naf hwidth hvalue,
    execPutValue_of_no_space hwidth hvalue, fun hnaf hfits => ⟨fun hshort => ?_, fun hfull hhit => ?_,
      fun hfull hclear => ?_⟩⟩⟩
  · have hadmits : PutAdmits n s := ⟨hwidth, hvalue, hnaf, hfits, fun hfull => absurd hfull (Nat.not_le.mpr hshort)⟩
    rw [hadmits.exec_eq, packed_of_short hshort, packShort_eq]
  · exact execPutValue_of_hit hwidth hvalue hnaf hfits hfull ((meetsUnread_iff _ _ _).mpr hhit)
  · have hadmits : PutAdmits n s := ⟨hwidth, hvalue, hnaf, hfits, fun _ => (meetsUnread_eq_false_iff _ _ _).mpr hclear⟩
    rw [hadmits.exec_eq, packed_of_full hfull, packCarry_eq hp.pending hfull]
    refine ⟨_, rfl, rfl, fun j hj => ?_, ?_, refill_windowExact _⟩
    · exact Memory.read_writeLE_word hm acc hj
    · exact Memory.sameOutside_writeLE hm _ _ _

/-- Settles O33: the output up to the new write position is the old one, then the bits of `ARG`. -/
theorem putValueAppendsItsBits : Obligations.PutValueAppendsItsBits := by
  intro n s t hp hm _ h hfault hok
  have hcursor := ((packerInv_iff s).mp hp).1
  have hadmits := PutAdmits.of_ok h hfault hok
  cases hadmits.exec_eq.symm.trans h
  refine ⟨hadmits.wpos_packed hcursor, fun p hlt => ?_, fun j hj => ?_⟩
  · exact (hadmits.packedBit_packed hcursor hm (by omega)).trans (if_pos hlt)
  · refine (hadmits.packedBit_packed hcursor hm (by omega)).trans ?_
    rw [if_neg (by omega), Nat.add_sub_cancel_left]

/-- Settles O34: the alias check decides, and both forms store the same bytes. -/
theorem flushStoresThePartialBytes : Obligations.FlushStoresThePartialBytes := by
  intro al s _ hm k at_
  refine ⟨fun hhit => execFlush_of_hit ((meetsUnread_iff _ _ _).mpr hhit), fun hclear => ?_⟩
  have hcheck : meetsUnread s (packAddr s) (partialBytes s) = false := (meetsUnread_eq_false_iff _ _ _).mpr hclear
  have hbytes : ∀ j < k, (s.mem.writeLE at_ k s.wAcc.toNat).read (at_ + j) = s.wAcc.extractLsb' (8 * j) 8 :=
    fun j hj => Memory.read_writeLE_word hm s.wAcc hj
  have hsame : sameOutside s.mem (s.mem.writeLE at_ k s.wAcc.toNat) at_ k := Memory.sameOutside_writeLE hm _ _ _
  cases al with
  | true => exact ⟨_, execFlush_aligned hcheck, rfl, hbytes, hsame, refill_windowExact _⟩
  | false => exact ⟨_, execFlush_bits hcheck, rfl, hbytes, hsame, refill_windowExact _⟩

/-- Settles O35: the flag stays set until W_INIT or an aligned flush, whose store is the one already made. -/
theorem nonAlignedFlushEndsBitPacking : Obligations.NonAlignedFlushEndsBitPacking := by
  intro s t _ hm hs h ht
  have hcheck := clear_of_execFlush h ht
  cases (execFlush_bits hcheck).symm.trans h
  refine ⟨fun n v hwidth hvalue => execPutValue_of_naf hwidth hvalue rfl, ?_, fun cap u hbind hu => ?_⟩
  · exact ⟨_, execFlush_aligned hcheck, hs, rfl, rfl, read_alignFlush_flushedBits hm⟩
  · rw [execWInit_bound hbind hu]
    rfl

/-- Settles O36: PUT_ALIGNED of an admissible width appends the low bytes of `ARG`. -/
theorem putAlignedWritesItsField : Obligations.PutAlignedWritesItsField := by
  intro n esz s _ hm hpos hsize k C at_
  have hlen := bytesLE_length n.toNat s.arg.toNat
  have hfield : ∀ j < n.toNat, (appendAligned (bytesLE n.toNat s.arg.toNat) s).mem.read (at_ + k + j) =
      s.arg.extractLsb' (8 * j) 8 :=
    fun j hj => appendAligned_bytesLE hm s.arg hj
  rw [execPutAligned_of_width hpos hsize]
  generalize bytesLE n.toNat s.arg.toNat = bytes at hlen hfield ⊢
  rw [← hlen] at hfield ⊢
  refine ⟨putBytes_of_no_space, fun hfits hhit => putBytes_of_hit hfits ((meetsUnread_iff _ _ _).mpr hhit),
    fun hfits hclear => ?_⟩
  exact ⟨_, putBytes_of_clear hfits ((meetsUnread_eq_false_iff _ _ _).mpr hclear), rfl,
    fun j hj => appendAligned_partialBytes hm bytes hj, hfield, appendAligned_sameOutside hm bytes,
    refill_windowExact _⟩

/-- Settles O37: the reservation's checks in order, then the align-flush alone stores. -/
theorem getNextBytePtrReserves : Obligations.GetNextBytePtrReserves := by
  intro count s _ hm k C at_
  refine ⟨execGetNextBytePtr_of_no_space, fun hfits hhit => ?_, fun hfits hclear => ?_⟩
  · exact execGetNextBytePtr_of_hit hfits ((meetsUnread_iff _ _ _).mpr hhit)
  · refine ⟨_, execGetNextBytePtr_of_clear hfits ((meetsUnread_eq_false_iff _ _ _).mpr hclear), rfl, fun hspace => ?_,
      fun j hj => Memory.read_writeLE_word hm s.wAcc hj, alignFlush_sameOutside hm, refill_windowExact _⟩
    have haddr : s.wBase.toNat + alignedOffset s = at_ + k := (Nat.add_assoc _ _ _).symm
    rw [← haddr] at hspace ⊢
    exact ⟨reservedAddress_of_inSpace hspace, reserved_freeCount_of_inSpace (count := count) hspace⟩

/-- Settles O39: the count is the offset of the next aligned field, which lies in the buffer. -/
theorem bytesWrittenCountsTheOutput : Obligations.BytesWrittenCountsTheOutput := by
  intro s
  exact ⟨rfl, fun hp => ((packerInv_iff s).mp hp).1.alignedOffset_le⟩

/-- Settles O40: the sequence fits the buffer, and leaves the write position at the buffer's end. -/
theorem capacityBoundary : Obligations.CapacityBoundary := by
  intro k s b vs hinv hs hbind hb htotal hvalues hclear
  cases execWInit_bound hbind hb
  have hempty := packerCursor_boundAt k s
  have hfits : wpos (boundAt k s) + totalWidth vs ≤ 8 * k.toNat := by rw [htotal, wpos_boundAt, Nat.zero_add]
  obtain ⟨t, ht⟩ := putAll_of_fits hempty hs rfl hvalues hfits ((meetsUnread_eq_false_iff _ _ _).mpr hclear)
  have hputs := putsAll_of_putAll hempty hinv.memory.canonical hs ht
  obtain ⟨-, hcap, hnaf⟩ : _ ∧ t.wCap = k ∧ t.wNaf = false := hputs.frame.binding_eq
  have hend : wpos t = 8 * t.wCap.toNat := by rw [hputs.position, htotal, wpos_boundAt, Nat.zero_add, hcap]
  refine ⟨t, ht, fun n v hpos hwidth hvalue => ?_, ?_, ?_⟩
  · refine execPutValue_of_no_space hwidth hvalue hnaf (show 8 * t.wCap.toNat < wpos t + n.toNat from ?_)
    omega
  · rw [execBytesWritten_at_end hend, hcap]
  · have hpending := hputs.cursor.pending
    have hadmits : PutAdmits 0 { t with arg := 0 } :=
      ⟨Nat.zero_le _, Nat.one_pos, hnaf, hend.le,
        fun hfull => absurd hfull (Nat.not_le.mpr (Nat.lt_succ_of_le hpending))⟩
    rw [hadmits.exec_eq]
    exact congrArg (fun u : State => Host.Outcome.next { u with ok := true })
      (packed_zero (s := { t with arg := 0 }) hpending rfl)

/-- Settles O41: the flushed buffer holds the logical output, which is the values' bits and zeros after them. -/
theorem outputContent : Obligations.OutputContent := by
  intro cap s b t u vs hinv hs hbind hb hput hflush hu B S
  cases execWInit_bound hbind hb
  have hempty := packerCursor_boundAt cap s
  have hputs := putsAll_of_putAll hempty hinv.memory.canonical hs hput
  obtain ⟨hbase, -, -⟩ : t.wBase = s.arg ∧ _ := hputs.frame.binding_eq
  have hend : wpos t = S := by rw [hputs.position, wpos_boundAt, Nat.zero_add]
  cases (execFlush_aligned (clear_of_execFlush hflush hu)).symm.trans hflush
  have hoff : alignedOffset t = (S + 7) / 8 := by rw [alignedOffset_eq, hend, ceil8]
  have hbit : ∀ p < 8 * ((S + 7) / 8), ((refill (alignFlush t)).mem.streamBit B p == 1) = packedBit t p := by
    intro p hp
    rw [refill_mem, ← streamBit_alignFlush hputs.canonical (hoff ▸ hp), hbase]
  refine ⟨fun j hj => ?_, ?_⟩
  · have hin := totalWidth_take_add_le hj
    refine Memory.streamBits_eq (hputs.values _ (List.getElem_mem hj)) fun i hi => ?_
    refine (hbit _ (by omega)).trans ?_
    rw [hputs.bits _ (by rw [wpos_boundAt]; omega), wpos_boundAt, if_neg (Nat.not_lt_zero _), Nat.sub_zero,
      valuesBit_at hj hi]
    rfl
  · refine Memory.streamBits_eq (Nat.two_pow_pos _) fun i hi => ?_
    refine (hbit _ (by omega)).trans ?_
    rw [hputs.cursor.packedBit_past (by omega), Nat.zero_testBit]

end Sys2Proof
end

section
/-! SUPPORT. Numbers read back from the data memory, and the read window as bits of the stream (spec/00_scope.md R11, R13,
spec/10_state.md R36, spec/41_unpacker.md R142, R148). -/

namespace Sys2Proof.Machine

/-! Numbers in memory. -/

theorem Memory.readLE_congr {m m' : Memory} {a n : Nat} (h : ∀ x, a ≤ x → x < a + n → m'.read x = m.read x) :
    m'.readLE a n = m.readLE a n := by
  induction n generalizing a with
  | zero => rfl
  | succ n ih =>
    rw [Memory.readLE, Memory.readLE, h a le_rfl (by omega), ih fun x hlo hhi => h x (by omega) (by omega)]

/-- `MemRead` after `MemWrite` of the same range reads the low bytes of the value (R11). -/
theorem Memory.readLE_writeLE {m : Memory} (hm : m.wf) (a n v : Nat) : (m.writeLE a n v).readLE a n = v % 256 ^ n := by
  induction n generalizing m a v with
  | zero => rw [Memory.readLE, Nat.pow_zero, Nat.mod_one]
  | succ n ih =>
    have hfirst : ((m.writeLE a (n + 1) v).read a).toNat = v % 256 := by
      rw [Memory.read_writeLE hm, if_pos (by omega), Nat.sub_self, Nat.pow_zero, Nat.div_one, BitVec.toNat_ofNat]
    rw [Memory.readLE, hfirst, Memory.writeLE, ih (Memory.write_wf hm _ _), Nat.pow_succ', Nat.mod_mul]

/-- A stream read from byte `b` of a buffer on is a read of the buffer's stream, `8 * b` bits further (R13). -/
theorem Memory.streamBits_add_base (m : Memory) (base b p n : Nat) :
    m.streamBits (base + b) p n = m.streamBits base (8 * b + p) n := by
  induction n generalizing p with
  | zero => rfl
  | succ n ih =>
    rw [Memory.streamBits, Memory.streamBits, ih, Memory.streamBit, Memory.streamBit,
      show base + b + p / 8 = base + (8 * b + p) / 8 by omega, show (8 * b + p) % 8 = p % 8 by omega, Nat.add_assoc]

/-! The window's unread bits. -/

/-- The window's bits from the cursor on are the buffer's stream bits in memory `m` (R36, R142). The window's consumed bits
may be out of date: GET_BATCH may have stored over them (R57). -/
def WindowReads (m : Memory) (s : State) : Prop :=
  ∀ q, s.rPending.toNat ≤ q → q < 64 → 8 * s.rConsumed.toNat + q < 8 * s.rCap.toNat →
    s.rWindow.getLsbD q = (m.streamBit s.rBase.toNat (8 * s.rConsumed.toNat + q) == 1)

/-- The bytes the reader has not consumed are those of memory `m` (R57). -/
def UnreadSame (m : Memory) (s : State) : Prop :=
  ∀ a, unreadLo s ≤ a → a < unreadHi s → s.mem.read a = m.read a

theorem UnreadSame.refl (s : State) : UnreadSame s.mem s := fun _ _ _ => rfl

/-- The byte that holds an unread stream bit is unread. -/
theorem UnreadSame.read_eq {m : Memory} {s : State} (h : UnreadSame m s) {p : Nat} (hlo : rPos s ≤ p)
    (hhi : p < 8 * s.rCap.toNat) : s.mem.read (s.rBase.toNat + p / 8) = m.read (s.rBase.toNat + p / 8) :=
  h _ (by rw [unreadLo]; omega) (by rw [unreadHi]; omega)

/-- Unread stream bits are the same in both memories (R13). -/
theorem UnreadSame.streamBits_eq {m : Memory} {s : State} (h : UnreadSame m s) {p n : Nat} (hlo : rPos s ≤ p)
    (hhi : p + n ≤ 8 * s.rCap.toNat) :
    s.mem.streamBits s.rBase.toNat p n = m.streamBits s.rBase.toNat p n :=
  Memory.streamBits_congr fun a ha hb => h a (by rw [unreadLo]; omega) (by rw [unreadHi]; omega)

/-- Bit `q` of the window is a stream bit of the buffer in any memory that has the byte that holds it (R13, R36). -/
theorem windowExact.getLsbD {m : Memory} {s : State} (h : windowExact s) {q : Nat} (hq : q < 64)
    (hin : 8 * s.rConsumed.toNat + q < 8 * s.rCap.toNat)
    (hbyte : s.mem.read (s.rBase.toNat + (8 * s.rConsumed.toNat + q) / 8) =
      m.read (s.rBase.toNat + (8 * s.rConsumed.toNat + q) / 8)) :
    s.rWindow.getLsbD q = (m.streamBit s.rBase.toNat (8 * s.rConsumed.toNat + q) == 1) := by
  have hwindow := congrArg (fun x => BitVec.getLsbD x (q % 8)) (h (q / 8) (by omega))
  rw [if_pos (by omega), Nat.add_assoc, show s.rConsumed.toNat + q / 8 = (8 * s.rConsumed.toNat + q) / 8 by omega,
    hbyte, BitVec.getLsbD_extractLsb', Nat.div_add_mod, decide_eq_true (Nat.mod_lt q (by omega)),
    Bool.true_and] at hwindow
  rw [hwindow, Memory.streamBit_eq_one, Nat.mul_add_mod]

/-- Where the window's equation holds and the unread bytes are those of `m`, the window reads `m`. -/
theorem UnreadSame.windowReads {m : Memory} {s : State} (h : UnreadSame m s) (hw : windowExact s) : WindowReads m s := by
  intro q hlo hq hin
  exact hw.getLsbD hq hin (h.read_eq (by rw [rPos]; omega) hin)

/-! One scalar value. -/

section
variable {m : Memory} {nb : Nat} {s : State}

/-- A value that reaches the window's end puts the cursor in the next eight bytes (R148). -/
theorem scalarAdvance_rConsumed_of_full (hfits : rPos s + nb ≤ 8 * s.rCap.toNat)
    (hfull : 64 ≤ s.rPending.toNat + nb) : (scalarAdvance nb s).rConsumed.toNat = s.rConsumed.toNat + 8 := by
  rw [rPos] at hfits
  rw [scalarAdvance_of_full hfull, refill_rConsumed, toNat_ofNat_of_le_count (cap := s.rCap) (by omega)]

theorem windowExact_scalarAdvance_of_full (hfull : 64 ≤ s.rPending.toNat + nb) : windowExact (scalarAdvance nb s) := by
  rw [scalarAdvance_of_full hfull]
  exact refill_windowExact _

/-- Bit `i` of the scalar value: of the window while it reaches, then of the window after it (R148). -/
theorem scalarValue_testBit {i : Nat} (hi : i < nb) :
    (scalarValue nb s).testBit i =
      if s.rPending.toNat + i < 64 then s.rWindow.getLsbD (s.rPending.toNat + i)
      else (scalarAdvance nb s).rWindow.getLsbD (s.rPending.toNat + i - 64) := by
  have hpending := s.rPending.isLt
  have hlow : ((s.rWindow.toNat >>> s.rPending.toNat) % 2 ^ nb).testBit i = s.rWindow.getLsbD (s.rPending.toNat + i) := by
    rw [Nat.testBit_mod_two_pow, decide_eq_true hi, Bool.true_and, Nat.testBit_shiftRight, BitVec.testBit_toNat]
  simp only [scalarValue, Config.accW]
  split
  next hstraddle =>
    rw [Nat.testBit_or, hlow, Nat.testBit_shiftLeft, Nat.testBit_mod_two_pow, BitVec.testBit_toNat]
    split
    next hin => rw [decide_eq_false (by omega), Bool.false_and, Bool.or_false]
    next hpast =>
      rw [BitVec.getLsbD_of_ge _ _ (Nat.le_of_not_lt hpast), decide_eq_true (by omega), decide_eq_true (by omega),
        Bool.false_or, Bool.true_and, Bool.true_and]
      congr 1
      omega
  next => rw [hlow, if_pos (by omega)]

theorem scalarValue_lt (nb : Nat) (s : State) : scalarValue nb s < 2 ^ nb := by
  have hpending := s.rPending.isLt
  have hlow : (s.rWindow.toNat >>> s.rPending.toNat) % 2 ^ nb < 2 ^ nb := Nat.mod_lt _ (Nat.two_pow_pos nb)
  simp only [scalarValue, Config.accW]
  split
  next hstraddle =>
    refine Nat.or_lt_two_pow hlow ?_
    rw [Nat.shiftLeft_eq]
    calc _ < 2 ^ (s.rPending.toNat + nb - 64) * 2 ^ (nb - (s.rPending.toNat + nb - 64)) :=
          Nat.mul_lt_mul_of_pos_right (Nat.mod_lt _ (Nat.two_pow_pos _)) (Nat.two_pow_pos _)
      _ = 2 ^ nb := by rw [← Nat.pow_add]; congr 1; omega
  next => exact hlow

variable (hnb : nb ≤ 32) (hfits : rPos s + nb ≤ 8 * s.rCap.toNat)
include hnb hfits

/-- What is unread after a scalar value was unread before it. -/
theorem UnreadSame.advance (h : UnreadSame m s) : UnreadSame m (scalarAdvance nb s) := by
  intro a hlo hhi
  rw [scalarAdvance_mem]
  simp only [unreadLo, unreadHi, rPos_scalarAdvance hnb hfits, scalarAdvance_rBase, scalarAdvance_rCap] at hlo hhi
  exact h a (by rw [unreadLo]; omega) hhi

/-- `ScalarGet` leaves a window that reads the same memory: the same window short of its end, a refilled one past it. -/
theorem WindowReads.advance (hw : WindowReads m s) (h : UnreadSame m s) : WindowReads m (scalarAdvance nb s) := by
  obtain hfull | hshort := le_or_gt 64 (s.rPending.toNat + nb)
  · exact (h.advance hnb hfits).windowReads (windowExact_scalarAdvance_of_full hfull)
  · rw [scalarAdvance_of_short hshort]
    intro q hlo
    rw [BitVec.toNat_ofNat, Nat.mod_eq_of_lt (by omega)] at hlo
    exact hw q (by omega)

/-- `ScalarGet` through a window that reads `m` is a read of the stream in `m` (R142, R148). -/
theorem WindowReads.scalarValue_eq (hw : WindowReads m s) (h : UnreadSame m s) :
    scalarValue nb s = m.streamBits s.rBase.toNat (rPos s) nb := by
  refine (Memory.streamBits_eq (scalarValue_lt nb s) fun i hi => ?_).symm
  have hpos : rPos s = 8 * s.rConsumed.toNat + s.rPending.toNat := rfl
  rw [scalarValue_testBit hi]
  split
  next hin =>
    rw [hw _ (by omega) hin (by omega), hpos, Nat.add_assoc]
  next hpast =>
    have hfull : 64 ≤ s.rPending.toNat + nb := by omega
    have hconsumed := scalarAdvance_rConsumed_of_full hfits hfull
    have hbit : 8 * (scalarAdvance nb s).rConsumed.toNat + (s.rPending.toNat + i - 64) = rPos s + i := by omega
    rw [(windowExact_scalarAdvance_of_full hfull).getLsbD (m := m) (by omega), hbit, scalarAdvance_rBase]
    · rw [hbit, scalarAdvance_rCap]
      omega
    · rw [hbit, scalarAdvance_rBase, scalarAdvance_mem]
      exact h.read_eq (by omega) (by omega)

end

/-- Under the reader's invariant a scalar value is a read of the stream in the memory as it stands (R142). -/
theorem ReaderInv.scalarValue_eq {nb : Nat} {s : State} (h : ReaderInv s) (hnb : nb ≤ 32)
    (hfits : rPos s + nb ≤ 8 * s.rCap.toNat) : scalarValue nb s = s.mem.streamBits s.rBase.toNat (rPos s) nb :=
  ((UnreadSame.refl s).windowReads h.window).scalarValue_eq hnb hfits (.refl s)

end Sys2Proof.Machine
end

section
/-! SUPPORT. The array GET_BATCH leaves: the architectural result read back, and written in bulk (spec/41_unpacker.md R146,
R149). -/

namespace Sys2Proof.Machine

section
variable {m acc : Memory} {base p0 nb E out : Nat}

theorem batchMemory_wf (hacc : acc.wf) (k : Nat) : (batchMemory m base p0 nb E out acc k).wf := by
  induction k with
  | zero => exact hacc
  | succ k ih => exact Memory.writeLE_wf ih _ _ _

theorem batchMemory_sameOutside (hacc : acc.wf) (k : Nat) :
    sameOutside acc (batchMemory m base p0 nb E out acc k) out (k * E) := by
  induction k with
  | zero => exact fun _ _ => rfl
  | succ k ih =>
    have hwf : (batchMemory m base p0 nb E out acc k).wf := batchMemory_wf hacc k
    intro a ha
    rw [Nat.succ_mul] at ha
    rw [batchMemory, Memory.sameOutside_writeLE hwf _ _ _ a (by omega), ih a (by omega)]

/-- Element `i` of the result reads back as the stream's value cut to the element (R14, R146). -/
theorem batchMemory_readLE (hacc : acc.wf) {i k : Nat} (hi : i < k) :
    (batchMemory m base p0 nb E out acc k).readLE (out + i * E) E =
      m.streamBits base (p0 + i * nb) nb % 2 ^ (8 * E) := by
  induction k with
  | zero => exact absurd hi (Nat.not_lt_zero i)
  | succ k ih =>
    have hwf : (batchMemory m base p0 nb E out acc k).wf := batchMemory_wf hacc k
    rw [batchMemory]
    obtain hearlier | rfl := Nat.lt_succ_iff_lt_or_eq.mp hi
    · have hbefore := Nat.mul_le_mul_right E (Nat.succ_le_of_lt hearlier)
      rw [Nat.succ_mul] at hbefore
      rw [← ih hearlier]
      exact Memory.readLE_congr fun x _ hx => Memory.sameOutside_writeLE hwf _ _ _ x (by omega)
    · rw [Memory.readLE_writeLE hwf, convElem, Nat.pow_mul, Nat.mod_mod]

/-- Values written in bulk after the first `i` elements extend the result, where they are the stream's values (R149). -/
theorem writeElems_batchMemory {vals : List (BitVec 32)} {i : Nat}
    (hvals : ∀ j (h : j < vals.length), vals[j].toNat = m.streamBits base (p0 + (i + j) * nb) nb) :
    writeElems (batchMemory m base p0 nb E out acc i) E out i vals =
      batchMemory m base p0 nb E out acc (i + vals.length) := by
  induction vals generalizing i with
  | nil => rfl
  | cons v vals ih =>
    have hfirst := hvals 0 (Nat.zero_lt_succ _)
    rw [List.getElem_cons_zero, Nat.add_zero] at hfirst
    rw [writeElems, hfirst, ← batchMemory, ih, Nat.succ_add_eq_add_succ, List.length_cons]
    intro j hj
    have hrest := hvals (j + 1) (Nat.succ_lt_succ hj)
    rwa [List.getElem_cons_succ, ← Nat.succ_add_eq_add_succ] at hrest

end

/-- What one iteration of the bulk loop writes: the whole groups among the values it was given, directly or through the
intermediate buffer (R149, R150). -/
theorem bulkStep_writes (nb E out i left : Nat) (s : State) :
    ∃ max, max ≤ left ∧
      (bulkStep nb E out i left s).1 = (unpack32 s.mem (s.rBase.toNat + rPos s / 8) max nb).length ∧
      (bulkStep nb E out i left s).2.mem =
        writeElems s.mem E out i (unpack32 s.mem (s.rBase.toNat + rPos s / 8) max nb) := by
  unfold bulkStep
  split
  · exact ⟨left, le_rfl, rfl, rfl⟩
  · refine ⟨min Config.convBufSize left, Nat.min_le_right _ _, rfl, ?_⟩
    dsimp only
    rw [List.take_left]

end Sys2Proof.Machine
end

section
/-! SUPPORT. The phases of GET_BATCH leave the architectural result: an invariant of the values done so far, kept by one
scalar value and by one bulk iteration (spec/41_unpacker.md R146 to R152). -/

namespace Sys2Proof.Machine

theorem ReadFrame.binding_eq {s u : State} (h : ReadFrame s u) :
    u.rBase = s.rBase ∧ u.rCap = s.rCap ∧ u.admitted = s.admitted := by
  unfold ReadFrame at h
  rw [h]
  exact ⟨rfl, rfl, rfl⟩

/-- At a byte boundary the values of the bulk unit are the next unread values of the stream (R149). -/
theorem UnreadSame.unpack32_toNat {m : Memory} {u : State} (h : UnreadSame m u) {nb max j : Nat} (hnb : nb ≤ 32)
    (haligned : rPos u % 8 = 0) (hfits : rPos u + max * nb ≤ 8 * u.rCap.toNat)
    (hj : j < (unpack32 u.mem (u.rBase.toNat + rPos u / 8) max nb).length) :
    (unpack32 u.mem (u.rBase.toNat + rPos u / 8) max nb)[j].toNat =
      m.streamBits u.rBase.toNat (rPos u + j * nb) nb := by
  have hvalue := Nat.mul_le_mul_right nb (show j + 1 ≤ max by rw [unpack32_length] at hj; omega)
  rw [Nat.succ_mul] at hvalue
  have hwide : u.mem.streamBits (u.rBase.toNat + rPos u / 8) (j * nb) nb < 2 ^ 32 :=
    (Memory.streamBits_lt _ _ _ _).trans_le (Nat.pow_le_pow_right (by omega) hnb)
  rw [unpack32_getElem, BitVec.toNat_ofNat, Nat.mod_eq_of_lt hwide, Memory.streamBits_add_base,
    Nat.mul_div_cancel' (Nat.dvd_of_mod_eq_zero haligned), h.streamBits_eq (by omega) (by omega)]

/-- `u` is `s` with the first `i` values of the batch delivered: their elements written, the position past them (R146). -/
structure BatchDone (nb E out : Nat) (s : State) (i : Nat) (u : State) : Prop where
  frame : ReadFrame s u
  elements : u.mem = batchMemory s.mem s.rBase.toNat (rPos s) nb E out s.mem i
  position : rPos u = rPos s + i * nb

section
variable {nb E out count i : Nat} {s u : State}

theorem batchDone_zero (nb E out : Nat) (s : State) : BatchDone nb E out s 0 s :=
  ⟨.refl s, rfl, by rw [Nat.zero_mul, Nat.add_zero]⟩

theorem BatchDone.refill (h : BatchDone nb E out s i u) : BatchDone nb E out s i (refill u) :=
  ⟨h.frame.trans (readFrame_refill u), (refill_mem u).trans h.elements, (rPos_refill u).trans h.position⟩

/-- The next values of a batch lie in the unread bits (R147). -/
theorem BatchDone.fits (h : BatchDone nb E out s i u) (hfits : rPos s + count * nb ≤ 8 * s.rCap.toNat) {k : Nat}
    (hk : i + k ≤ count) :
    rPos u + k * nb ≤ 8 * u.rCap.toNat := by
  obtain ⟨-, hcap, -⟩ := h.frame.binding_eq
  have hinside := Nat.mul_le_mul_right nb hk
  rw [Nat.add_mul] at hinside
  rw [h.position, hcap]
  omega

section
variable (hm : s.mem.wf) (hclear : meetsUnread s out (count * E) = false)
include hm hclear

/-- An array clear of the unread region leaves what is still unread (R57). -/
theorem BatchDone.unreadSame (h : BatchDone nb E out s i u) (hi : i ≤ count) : UnreadSame s.mem u := by
  intro a hlo hhi
  obtain ⟨hbase, hcap, -⟩ := h.frame.binding_eq
  have hstart : unreadLo s ≤ a := by
    have hpos := h.position
    rw [unreadLo, hbase] at hlo
    rw [unreadLo]
    omega
  have hend : a < unreadHi s := by rwa [unreadHi, hbase, hcap] at hhi
  have harray := Nat.mul_le_mul_right E hi
  rw [h.elements]
  refine batchMemory_sameOutside hm i a ?_
  by_contra hin
  exact not_unread_of_meetsUnread_eq_false hclear (by omega) (by omega) ⟨hstart, hend⟩

variable (hfits : rPos s + count * nb ≤ 8 * s.rCap.toNat)
include hfits

/-- A scalar value through a window that reads the memory before the command is the next value of the batch (R148). -/
theorem BatchDone.scalarStep (h : BatchDone nb E out s i u) (hw : WindowReads s.mem u) (hnb : nb ≤ 32) (hi : i < count) :
    BatchDone nb E out s (i + 1) (scalarStep nb E out i u) ∧ WindowReads s.mem (scalarStep nb E out i u) := by
  obtain ⟨hbase, -, -⟩ := h.frame.binding_eq
  have hnext : rPos u + nb ≤ 8 * u.rCap.toNat := by simpa using h.fits hfits (k := 1) hi
  have hunread := h.unreadSame hm hclear hi.le
  refine ⟨⟨h.frame.trans (readFrame_scalarStep nb E out i u), ?_, ?_⟩, hw.advance hnb hnext hunread⟩
  · rw [batchMemory, ← h.elements, ← hbase, ← h.position, ← hw.scalarValue_eq hnb hnext hunread]
    rfl
  · rw [Nat.succ_mul, ← Nat.add_assoc, ← h.position]
    exact rPos_scalarAdvance hnb hnext

/-- A bulk iteration at a byte boundary delivers the next values of the batch (R149). -/
theorem BatchDone.bulkStep (h : BatchDone nb E out s i u) (hnb : nb ≤ 32) (haligned : rPos u % 8 = 0) (hi : i ≤ count) :
    BatchDone nb E out s (i + (bulkStep nb E out i (count - i) u).1) (bulkStep nb E out i (count - i) u).2 := by
  obtain ⟨hbase, -, -⟩ := h.frame.binding_eq
  have hrest := h.fits hfits (k := count - i) (by omega)
  have hunread := h.unreadSame hm hclear hi
  refine ⟨h.frame.trans (readFrame_bulkStep nb E out i _ u), ?_, ?_⟩
  · obtain ⟨max, hmax, hcount, hmem⟩ := bulkStep_writes nb E out i (count - i) u
    have hvals : ∀ j (hj : j < (unpack32 u.mem (u.rBase.toNat + rPos u / 8) max nb).length),
        (unpack32 u.mem (u.rBase.toNat + rPos u / 8) max nb)[j].toNat =
          s.mem.streamBits s.rBase.toNat (rPos s + (i + j) * nb) nb := fun j hj => by
      rw [hunread.unpack32_toNat hnb haligned (h.fits hfits (by omega)) hj, hbase, h.position, Nat.add_mul,
        Nat.add_assoc]
    rw [hcount, hmem, ← writeElems_batchMemory hvals, ← h.elements]
  · rw [rPos_bulkStep haligned hrest, h.position, Nat.add_mul, Nat.add_assoc]

/-- GET_BATCH delivers all the values of a batch that the remaining bits satisfy (R146, R152). -/
theorem batchDone_batchPhases (hnb : nb ≤ 32) (hwindow : windowExact s) :
    BatchDone nb E out s count (batchPhases nb E out count s) := by
  have hscalar : ∀ i u, BatchDone nb E out s i u ∧ WindowReads s.mem u → i < count →
      BatchDone nb E out s (i + 1) (scalarStep nb E out i u) ∧ WindowReads s.mem (scalarStep nb E out i u) :=
    fun i u ⟨hu, hw⟩ hi => hu.scalarStep hm hclear hfits hw hnb hi
  obtain ⟨i, u, hhead, ⟨hu, -⟩, hi, haligned⟩ := headPhase_induction hscalar (Nat.zero_add count)
    ⟨batchDone_zero nb E out s, (UnreadSame.refl s).windowReads hwindow⟩
  obtain ⟨j, v, hbulk, hv, hj⟩ := bulkPhase_induction (k := count) (P := BatchDone nb E out s)
    (fun i u hu ha hi => hu.bulkStep hm hclear hfits hnb ha (by omega)) hi haligned hu
  have hrefilled : WindowReads s.mem (refill v) :=
    (hv.refill.unreadSame hm hclear hj).windowReads (refill_windowExact v)
  have htail := tailPhase_induction hscalar (k := count - j) (by omega) ⟨hv.refill, hrefilled⟩
  rw [batchPhases, hhead]
  dsimp only
  rw [hbulk]
  exact htail.1.refill

end

end

/-- The reader's invariant after GET_BATCH (R37). -/
theorem BatchDone.readerInv {nb E out count : Nat} {s t : State} (h : BatchDone nb E out s count t) (hs : ReaderInv s)
    (hfits : rPos s + count * nb ≤ 8 * s.rCap.toNat) (hwindow : windowExact t) : ReaderInv t := by
  obtain ⟨hbase, hcap, hadmitted⟩ := h.frame.binding_eq
  obtain ⟨-, hbound, -⟩ := (readerInv_iff s).mp hs
  exact (readerInv_iff t).mpr ⟨by rw [h.position, hcap]; exact hfits, hbound.congr hbase hcap hadmitted, hwindow⟩

end Sys2Proof.Machine
end

section
/-! SUPPORT. The unpacker's commands, each outcome as an equation under the checks that lead to it, and the results they
deliver (spec/41_unpacker.md R143 to R146, R153). -/

namespace Sys2Proof.Machine

/-- An unpacker command that can fail is one that produces a value (R143). -/
theorem producesValue_of_unpacker {i : Instr} (hunpacker : isPackerCommand i = false) (hfails : neverFails i = false) :
    producesValue i = true := by
  cases i with
  | wInit | wRebind | putValue | putAligned | getNextBytePtr | flush | putVlq | putZzvlq | bytesWritten =>
    exact Bool.noConfusion hunpacker
  | rInit => exact Bool.noConfusion hfails
  | getValue | getBatch | getAligned | getVlq | getZzvlq | bytesLeft => rfl

/-- A number below `2^64` is the value of its register (R9). -/
theorem toNat_zext64 {x : Nat} (h : x < 2 ^ 64) : (zext64 x).toNat = x := by
  rw [zext64, BitVec.toNat_ofNat, Nat.mod_eq_of_lt h]

theorem sizeOf_le_eight (e : ElemSize) : e.sizeOf ≤ 8 := by cases e <;> decide

theorem UnpackerDone.keeps_readerInv {s u : State} (h : UnpackerDone s u) (hs : ReaderInv s) : ReaderInv u := by
  obtain ⟨hpos, hbound, hwindow⟩ := (readerInv_iff s).mp hs
  exact (readerInv_iff u).mpr ⟨h.keeps_rPos_le hpos, h.keeps_readerBound hbound, h.keeps_window hwindow⟩

/-- The reader's invariant looks at neither the command port nor the status registers (R37). -/
theorem PortFrame.keeps_readerInv {u v : State} (h : PortFrame u v) (hu : ReaderInv u) : ReaderInv v := by
  obtain ⟨hpos, hconsumed, hspace, hbound, hwindow⟩ := hu
  unfold PortFrame at h
  rw [h]
  exact ⟨hpos, hconsumed, hspace, hbound, hwindow⟩

/-! R_INIT. -/

/-- The unpacker attached to the buffer of `cap` bytes at `ARG`, at position 0 (R144). -/
def attachedAt (cap : Count) (s : State) : State :=
  { refill { s with rBase := s.arg, rCap := cap, rConsumed := 0, rPending := 0 } with ok := true }

section
variable {cap : Count} {s : State}

theorem execRInit_of_fault {c : FaultCause} (h : rangeFault s s.arg.toNat cap.toNat = some c) :
    exec (.rInit cap) s = .next (faultEntry c (encode (.rInit cap)) s) := by
  simp only [exec, execRInit, h, raise]

theorem execRInit_of_none (h : rangeFault s s.arg.toNat cap.toNat = none) :
    exec (.rInit cap) s = .next (attachedAt cap s) := by
  simp only [exec, execRInit, h, succeed, attachedAt]

/-- An R_INIT without a fault has attached the unpacker to an admitted buffer. -/
theorem execRInit_attached {t : State} (h : exec (.rInit cap) s = .next t) (ht : t.fault = false) :
    rangeFault s s.arg.toNat cap.toNat = none ∧ t = attachedAt cap s := by
  cases hrange : rangeFault s s.arg.toNat cap.toNat with
  | some c =>
    cases (execRInit_of_fault hrange).symm.trans h
    exact Bool.noConfusion ht
  | none =>
    cases (execRInit_of_none hrange).symm.trans h
    exact ⟨rfl, rfl⟩

theorem readerInv_attachedAt (h : rangeFault s s.arg.toNat cap.toNat = none) : ReaderInv (attachedAt cap s) :=
  (readerInv_iff _).mpr ⟨Nat.zero_le _, (rangeFault_eq_none_iff _ _ _).mp h, refill_windowExact _⟩

end

/-! GET_VALUE. -/

/-- The state after a GET_VALUE of `n` bits that finds them (R145). -/
def valueRead (n : BitVec 6) (esz : ElemSize) (s : State) : State :=
  { scalarAdvance n.toNat s with ok := true, res := zext64 (convElem (elemBytes esz) (scalarValue n.toNat s)) }

section
variable {n : BitVec 6} {esz : ElemSize} {s : State} (hn : n.toNat ≤ 32)
include hn

theorem execGetValue_of_short (h : 8 * s.rCap.toNat < rPos s + n.toNat) :
    exec (.getValue n esz) s = .next { s with ok := false, res := 0 } :=
  (if_neg (Nat.not_lt.mpr hn)).trans (if_pos h)

variable (hfits : rPos s + n.toNat ≤ 8 * s.rCap.toNat)
include hfits

theorem execGetValue_of_fits : exec (.getValue n esz) s = .next (valueRead n esz s) :=
  (if_neg (Nat.not_lt.mpr hn)).trans (if_neg (Nat.not_lt.mpr hfits))

theorem rPos_valueRead : rPos (valueRead n esz s) = rPos s + n.toNat := rPos_scalarAdvance hn hfits

variable (hs : ReaderInv s)
include hs

/-- GET_VALUE delivers the stream's value cut to the element (R142, R145). -/
theorem ReaderInv.valueRead_res : (valueRead n esz s).res.toNat =
    s.mem.streamBits s.rBase.toNat (rPos s) n.toNat % 2 ^ (8 * esz.sizeOf) := by
  rw [← hs.scalarValue_eq hn hfits, ElemSize.sizeOf_eq_elemBytes]
  refine toNat_zext64 ((Nat.mod_le _ _).trans_lt ?_)
  exact (scalarValue_lt n.toNat s).trans_le (Nat.pow_le_pow_right (by omega) (by omega))

theorem ReaderInv.readerInv_valueRead : ReaderInv (valueRead n esz s) :=
  PortFrame.keeps_readerInv (u := scalarAdvance n.toNat s) rfl ((UnpackerDone.value n.toNat hn hfits).keeps_readerInv hs)

end

/-! GET_BATCH. -/

/-- The state after a GET_BATCH without a fault (R146). -/
def batchRead (n : BitVec 6) (esz : ElemSize) (batch : Count) (s : State) : State :=
  { batchPhases n.toNat (elemBytes esz) s.arg.toNat (batchCount n.toNat batch.toNat s) s with
    ok := true, res := zext64 (batchCount n.toNat batch.toNat s) }

@[simp] theorem batchRead_mem (n : BitVec 6) (esz : ElemSize) (batch : Count) (s : State) :
    (batchRead n esz batch s).mem =
      (batchPhases n.toNat (elemBytes esz) s.arg.toNat (batchCount n.toNat batch.toNat s) s).mem := by
  simp only [batchRead]

@[simp] theorem rPos_batchRead (n : BitVec 6) (esz : ElemSize) (batch : Count) (s : State) :
    rPos (batchRead n esz batch s) =
      rPos (batchPhases n.toNat (elemBytes esz) s.arg.toNat (batchCount n.toNat batch.toNat s) s) := by
  simp only [rPos, batchRead]

theorem statusFrame_batchRead (n : BitVec 6) (esz : ElemSize) (batch : Count) (s : State) :
    StatusFrame (batchPhases n.toNat (elemBytes esz) s.arg.toNat (batchCount n.toNat batch.toNat s) s)
      (batchRead n esz batch s) := by
  simp only [StatusFrame, batchRead]

/-- At its end GET_BATCH refills the window (R151). -/
theorem windowExact_batchRead (n : BitVec 6) (esz : ElemSize) (batch : Count) (s : State) :
    windowExact (batchRead n esz batch s) :=
  (statusFrame_batchRead n esz batch s).keeps_window (refill_windowExact _)

/-- The bytes of the output array of GET_BATCH: its elements are those the clamp admits (R146, R147). -/
def batchBytes (n : BitVec 6) (esz : ElemSize) (batch : Count) (s : State) : Nat :=
  batchCount n.toNat batch.toNat s * elemBytes esz

/-- The clamp admits only values that lie in the unread bits (R147). -/
theorem batchCount_fits {s : State} (hpos : rPos s ≤ 8 * s.rCap.toNat) (nb batch : Nat) :
    rPos s + batchCount nb batch s * nb ≤ 8 * s.rCap.toNat := by
  have hclamp := batchCount_mul_le nb batch s
  rw [remBits] at hclamp
  omega

section
variable {n : BitVec 6} {esz : ElemSize} {batch : Count} {s : State} (hn : n.toNat ≤ 32)
include hn

theorem execGetBatch_of_fault {c : FaultCause} (h : rangeFault s s.arg.toNat (batchBytes n esz batch s) = some c) :
    exec (.getBatch n esz batch) s = .next (faultEntry c (encode (.getBatch n esz batch)) s) := by
  rw [batchBytes] at h
  simp only [exec, execGetBatch, if_neg (Nat.not_lt.mpr hn), h, raise]

theorem execGetBatch_of_hit (hrange : rangeFault s s.arg.toNat (batchBytes n esz batch s) = none)
    (h : meetsUnread s s.arg.toNat (batchBytes n esz batch s) = true) :
    exec (.getBatch n esz batch) s = .next (faultEntry .aliased (encode (.getBatch n esz batch)) s) := by
  rw [batchBytes] at hrange h
  simp only [exec, execGetBatch, if_neg (Nat.not_lt.mpr hn), hrange, h, if_true, raise]

theorem execGetBatch_of_clear (hrange : rangeFault s s.arg.toNat (batchBytes n esz batch s) = none)
    (h : meetsUnread s s.arg.toNat (batchBytes n esz batch s) = false) :
    exec (.getBatch n esz batch) s = .next (batchRead n esz batch s) := by
  rw [batchBytes] at hrange h
  simp only [exec, execGetBatch, if_neg (Nat.not_lt.mpr hn), hrange, h, Bool.false_eq_true, if_false, succeedWith,
    batchRead]

/-- A GET_BATCH without a fault has passed the check of the unread region and delivered its elements. -/
theorem execGetBatch_read {t : State} (h : exec (.getBatch n esz batch) s = .next t) (ht : t.fault = false) :
    meetsUnread s s.arg.toNat (batchBytes n esz batch s) = false ∧ t = batchRead n esz batch s := by
  cases hrange : rangeFault s s.arg.toNat (batchBytes n esz batch s) with
  | some c =>
    cases (execGetBatch_of_fault hn hrange).symm.trans h
    exact Bool.noConfusion ht
  | none =>
    cases hclear : meetsUnread s s.arg.toNat (batchBytes n esz batch s) with
    | true =>
      cases (execGetBatch_of_hit hn hrange hclear).symm.trans h
      exact Bool.noConfusion ht
    | false =>
      cases (execGetBatch_of_clear hn hrange hclear).symm.trans h
      exact ⟨rfl, rfl⟩

variable (hs : ReaderInv s) (hm : s.mem.wf) (hclear : meetsUnread s s.arg.toNat (batchBytes n esz batch s) = false)
include hs hm hclear

theorem batchDone_batchRead : BatchDone n.toNat (elemBytes esz) s.arg.toNat s (batchCount n.toNat batch.toNat s)
    (batchPhases n.toNat (elemBytes esz) s.arg.toNat (batchCount n.toNat batch.toNat s) s) :=
  batchDone_batchPhases hm hclear (batchCount_fits hs.fits _ _) hn hs.window

/-- GET_BATCH leaves in element `i` the stream's value cut to the element (R142, R146). -/
theorem batchRead_readLE {i : Nat} (hi : i < batchCount n.toNat batch.toNat s) :
    (batchRead n esz batch s).mem.readLE (s.arg.toNat + i * esz.sizeOf) esz.sizeOf =
      s.mem.streamBits s.rBase.toNat (rPos s + i * n.toNat) n.toNat % 2 ^ (8 * esz.sizeOf) := by
  have helements := (batchDone_batchRead hn hs hm hclear).elements
  rw [ElemSize.sizeOf_eq_elemBytes, batchRead_mem, helements, batchMemory_readLE hm hi]

end

/-! GET_ALIGNED. -/

/-- The state after a GET_ALIGNED of `n` bytes that finds them (R153). -/
def alignedRead (n : BitVec 6) (s : State) : State :=
  { seekByte (ceil8 (rPos s) + n.toNat) s with
    ok := true, res := zext64 (s.mem.readLE (s.rBase.toNat + ceil8 (rPos s)) n.toNat) }

theorem statusFrame_alignedRead (n : BitVec 6) (s : State) :
    StatusFrame (seekByte (ceil8 (rPos s) + n.toNat) s) (alignedRead n s) := rfl

theorem rPos_alignedRead {n : BitVec 6} {s : State} (h : ceil8 (rPos s) + n.toNat ≤ s.rCap.toNat) :
    rPos (alignedRead n s) = 8 * (ceil8 (rPos s) + n.toNat) := by
  have hsame : rPos (alignedRead n s) = rPos (seekByte (ceil8 (rPos s) + n.toNat) s) := by
    simp only [rPos, alignedRead]
  rw [hsame, rPos_seekByte h]

/-- Moving to the byte after the field refills the window (R141, R153). -/
theorem windowExact_alignedRead (n : BitVec 6) (s : State) : windowExact (alignedRead n s) :=
  (statusFrame_alignedRead n s).keeps_window (refill_windowExact _)

section
variable {n : BitVec 6} {esz : ElemSize} {s : State} (hpos : 1 ≤ n.toNat) (hsize : n.toNat ≤ esz.sizeOf)
include hpos hsize

/-- Past the checks of the command the bytes left decide. -/
theorem execGetAligned_of_width : exec (.getAligned n esz) s =
    if s.rCap.toNat < ceil8 (rPos s) + n.toNat then failWithZero s else .next (alignedRead n s) := by
  rw [ElemSize.sizeOf_eq_elemBytes] at hsize
  exact (if_neg (Nat.one_le_iff_ne_zero.mp hpos)).trans (if_neg (Nat.not_lt.mpr hsize))

end

/-- Byte `j` of an aligned field of at most eight bytes, zero above the field (R52, R153). -/
theorem zext64_readLE_byte (m : Memory) (a : Nat) {n : Nat} (hn : n ≤ 8) (j : Nat) :
    (zext64 (m.readLE a n)).extractLsb' (8 * j) 8 = if j < n then m.read (a + j) else 0 := by
  have hlt := m.readLE_lt a n
  have hspace : (256 : Nat) ^ n ≤ 256 ^ 8 := Nat.pow_le_pow_right (by omega) hn
  rw [← ofNat_byte_of_word, toNat_zext64 (hlt.trans_le hspace)]
  split
  next hin => exact m.readLE_byte a n j hin
  next hout =>
    rw [Nat.div_eq_of_lt (hlt.trans_le (Nat.pow_le_pow_right (by omega) (Nat.le_of_not_lt hout)))]
    rfl

end Sys2Proof.Machine
end

section
/-! SUPPORT. Values packed at one width and read back in order (spec/41_unpacker.md R155). -/

namespace Sys2Proof.Machine

theorem totalWidth_map (n : BitVec 6) (vs : List Word) :
    totalWidth (vs.map fun v => (n, v)) = vs.length * n.toNat := by
  induction vs with
  | nil => rw [List.map_nil, totalWidth_nil, List.length_nil, Nat.zero_mul]
  | cons v vs ih => rw [List.map_cons, totalWidth_cons, ih, List.length_cons, Nat.succ_mul, Nat.add_comm]

/-- The values `vs` lie one after another, `n` bits each, in the stream from the read position on, before the buffer's end. -/
structure HoldsValues (n : BitVec 6) (vs : List Word) (s : State) : Prop where
  fits : rPos s + vs.length * n.toNat ≤ 8 * s.rCap.toNat
  values : ∀ j (h : j < vs.length),
    s.mem.streamBits s.rBase.toNat (rPos s + j * n.toNat) n.toNat = vs[j].toNat

/-- A reader attached to a buffer that holds the values from its first bit on reads them from position 0. -/
theorem holdsValues_attachedAt {n : BitVec 6} {vs : List Word} {c : Count} {s : State}
    (hfits : vs.length * n.toNat ≤ 8 * c.toNat)
    (hvalues : ∀ j (h : j < vs.length), s.mem.streamBits s.arg.toNat (j * n.toNat) n.toNat = vs[j].toNat) :
    HoldsValues n vs (attachedAt c s) := by
  have hpos : rPos (attachedAt c s) = 0 := rfl
  refine ⟨?_, fun j hj => ?_⟩
  · rw [hpos, Nat.zero_add]
    exact hfits
  · rw [hpos, Nat.zero_add]
    exact hvalues j hj

/-- Packing values at one width and flushing them puts value `j` at stream bit `j * n` of the buffer (R113), and keeps the
memory's form. -/
theorem flushed_values {cap : Count} {n : BitVec 6} {vs : List Word} {s b t u : State} (hinv : Inv s)
    (hs : s.fault = false) (hbind : exec (.wInit cap) s = .next b) (hb : b.fault = false)
    (hput : putAll (vs.map fun v => (n, v)) b = some t) (hflush : exec (.flush true) t = .next u)
    (hu : u.fault = false) :
    u.mem.wf ∧ ∀ j (h : j < vs.length), u.mem.streamBits s.arg.toNat (j * n.toNat) n.toNat = vs[j].toNat := by
  have hcontent := (outputContent cap s b t u _ hinv hs hbind hb hput hflush hu).1
  refine ⟨?_, fun j hj => ?_⟩
  · cases execWInit_bound hbind hb
    have hputs := putsAll_of_putAll (packerCursor_boundAt cap s) hinv.memory.canonical hs hput
    cases (execFlush_aligned (clear_of_execFlush hflush hu)).symm.trans hflush
    exact alignFlush_wf hputs.canonical
  · have hvalue := hcontent j (by rwa [List.length_map])
    rw [← List.map_take, totalWidth_map, List.length_take_of_le hj.le, List.getElem_map] at hvalue
    exact hvalue

/-- An element as wide as the values cuts nothing of them (R14, R155). -/
theorem HoldsValues.mod_eq {n : BitVec 6} {vs : List Word} {s : State} (h : HoldsValues n vs s) {esz : ElemSize}
    (hsize : n.toNat ≤ 8 * esz.sizeOf) {j : Nat} (hj : j < vs.length) :
    s.mem.streamBits s.rBase.toNat (rPos s + j * n.toNat) n.toNat % 2 ^ (8 * esz.sizeOf) = vs[j].toNat := by
  rw [Nat.mod_eq_of_lt, h.values j hj]
  exact (Memory.streamBits_lt _ _ _ _).trans_le (Nat.pow_le_pow_right (by omega) hsize)

section
variable {n : BitVec 6} {esz : ElemSize} {s : State} (hn : n.toNat ≤ 32) (hsize : n.toNat ≤ 8 * esz.sizeOf)

include hn hsize

/-- As many GET_VALUE commands as values read them in order. -/
theorem HoldsValues.getAll_eq {vs : List Word} (h : HoldsValues n vs s) (hs : ReaderInv s) (hfault : s.fault = false) :
    ∃ z, getAll n esz vs.length s = some (vs, z) := by
  induction vs generalizing s with
  | nil => exact ⟨s, rfl⟩
  | cons v vs ih =>
    have hall := h.fits
    rw [List.length_cons, Nat.succ_mul] at hall
    have hfits : rPos s + n.toNat ≤ 8 * s.rCap.toNat := by omega
    have hpos : rPos (valueRead n esz s) = rPos s + n.toNat := rPos_valueRead hn hfits
    have hres : (valueRead n esz s).res = v := by
      have hfirst := h.mod_eq hsize (Nat.zero_lt_succ _)
      rw [Nat.zero_mul, Nat.add_zero] at hfirst
      exact BitVec.eq_of_toNat_eq ((hs.valueRead_res hn hfits).trans hfirst)
    have hended : (valueRead n esz s).fault = false := (scalarAdvance_fault _ s).trans hfault
    have hrest : HoldsValues n vs (valueRead n esz s) := by
      refine ⟨?_, fun j hj => ?_⟩
      · rw [hpos, valueRead, scalarAdvance_rCap]
        omega
      · have hnext := h.values (j + 1) (Nat.succ_lt_succ hj)
        rw [List.getElem_cons_succ, Nat.succ_mul, Nat.add_comm (j * n.toNat), ← Nat.add_assoc] at hnext
        rw [hpos, valueRead, scalarAdvance_mem, scalarAdvance_rBase]
        exact hnext
    obtain ⟨z, hz⟩ := ih hrest (hs.readerInv_valueRead hn hfits) hended
    refine ⟨z, ?_⟩
    rw [List.length_cons, getAll, execGetValue_of_fits hn hfits]
    dsimp only
    rw [hended, hz, hres]
    rfl

/-- One GET_BATCH for as many values reads them in order into its array. -/
theorem HoldsValues.batchRead_eq {vs : List Word} (h : HoldsValues n vs s) (hs : ReaderInv s) (hm : s.mem.wf)
    (hpos : 1 ≤ n.toNat) (hlen : vs.length < 2 ^ 32)
    (hclear : meetsUnread s s.arg.toNat (batchBytes n esz (BitVec.ofNat 32 vs.length) s) = false) :
    (batchRead n esz (BitVec.ofNat 32 vs.length) s).res.toNat = vs.length ∧
    ∀ j (hj : j < vs.length), (batchRead n esz (BitVec.ofNat 32 vs.length) s).mem.readLE
      (s.arg.toNat + j * esz.sizeOf) esz.sizeOf = vs[j].toNat := by
  have hcount : batchCount n.toNat (BitVec.ofNat 32 vs.length).toNat s = vs.length := by
    have hfits := h.fits
    rw [BitVec.toNat_ofNat, Nat.mod_eq_of_lt hlen, batchCount, if_neg (by omega), Nat.min_eq_left]
    exact (Nat.le_div_iff_mul_le hpos).mpr (by rw [remBits]; omega)
  refine ⟨?_, fun j hj => ?_⟩
  · rw [batchRead, hcount]
    exact toNat_zext64 (by omega)
  · rw [batchRead_readLE hn hs hm hclear (hcount.symm ▸ hj), h.mod_eq hsize hj]

end

end Sys2Proof.Machine
end

section
/-! The obligations of spec/41_unpacker.md. -/

namespace Sys2Proof

open Sys2Proof.Machine

/-- Settles O50: the result of the command, and its value for the unattached reader. -/
theorem bytesLeftExcludesThePartialByte : Obligations.BytesLeftExcludesThePartialByte := by
  intro s
  refine ⟨rfl, fun hcap => ?_⟩
  have hzero : s.rCap.toNat - ceil8 (rPos s) = 0 := by rw [hcap]; exact Nat.zero_sub _
  rw [exec, execBytesLeft, hzero]
  rfl

/-- Settles O29: a failure sets `RES` and `STATUS.OK` alone, and GET_BATCH has none. -/
theorem failedReadsKeepTheCursor : Obligations.FailedReadsKeepTheCursor := by
  intro i s t hunpacker _ h ht
  refine ⟨fun hok => ?_, ?_⟩
  · have hfails : neverFails i = false := Bool.eq_false_iff.mpr fun hnever =>
      Bool.noConfusion (hok.symm.trans ((ends_of_exec h).ok_of_neverFails ht hnever))
    have heq := (ends_of_exec h).eq_of_failed ht hok
    rwa [producesValue_of_unpacker hunpacker hfails, if_pos rfl] at heq
  · rintro ⟨n, esz, batch, rfl⟩
    exact (ends_of_exec h).ok_of_neverFails ht rfl

/-- Settles O43: the range check decides, and the refill fills the window. -/
theorem rInitAttachesTheBuffer : Obligations.RInitAttachesTheBuffer := by
  intro cap s
  refine ⟨fun hpast => execRInit_of_fault (rangeFault_of_past hpast),
    fun hspace hbus => execRInit_of_fault (rangeFault_of_not_admitted hspace hbus), fun hspace hall => ?_⟩
  exact ⟨_, execRInit_of_none (rangeFault_of_admitted hspace hall), refill_windowExact _, rfl⟩

/-- Settles O44: the window's bits are the stream's, up to its end and past it. -/
theorem scalarGetReadsTheStream : Obligations.ScalarGetReadsTheStream := by
  intro nb s hs hnb hfits
  exact ⟨hs.scalarValue_eq hnb hfits, rPos_scalarAdvance hnb hfits⟩

/-- Settles O45: the bits left decide, and the value is one scalar read. -/
theorem getValueReadsTheStream : Obligations.GetValueReadsTheStream := by
  intro n esz s hs hn
  refine ⟨execGetValue_of_short hn, fun hfits => ⟨_, execGetValue_of_fits hn hfits, hs.valueRead_res hn hfits,
    rPos_valueRead hn hfits, (hs.readerInv_valueRead hn hfits).window, ?_⟩⟩
  rw [valueRead, scalarAdvance_unchanged]

/-- Settles O47: the clamped range's checks, in their order. -/
theorem getBatchFaultsOnItsOutput : Obligations.GetBatchFaultsOnItsOutput := by
  intro n esz batch s hn count out len word
  have hlen : len = batchBytes n esz batch s := congrArg Prod.snd (storedRange_getBatch n esz batch s)
  rw [hlen]
  refine ⟨fun hpast => execGetBatch_of_fault hn (rangeFault_of_past hpast),
    fun hspace hbus => execGetBatch_of_fault hn (rangeFault_of_not_admitted hspace hbus), fun hspace hall hhit => ?_⟩
  exact execGetBatch_of_hit hn (rangeFault_of_admitted hspace hall) ((meetsUnread_iff _ _ _).mpr hhit)

/-- Settles O48: each phase delivers the next values of the architectural result, whatever path it takes. -/
theorem batchPhasesMatchTheArchitecture : Obligations.BatchPhasesMatchTheArchitecture := by
  intro nb E out count s hinv hnb _ hfits _ hclear t
  have hdone : BatchDone nb E out s count t := batchDone_batchPhases hinv.memory.canonical
    ((meetsUnread_eq_false_iff _ _ _).mpr hclear) hfits hnb hinv.reader.window
  refine ⟨hdone.elements, hdone.position, hdone.readerInv hinv.reader hfits (refill_windowExact _),
    batchPhases_convBuf_length _ _ _ _ hinv.buffer, ?_⟩
  exact hdone.frame

/-- Settles O46: the phases' result, read back element by element. -/
theorem getBatchDeliversItsElements : Obligations.GetBatchDeliversItsElements := by
  intro n esz batch s hinv hn nb E count out hspace hall hclear
  have hlen : count * E = batchBytes n esz batch s := congrArg Prod.snd (storedRange_getBatch n esz batch s)
  have hm := hinv.memory.canonical
  rw [hlen] at hspace hall hclear ⊢
  have hunread := (meetsUnread_eq_false_iff _ _ _).mpr hclear
  have hdone := batchDone_batchRead hn hinv.reader hm hunread
  refine ⟨_, execGetBatch_of_clear hn (rangeFault_of_admitted hspace hall) hunread,
    fun i hi => batchRead_readLE hn hinv.reader hm hunread hi, ?_, ?_, windowExact_batchRead n esz batch s, ?_⟩
  · rw [batchRead_mem]
    exact batchPhases_sameOutside hm
  · rw [rPos_batchRead]
    exact hdone.position
  · have hframe := hdone.frame
    unfold ReadFrame at hframe
    exact congrArg (fun u : State => { u with ok := true, res := BitVec.ofNat 64 count }) hframe

/-- Settles O49: the bytes left decide, and the field is read at the rounded position. -/
theorem getAlignedReadsWholeBytes : Obligations.GetAlignedReadsWholeBytes := by
  intro n esz s _ hpos hsize a
  rw [execGetAligned_of_width hpos hsize]
  refine ⟨fun hshort => if_pos hshort, fun hfits => ⟨_, if_neg (Nat.not_lt.mpr hfits),
    fun j _ => zext64_readLE_byte _ _ (hsize.trans (sizeOf_le_eight esz)) j, rPos_alignedRead hfits,
    windowExact_alignedRead n s, rfl⟩⟩

/-- Settles O42: the flushed buffer holds the values in the stream, where both commands read them in order. -/
theorem roundTrip : Obligations.RoundTrip := by
  intro cap c nb esz s b t u r vs hinv hs hpos hn hsize hcap hbind hb hput hflush hu hattach hr
  have hbytes : nb.toNat ≤ 8 * esz.sizeOf := by omega
  obtain ⟨hwf, hvalues⟩ := flushed_values hinv hs hbind hb hput hflush hu
  obtain ⟨hrange, rfl⟩ := execRInit_attached hattach hr
  have hreader := readerInv_attachedAt hrange
  have hholds : HoldsValues nb vs (attachedAt c { u with arg := s.arg }) := holdsValues_attachedAt (by omega) hvalues
  refine ⟨hholds.getAll_eq hn hbytes hreader hr, fun out z hlen hbatch hz => ?_⟩
  obtain ⟨hclear, rfl⟩ := execGetBatch_read hn hbatch hz
  have hport : HoldsValues nb vs { attachedAt c { u with arg := s.arg } with arg := out } :=
    ⟨hholds.fits, hholds.values⟩
  exact hport.batchRead_eq hn hbytes (PortFrame.keeps_readerInv (u := attachedAt c _) rfl hreader) hwf hpos hlen hclear

end Sys2Proof
end

section
/-! SUPPORT. Zigzag on integers: the sign decides whether the shifted pattern is complemented (spec/42_varint_zigzag.md R183,
R184). -/

namespace Sys2Proof.Machine

/-- The arithmetic shift by 31 spreads the sign bit, so the code is the doubled pattern or its complement (R183). -/
theorem zigZagEncode_eq (x : BitVec 32) : zigZagEncode x = if x.msb then ~~~(x <<< 1) else x <<< 1 := by
  have hlt := x.isLt
  rw [zigZagEncode]
  cases hsign : x.msb with
  | true =>
    have hlow := BitVec.toNat_ge_of_msb_true hsign
    have hspread : ~~~x >>> 31 = 0#32 := by
      apply BitVec.eq_of_toNat_eq
      simp only [BitVec.toNat_ushiftRight, BitVec.toNat_not, Nat.shiftRight_eq_div_pow, BitVec.toNat_ofNat]
      omega
    rw [BitVec.sshiftRight_eq_of_msb_true hsign, hspread, BitVec.not_zero, BitVec.xor_allOnes, if_pos rfl]
  | false =>
    have hhigh := BitVec.toNat_lt_of_msb_false hsign
    have hspread : x >>> 31 = 0#32 := by
      apply BitVec.eq_of_toNat_eq
      simp only [BitVec.toNat_ushiftRight, Nat.shiftRight_eq_div_pow, BitVec.toNat_ofNat]
      omega
    rw [BitVec.sshiftRight_eq_of_msb_false hsign, hspread, BitVec.xor_zero, if_neg Bool.false_ne_true]

/-- The low bit of the code decides whether the halved code is complemented (R184). -/
theorem zigZagDecode_eq (u : BitVec 32) : zigZagDecode u = if u.toNat % 2 = 0 then u >>> 1 else ~~~(u >>> 1) := by
  have hbit : (u &&& 1).toNat = u.toNat % 2 := Nat.and_two_pow_sub_one_eq_mod u.toNat 1
  rw [zigZagDecode]
  split
  next heven =>
    have hlow : u &&& 1 = 0#32 := BitVec.eq_of_toNat_eq (hbit.trans heven)
    rw [hlow, BitVec.neg_zero, BitVec.xor_zero]
  next hodd =>
    have hlow : u &&& 1 = 1#32 := BitVec.eq_of_toNat_eq (hbit.trans (Nat.mod_two_ne_zero.mp hodd))
    rw [hlow, BitVec.neg_one_eq_allOnes, BitVec.xor_allOnes]

/-- The code as a number: `2x`, or `-2x - 1` for a negative `x` (R183). -/
theorem toNat_zigZagEncode (x : BitVec 32) :
    ((zigZagEncode x).toNat : Int) = if 0 ≤ x.toInt then 2 * x.toInt else -2 * x.toInt - 1 := by
  have hlt := x.isLt
  have hdouble : (x <<< 1).toNat = 2 * x.toNat % 2 ^ 32 := by
    rw [BitVec.toNat_shiftLeft, Nat.shiftLeft_eq, Nat.mul_comm, Nat.pow_one]
  rw [zigZagEncode_eq, BitVec.toInt_eq_msb_cond]
  cases hsign : x.msb with
  | true =>
    have hlow := BitVec.toNat_ge_of_msb_true hsign
    rw [if_pos rfl, if_pos rfl, if_neg (by omega), BitVec.toNat_not, hdouble]
    omega
  | false =>
    have hhigh := BitVec.toNat_lt_of_msb_false hsign
    rw [if_neg Bool.false_ne_true, if_neg Bool.false_ne_true, if_pos (by omega), hdouble]
    omega

/-- The number of a code: half of an even one, minus the half of an odd one rounded up (R184). -/
theorem toInt_zigZagDecode (u : BitVec 32) : (zigZagDecode u).toInt =
    if u.toNat % 2 = 0 then ((u.toNat / 2 : Nat) : Int) else -(((u.toNat + 1) / 2 : Nat) : Int) := by
  have hlt := u.isLt
  have hhalf : (u >>> 1).toNat = u.toNat / 2 := BitVec.toNat_ushiftRight u 1
  rw [zigZagDecode_eq, BitVec.toInt_eq_toNat_cond]
  split
  next => rw [hhalf, if_pos (by omega)]
  next => rw [BitVec.toNat_not, hhalf, if_neg (by omega)]; omega

/-- R185: decoding undoes encoding. -/
theorem zigZagDecode_zigZagEncode (x : BitVec 32) : zigZagDecode (zigZagEncode x) = x := by
  have hcode := toNat_zigZagEncode x
  have hback := toInt_zigZagDecode (zigZagEncode x)
  rw [← BitVec.toInt_inj]
  split at hcode <;> split at hback <;> omega

/-- R185: encoding undoes decoding. -/
theorem zigZagEncode_zigZagDecode (u : BitVec 32) : zigZagEncode (zigZagDecode u) = u := by
  have hback := toInt_zigZagDecode u
  have hcode := toNat_zigZagEncode (zigZagDecode u)
  rw [← BitVec.toNat_inj]
  split at hcode <;> split at hback <;> omega

theorem bijective_zigZagEncode : Function.Bijective zigZagEncode :=
  Function.bijective_iff_has_inverse.mpr ⟨zigZagDecode, zigZagDecode_zigZagEncode, zigZagEncode_zigZagDecode⟩

end Sys2Proof.Machine
end

section
/-! SUPPORT. The bytes of a varint: how many, and which (spec/42_varint_zigzag.md R180, R181). -/

namespace Sys2Proof.Machine

theorem toNat_ushiftRight_seven (u : BitVec 32) : (u >>> 7).toNat = u.toNat / 2 ^ 7 := by
  rw [BitVec.toNat_ushiftRight, Nat.shiftRight_eq_div_pow]

/-- The encoding loop ends where one group of seven bits is left (R180). -/
theorem and_high_eq_zero_iff (u : BitVec 32) : u &&& 0xFFFFFF80 = 0 ↔ u.toNat < 2 ^ 7 := by
  have hlt := u.isLt
  have hmask : (0xFFFFFF80 : BitVec 32) = BitVec.allOnes 32 <<< 7 := rfl
  have hzero : (0 : BitVec 32).toNat = 0 := rfl
  rw [hmask, ← BitVec.shiftLeft_ushiftRight, ← BitVec.toNat_inj, BitVec.toNat_shiftLeft, toNat_ushiftRight_seven,
    Nat.shiftLeft_eq, hzero]
  omega

/-! The encoding loop. -/

theorem vlqEncodeUpTo_of_last {u : BitVec 32} (k : Nat) (h : u &&& 0xFFFFFF80 = 0) :
    vlqEncodeUpTo k u = [(u &&& 0x7F).setWidth 8] := by
  cases k with
  | zero => rfl
  | succ k => exact if_pos h

theorem vlqEncodeUpTo_succ_of_more {u : BitVec 32} (k : Nat) (h : u &&& 0xFFFFFF80 ≠ 0) :
    vlqEncodeUpTo (k + 1) u = ((u &&& 0x7F) ||| 0x80).setWidth 8 :: vlqEncodeUpTo k (u >>> 7) := if_neg h

/-- A bound on the bytes that the value does not reach makes no difference. -/
theorem vlqEncodeUpTo_succ {k : Nat} {u : BitVec 32} (h : u.toNat < 2 ^ (7 * (k + 1))) :
    vlqEncodeUpTo (k + 1) u = vlqEncodeUpTo k u := by
  induction k generalizing u with
  | zero =>
    have hlast := (and_high_eq_zero_iff u).mpr h
    rw [vlqEncodeUpTo_of_last _ hlast, vlqEncodeUpTo_of_last _ hlast]
  | succ k ih =>
    by_cases hlast : u &&& 0xFFFFFF80 = 0
    · rw [vlqEncodeUpTo_of_last _ hlast, vlqEncodeUpTo_of_last _ hlast]
    · have hgroup : (u >>> 7).toNat < 2 ^ (7 * (k + 1)) := by
        rw [toNat_ushiftRight_seven]
        exact Nat.div_lt_of_lt_mul (h.trans_eq (Nat.pow_add' 2 (7 * (k + 1)) 7))
      rw [vlqEncodeUpTo_succ_of_more _ hlast, vlqEncodeUpTo_succ_of_more _ hlast, ih hgroup]

theorem vlqEncode_of_last {u : BitVec 32} (h : u &&& 0xFFFFFF80 = 0) : vlqEncode u = [(u &&& 0x7F).setWidth 8] :=
  vlqEncodeUpTo_of_last _ h

/-- The bound of five bytes never cuts the loop short (R180, R181). -/
theorem vlqEncode_of_more {u : BitVec 32} (h : u &&& 0xFFFFFF80 ≠ 0) :
    vlqEncode u = ((u &&& 0x7F) ||| 0x80).setWidth 8 :: vlqEncode (u >>> 7) := by
  have hlt := u.isLt
  have hshifted : (u >>> 7).toNat < 2 ^ 28 := by
    rw [toNat_ushiftRight_seven]
    omega
  have hbound : vlqEncode (u >>> 7) = vlqEncodeUpTo 3 (u >>> 7) := vlqEncodeUpTo_succ hshifted
  rw [hbound]
  exact vlqEncodeUpTo_succ_of_more 3 h

/-! The number of bytes. -/

theorem vlqLen_of_last {u : BitVec 32} (h : u &&& 0xFFFFFF80 = 0) : vlqLen u = 1 := by
  rw [vlqLen, vlqEncode_of_last h, List.length_singleton]

theorem vlqLen_of_more {u : BitVec 32} (h : u &&& 0xFFFFFF80 ≠ 0) : vlqLen u = vlqLen (u >>> 7) + 1 := by
  rw [vlqLen, vlqEncode_of_more h, List.length_cons, vlqLen]

/-- There is a byte `j` after the first where bits are left for it (R181). -/
theorem lt_vlqLen_iff (j : Nat) (u : BitVec 32) : j < vlqLen u ↔ j = 0 ∨ 2 ^ (7 * j) ≤ u.toNat := by
  induction j generalizing u with
  | zero =>
    refine iff_of_true ?_ (.inl rfl)
    by_cases hlast : u &&& 0xFFFFFF80 = 0
    · exact (vlqLen_of_last hlast).symm ▸ Nat.one_pos
    · exact (vlqLen_of_more hlast).symm ▸ Nat.succ_pos _
  | succ j ih =>
    have hpow : 2 ^ (7 * (j + 1)) = 2 ^ (7 * j) * 2 ^ 7 := pow_add 2 (7 * j) 7
    by_cases hlast : u &&& 0xFFFFFF80 = 0
    · have hsmall := (and_high_eq_zero_iff u).mp hlast
      have hpos := Nat.two_pow_pos (7 * j)
      rw [vlqLen_of_last hlast]
      omega
    · have hlarge := mt (and_high_eq_zero_iff u).mpr hlast
      have hone : j = 0 → 2 ^ (7 * j) = 1 := fun hj => by rw [hj]; rfl
      rw [vlqLen_of_more hlast, Nat.add_lt_add_iff_right, ih, toNat_ushiftRight_seven,
        Nat.le_div_iff_mul_le (Nat.two_pow_pos 7), ← hpow]
      omega

/-- R181: the bit length in groups of seven, rounded up, and one group for zero. -/
theorem vlqLen_eq_size (u : BitVec 32) : vlqLen u = max 1 ((Nat.size u.toNat + 6) / 7) := by
  refine eq_of_forall_lt_iff fun j => ?_
  rw [lt_vlqLen_iff, ← Nat.lt_size]
  omega

theorem vlqLen_pos (u : BitVec 32) : 0 < vlqLen u := (lt_vlqLen_iff 0 u).mpr (.inl rfl)

/-- 32 bits are five groups of seven (R181). -/
theorem vlqLen_le_five (u : BitVec 32) : vlqLen u ≤ 5 := by
  have hlt := u.isLt
  have hfive := lt_vlqLen_iff 5 u
  omega

/-- The groups of a varint hold every bit of the value (R181). -/
theorem toNat_lt_two_pow_vlqLen (u : BitVec 32) : u.toNat < 2 ^ (7 * vlqLen u) := by
  have hend := mt (lt_vlqLen_iff (vlqLen u) u).mpr (Nat.lt_irrefl _)
  omega

/-! The bytes. -/

/-- Byte `j` is group `j` of seven bits, with bit 7 set where another byte follows (R180). -/
theorem vlqEncode_getElem (u : BitVec 32) (j : Nat) (h : j < (vlqEncode u).length) :
    (vlqEncode u)[j] = ((u >>> (7 * j)) &&& 0x7F).setWidth 8 ||| (if j + 1 < vlqLen u then 0x80 else 0) := by
  induction j generalizing u with
  | zero =>
    by_cases hlast : u &&& 0xFFFFFF80 = 0
    · have hlen := vlqLen_of_last hlast
      simp only [vlqEncode_of_last hlast]
      rw [if_neg (by omega)]
      simp
    · have hlen := vlqLen_of_more hlast
      have hpos := vlqLen_pos (u >>> 7)
      simp only [vlqEncode_of_more hlast]
      rw [if_pos (by omega)]
      simp
  | succ j ih =>
    by_cases hlast : u &&& 0xFFFFFF80 = 0
    · have hlen := vlqLen_of_last hlast
      rw [vlqLen] at hlen
      omega
    · simp only [vlqEncode_of_more hlast, List.getElem_cons_succ]
      rw [ih, vlqLen_of_more hlast, ← BitVec.shiftRight_add, Nat.mul_succ, Nat.add_comm 7]
      simp only [Nat.add_lt_add_iff_right]

/-- Every byte but the last has bit 7 set, and the last has it clear (R180). -/
theorem vlqEncode_getElem_bit7 (u : BitVec 32) (j : Nat) (h : j < (vlqEncode u).length) :
    (vlqEncode u)[j].getLsbD 7 = decide (j + 1 < vlqLen u) := by
  rw [vlqEncode_getElem]
  split <;> simp [*]

/-- The low seven bits of byte `j` are group `j` of the value (R180). -/
theorem toNat_vlqEncode_getElem (u : BitVec 32) (j : Nat) (h : j < (vlqEncode u).length) :
    (vlqEncode u)[j].toNat % 128 = u.toNat / 2 ^ (7 * j) % 128 := by
  have hgroup : (((u >>> (7 * j)) &&& 0x7F).setWidth 8).toNat = u.toNat / 2 ^ (7 * j) % 2 ^ 7 := by
    rw [BitVec.toNat_setWidth, BitVec.toNat_and, BitVec.toNat_ushiftRight, Nat.shiftRight_eq_div_pow]
    exact (congrArg (· % 2 ^ 8) (Nat.and_two_pow_sub_one_eq_mod _ 7)).trans (Nat.mod_eq_of_lt (by omega))
  have hmark : (if j + 1 < vlqLen u then (0x80 : Byte) else 0).toNat % 2 ^ 7 = 0 := by split <;> rfl
  rw [vlqEncode_getElem, BitVec.toNat_or]
  change (_ ||| _) % 2 ^ 7 = _ % 2 ^ 7
  rw [Nat.or_mod_two_pow, hmark, hgroup, Nat.or_zero, Nat.mod_mod]

end Sys2Proof.Machine
end

section
/-! SUPPORT. The decoding loop: what it holds after each byte, and what ends it (spec/42_varint_zigzag.md R182). -/

namespace Sys2Proof.Machine

/-- The sum of the 7-bit groups of the first `n` bytes at `lo`, at increasing shifts (R182). -/
def groupSum (m : Memory) (lo n : Nat) : Nat :=
  ((List.range n).map fun i => ((m.read (lo + i)).toNat % 128) * 2 ^ (7 * i)).sum

theorem groupSum_succ (m : Memory) (lo n : Nat) :
    groupSum m lo (n + 1) = groupSum m lo n + ((m.read (lo + n)).toNat % 128) * 2 ^ (7 * n) := by
  simp only [groupSum, List.range_succ, List.map_append, List.map_singleton, List.sum_append, List.sum_singleton]

theorem groupSum_lt (m : Memory) (lo n : Nat) : groupSum m lo n < 2 ^ (7 * n) := by
  induction n with
  | zero => exact Nat.one_pos
  | succ n ih =>
    have hgroup := Nat.mul_le_mul_right (2 ^ (7 * n)) (show (m.read (lo + n)).toNat % 128 ≤ 127 by omega)
    have hpow : 2 ^ (7 * (n + 1)) = 2 ^ (7 * n) * 2 ^ 7 := pow_add 2 (7 * n) 7
    rw [groupSum_succ]
    omega

/-- Bytes whose groups are those of a number sum to its low bits. -/
theorem groupSum_eq_mod {m : Memory} {lo n x : Nat}
    (h : ∀ j < n, (m.read (lo + j)).toNat % 128 = x / 2 ^ (7 * j) % 128) : groupSum m lo n = x % 2 ^ (7 * n) := by
  induction n with
  | zero => exact (Nat.mod_one x).symm
  | succ n ih =>
    have hpow : 2 ^ (7 * (n + 1)) = 2 ^ (7 * n) * 128 := pow_add 2 (7 * n) 7
    rw [groupSum_succ, ih fun j hj => h j (by omega), h n (by omega), hpow, Nat.mod_mul, Nat.mul_comm (2 ^ (7 * n))]

/-- The loop's accumulator after a byte holds the groups so far (R182). -/
theorem accumulate_group {n acc : Nat} (h : acc < 2 ^ (7 * n)) (b : Byte) :
    BitVec.ofNat 32 acc ||| ((b &&& 0x7F).setWidth 32 <<< (7 * n)) =
      BitVec.ofNat 32 (acc + (b.toNat % 128) * 2 ^ (7 * n)) := by
  have hlow : (b &&& 0x7F).toNat = b.toNat % 128 := Nat.and_two_pow_sub_one_eq_mod b.toNat 7
  have hgroup : (b &&& 0x7F).setWidth 32 <<< (7 * n) = BitVec.ofNat 32 ((b.toNat % 128) <<< (7 * n)) := by
    apply BitVec.eq_of_toNat_eq
    rw [BitVec.toNat_shiftLeft, BitVec.toNat_setWidth, hlow, BitVec.toNat_ofNat,
      Nat.mod_eq_of_lt ((Nat.mod_lt b.toNat (by omega)).trans (by omega : 128 < 2 ^ 32))]
  rw [hgroup, ← BitVec.ofNat_or, Nat.lor_comm, ← Nat.shiftLeft_add_eq_or_of_lt h, Nat.add_comm, Nat.shiftLeft_eq]

/-- The continuation bit of a byte is its bit 7 (R180, R182). -/
theorem and_0x80_eq_zero_iff (b : Byte) : b &&& 0x80 = 0 ↔ b.getLsbD 7 = false := by
  have hmask : (0x80 : Byte) = BitVec.twoPow 8 7 := rfl
  rw [hmask, BitVec.and_twoPow]
  cases b.getLsbD 7 <;> decide

section
variable {m : Memory} {base a cap k i : Nat} {tmp : BitVec 32}

theorem vlqDecodeFrom_of_end (h : cap ≤ a + i) : vlqDecodeFrom m base a cap k i tmp = none := by
  cases k with
  | zero => rfl
  | succ k => exact if_pos h

theorem vlqDecodeFrom_of_last (hin : a + i < cap) (h : (m.read (base + a + i)).getLsbD 7 = false) :
    vlqDecodeFrom m base a cap (k + 1) i tmp =
      some (tmp ||| ((m.read (base + a + i) &&& 0x7F).setWidth 32 <<< (7 * i)), i + 1) :=
  (if_neg (Nat.not_le.mpr hin)).trans (if_pos ((and_0x80_eq_zero_iff _).mpr h))

theorem vlqDecodeFrom_of_more (hin : a + i < cap) (h : (m.read (base + a + i)).getLsbD 7 = true) :
    vlqDecodeFrom m base a cap (k + 1) i tmp = vlqDecodeFrom m base a cap k (i + 1)
      (tmp ||| ((m.read (base + a + i) &&& 0x7F).setWidth 32 <<< (7 * i))) :=
  (if_neg (Nat.not_le.mpr hin)).trans
    (if_neg fun hlast => Bool.noConfusion (h.symm.trans ((and_0x80_eq_zero_iff _).mp hlast)))

end

section
variable {m : Memory} {base a cap n : Nat}

/-- After `n` bytes with bit 7 set the loop goes on with their groups. -/
theorem vlqDecode_of_more (hn : n ≤ 5) (hin : ∀ j < n, a + j < cap)
    (hmore : ∀ j < n, (m.read (base + a + j)).getLsbD 7 = true) :
    vlqDecode m base a cap = vlqDecodeFrom m base a cap (5 - n) n (BitVec.ofNat 32 (groupSum m (base + a) n)) := by
  induction n with
  | zero => rfl
  | succ n ih =>
    have hleft : 5 - n = 5 - (n + 1) + 1 := by omega
    rw [ih (by omega) (fun j hj => hin j (by omega)) (fun j hj => hmore j (by omega)), hleft,
      vlqDecodeFrom_of_more (hin n (by omega)) (hmore n (by omega)),
      accumulate_group (groupSum_lt m (base + a) n), ← groupSum_succ]

theorem vlqDecode_of_last (hn : n ≤ 4) (hmore : ∀ j < n, (m.read (base + a + j)).getLsbD 7 = true) (hin : a + n < cap)
    (hlast : (m.read (base + a + n)).getLsbD 7 = false) :
    vlqDecode m base a cap = some (BitVec.ofNat 32 (groupSum m (base + a) (n + 1)), n + 1) := by
  have hleft : 5 - n = 4 - n + 1 := by omega
  rw [vlqDecode_of_more (by omega) (fun j hj => by omega) hmore, hleft, vlqDecodeFrom_of_last hin hlast,
    accumulate_group (groupSum_lt m (base + a) n), ← groupSum_succ]

/-- Five bytes with bit 7 set are no varint (R182). -/
theorem vlqDecode_of_malformed (hin : a + 4 < cap) (hmore : ∀ j < 5, (m.read (base + a + j)).getLsbD 7 = true) :
    vlqDecode m base a cap = none :=
  vlqDecode_of_more (Nat.le_refl 5) (fun j hj => by omega) hmore

/-- Neither are bytes with bit 7 set up to the buffer's end (R182). -/
theorem vlqDecode_of_truncated (hn : n ≤ 4) (hmore : ∀ j < n, (m.read (base + a + j)).getLsbD 7 = true)
    (hend : cap ≤ a + n) : vlqDecode m base a cap = none := by
  rw [vlqDecode_of_more (n := cap - a) (by omega) (fun j hj => by omega) (fun j hj => hmore j (by omega))]
  exact vlqDecodeFrom_of_end (by omega)

end

end Sys2Proof.Machine
end

section
/-! SUPPORT. Decoding the bytes of a varint, and the commands that put and get one (spec/42_varint_zigzag.md R185 to
R189). -/

namespace Sys2Proof.Machine

/-- R185: the bytes of a varint inside the buffer decode to its value and its length. -/
theorem vlqDecode_of_holdsBytes {u : BitVec 32} {m : Memory} {base a cap : Nat}
    (h : holdsBytes m (base + a) (vlqEncode u)) (hcap : a + vlqLen u ≤ cap) :
    vlqDecode m base a cap = some (u, vlqLen u) := by
  obtain ⟨n, hlen⟩ : ∃ n, vlqLen u = n + 1 := ⟨_, (Nat.succ_pred_eq_of_pos (vlqLen_pos u)).symm⟩
  have hfive := vlqLen_le_five u
  have hbit : ∀ j < n + 1, (m.read (base + a + j)).getLsbD 7 = decide (j + 1 < n + 1) := fun j hj => by
    rw [h j (hj.trans_eq hlen.symm), vlqEncode_getElem_bit7, hlen]
  have hgroups : ∀ j < n + 1, (m.read (base + a + j)).toNat % 128 = u.toNat / 2 ^ (7 * j) % 128 := fun j hj => by
    rw [h j (hj.trans_eq hlen.symm), toNat_vlqEncode_getElem]
  have hvalue : BitVec.ofNat 32 (groupSum m (base + a) (n + 1)) = u := by
    rw [groupSum_eq_mod hgroups, ← hlen, Nat.mod_eq_of_lt (toNat_lt_two_pow_vlqLen u), BitVec.ofNat_toNat, BitVec.setWidth_eq]
  rw [hlen] at hcap hfive ⊢
  rw [vlqDecode_of_last (by omega) (fun j hj => (hbit j (by omega)).trans (decide_eq_true (by omega))) (by omega)
    ((hbit n (by omega)).trans (decide_eq_false (by omega))), hvalue]

/-! Putting a varint. -/

/-- Both commands append the bytes of a varint as one byte-aligned field (R186, R187). -/
theorem exec_putVarint {s : State} {p : Instr × BitVec 32}
    (hp : p ∈ [(Instr.putVlq, s.arg.setWidth 32), (Instr.putZzvlq, zigZagEncode (s.arg.setWidth 32))]) :
    exec p.1 s = putBytes p.1 (vlqEncode p.2) s := by
  obtain rfl | rfl := List.mem_pair.mp hp <;> rfl

/-! Getting a varint. -/

/-- Both commands deliver a value made of the decoded one (R188, R189). -/
theorem exec_getVarint {s : State} {p : Instr × (BitVec 32 → Word)}
    (hp : p ∈ [(Instr.getVlq, fun v => v.setWidth 64), (Instr.getZzvlq, fun v => (zigZagDecode v).signExtend 64)]) :
    exec p.1 s = getVarint p.2 s := by
  obtain rfl | rfl := List.mem_pair.mp hp <;> rfl

/-- The state after a read that leaves `v` in `RES` and the cursor at byte `off` (R188). -/
def readPast (off : Nat) (v : Word) (s : State) : State := { seekByte off s with ok := true, res := v }

theorem rPos_readPast {off : Nat} {s : State} (h : off ≤ s.rCap.toNat) (v : Word) : rPos (readPast off v s) = 8 * off := by
  rw [← rPos_seekByte h]
  simp only [rPos, readPast]

/-- Moving past the varint refills the window (R141, R188). -/
theorem windowExact_readPast (off : Nat) (v : Word) (s : State) : windowExact (readPast off v s) :=
  StatusFrame.keeps_window (u := seekByte off s) rfl (refill_windowExact _)

section
variable {s : State} {result : BitVec 32 → Word}

theorem getVarint_of_none (h : vlqDecode s.mem s.rBase.toNat (ceil8 (rPos s)) s.rCap.toNat = none) :
    getVarint result s = .next { s with ok := false, res := 0 } := by
  rw [getVarint, h]
  rfl

theorem getVarint_of_some {v : BitVec 32} {used : Nat}
    (h : vlqDecode s.mem s.rBase.toNat (ceil8 (rPos s)) s.rCap.toNat = some (v, used)) :
    getVarint result s = .next (readPast (ceil8 (rPos s) + used) (result v) s) := by
  rw [getVarint, h]
  rfl

end

end Sys2Proof.Machine
end

section
/-! The obligations of spec/42_varint_zigzag.md. -/

namespace Sys2Proof

open Sys2Proof.Machine

/-- Settles O54: the shifts as numbers, by the sign going in and by the low bit coming back. -/
theorem zigZagOnIntegers : Obligations.ZigZagOnIntegers := fun x => ⟨toNat_zigZagEncode x, toInt_zigZagDecode x⟩

/-- Settles O52: each byte after the first stands for a power of `2^7` that the value reaches. -/
theorem varintLengths : Obligations.VarintLengths := by
  intro u
  have hone := lt_vlqLen_iff 1 u
  have htwo := lt_vlqLen_iff 2 u
  have hthree := lt_vlqLen_iff 3 u
  have hfour := lt_vlqLen_iff 4 u
  have hpos := vlqLen_pos u
  have hfive := vlqLen_le_five u
  refine ⟨?_, ?_, ?_, ?_, ?_, vlqLen_eq_size u, hfive⟩ <;> omega

/-- Settles O53: the loop runs over the bytes with bit 7 set, and what stands after them ends it. -/
theorem varintDecoding : Obligations.VarintDecoding := by
  intro m base a cap k hk hmore
  refine ⟨fun hin hlast => vlqDecode_of_last hk hmore hin hlast, fun hin hfour hbit => ?_,
    fun hend => vlqDecode_of_truncated hk hmore hend⟩
  subst hfour
  refine vlqDecode_of_malformed hin fun j hj => ?_
  obtain hj | rfl := Nat.lt_succ_iff_lt_or_eq.mp hj
  · exact hmore j hj
  · exact hbit

/-- Settles O55: zigzag has its decoding as inverse, and the bytes of a varint are the groups the decoding loop sums. -/
theorem codecLaws : Obligations.CodecLaws := by
  refine ⟨zigZagDecode_zigZagEncode, bijective_zigZagEncode, by decide, by decide, by decide, by decide, by decide,
    fun u m base a cap h hcap => vlqDecode_of_holdsBytes h hcap, fun u => ?_, by decide, by decide⟩
  exact ⟨vlqEncode_of_last, vlqEncode_of_more, vlqEncode_getElem u⟩

/-- Settles O38: both commands append a byte-aligned field, with its checks in order. -/
theorem putVarintsAppendTheirBytes : Obligations.PutVarintsAppendTheirBytes := by
  intro s _ hm p hp bytes k C at_
  have hplace : s.wBase.toNat + alignedOffset s = at_ + k := (Nat.add_assoc _ _ _).symm
  have hfield := appendAligned_holdsBytes hm bytes
  rw [hplace] at hfield
  rw [exec_putVarint hp]
  refine ⟨putBytes_of_no_space, fun hfits hhit => putBytes_of_hit hfits ((meetsUnread_iff _ _ _).mpr hhit),
    fun hfits hclear => ?_⟩
  exact ⟨_, putBytes_of_clear hfits ((meetsUnread_eq_false_iff _ _ _).mpr hclear), rfl,
    fun j hj => appendAligned_partialBytes hm bytes hj, hfield, appendAligned_sameOutside hm bytes,
    refill_windowExact _⟩

/-- Settles O51: the decoding decides, and the cursor moves past bytes that lie in the buffer. -/
theorem getVarintsDecodeTheirBytes : Obligations.GetVarintsDecodeTheirBytes := by
  intro s _ p hp a d
  rw [exec_getVarint hp]
  refine ⟨getVarint_of_none, fun v used hdecode => ?_⟩
  exact ⟨_, getVarint_of_some hdecode, rPos_readPast (vlqDecodeFrom_used_le hdecode) _, windowExact_readPast _ _ s, rfl⟩

end Sys2Proof
end

section
/-! SUPPORT. What each action of the host does, where it has a move, and which of them leave the faulted state
(spec/60_exceptions.md R213 to R217, R225 to R227). -/

namespace Sys2Proof.Machine

theorem step_of_idle {s : State} (h : s.hostActions = []) : step s = .next s := by
  rw [step, performNext, h]

theorem step_of_action {s : State} {a : HostAction} {rest : List HostAction} (h : s.hostActions = a :: rest) :
    step s = perform a (takeAction rest s) := by
  rw [step, performNext, h]

/-- Taking an action off the host's list changes no register the host can read. -/
@[simp] theorem readReg_takeAction (r : HostReg) (rest : List HostAction) (s : State) :
    readReg r (takeAction rest s) = readReg r s := rfl

/-! Accesses to data memory. -/

section
variable {addr : Word} {bytes : List Byte} {n : Nat} {s : State}

theorem hostReadMem_of_past (h : 2 ^ 64 < addr.toNat + n) : hostReadMem addr n s = .fault .noSuchAddress :=
  if_pos (decide_eq_true h)

theorem hostReadMem_of_inside (h : addr.toNat + n ≤ 2 ^ 64) :
    hostReadMem addr n s = .next { s with replies := .mem addr (s.mem.readBytes addr.toNat n) :: s.replies } := by
  rw [hostReadMem, (passesAddressSpace_eq_false_iff _ _).mpr h]
  rfl

theorem hostWriteMem_of_past (h : 2 ^ 64 < addr.toNat + bytes.length) :
    hostWriteMem addr bytes s = .fault .noSuchAddress :=
  if_pos (decide_eq_true h)

/-- A write with any byte in the unread region has no move (R225, R227). -/
theorem hostWriteMem_of_hit (h : addr.toNat + bytes.length ≤ 2 ^ 64) (hhit : hitsUnread s addr.toNat bytes.length) :
    hostWriteMem addr bytes s = .refused .hostWroteUnreadRegion := by
  rw [hostWriteMem, (passesAddressSpace_eq_false_iff _ _).mpr h, (meetsUnread_iff _ _ _).mpr hhit]
  rfl

theorem hostWriteMem_of_clear (h : addr.toNat + bytes.length ≤ 2 ^ 64)
    (hclear : ¬ hitsUnread s addr.toNat bytes.length) :
    hostWriteMem addr bytes s = .next (refill { s with mem := s.mem.writeBytes addr.toNat bytes }) := by
  rw [hostWriteMem, (passesAddressSpace_eq_false_iff _ _).mpr h, (meetsUnread_eq_false_iff _ _ _).mpr hclear]
  rfl

end

/-! Faults. -/

/-- A write to `CMD` of a faulted block is dropped (R215). -/
theorem issueCommand_of_fault {s : State} (hs : s.fault = true) (w : Word) : issueCommand w s = .next s := if_pos hs

/-- A command word that leaves a fault in a block that had none has been recorded, and has changed the fault state alone
(R213, R214). -/
theorem issueCommand_eq_faultEntry {w : Word} {s t : State} (hs : s.fault = false) (h : issueCommand w s = .next t)
    (ht : t.fault = true) : ∃ c, t = faultEntry c w s := by
  obtain ⟨hfault, -⟩ | ⟨-, r, -, hreject⟩ | ⟨-, i, hdecode, hexec⟩ := issueCommand_cases w s
  · exact Bool.noConfusion (hs.symm.trans hfault)
  · cases hreject.symm.trans h
    exact ⟨_, rfl⟩
  · rw [← encode_of_decode hdecode]
    exact (ends_of_exec (hexec.symm.trans h)).eq_faultEntry hs ht

/-- Without a fault there is no record to clear (R25, R27). -/
theorem faultClear_of_no_fault {s : State} (hrecord : FaultRecordInv s) (hs : s.fault = false) : faultClear s = s := by
  obtain ⟨hcause, hcmd, harg⟩ := hrecord.cleared hs
  cases s
  cases hs
  cases hcause
  cases hcmd
  cases harg
  rfl

theorem writeCtrl_leaves_fault {v : Word} {s : State} (hs : s.fault = true) (h : (writeCtrl v s).fault = false) :
    v.getLsbD 0 = true ∨ v.getLsbD 1 = true := by
  by_contra hbits
  obtain ⟨hclear, hreset⟩ := not_or.mp hbits
  rw [writeCtrl_of_zeros (Bool.eq_false_iff.mpr hreset) (Bool.eq_false_iff.mpr hclear)] at h
  exact Bool.noConfusion (hs.symm.trans h)

/-- Of the register writes only one to `CTRL` leaves the faulted state (R215, R217). -/
theorem writeReg_leaves_fault {r : HostReg} {v : Word} {s t : State} (hs : s.fault = true)
    (h : writeReg r v s = .next t) (ht : t.fault = false) : r = .ctrl ∧ (v.getLsbD 0 = true ∨ v.getLsbD 1 = true) := by
  cases r with
  | ctrl =>
    cases h
    exact ⟨rfl, writeCtrl_leaves_fault hs ht⟩
  | cmd =>
    cases (issueCommand_of_fault hs v).symm.trans h
    exact Bool.noConfusion (hs.symm.trans ht)
  | arg | res | status | fcmd | farg | wBase | wCap | wAcc | wCommitted | wPending | rBase | rCap | rPos | reserved =>
    cases h
    exact Bool.noConfusion (hs.symm.trans ht)

theorem hostWriteMem_keeps_fault {addr : Word} {bytes : List Byte} {s t : State}
    (h : hostWriteMem addr bytes s = .next t) : t.fault = s.fault := by
  obtain hpast | hspace := Nat.lt_or_ge (2 ^ 64) (addr.toNat + bytes.length)
  · cases (hostWriteMem_of_past hpast).symm.trans h
  by_cases hhit : hitsUnread s addr.toNat bytes.length
  · cases (hostWriteMem_of_hit hspace hhit).symm.trans h
  · cases (hostWriteMem_of_clear hspace hhit).symm.trans h
    exact refill_fault _

theorem hostReadMem_keeps_fault {addr : Word} {n : Nat} {s t : State} (h : hostReadMem addr n s = .next t) :
    t.fault = s.fault := by
  obtain hpast | hspace := Nat.lt_or_ge (2 ^ 64) (addr.toNat + n)
  · cases (hostReadMem_of_past hpast).symm.trans h
  · cases (hostReadMem_of_inside hspace).symm.trans h
    rfl

/-- The actions that leave the faulted state: the hardware reset, and a write of `CTRL` that resets or clears (R214). -/
theorem perform_leaves_fault {a : HostAction} {s t : State} (hs : s.fault = true) (h : perform a s = .next t)
    (ht : t.fault = false) :
    a = .hardwareReset ∨ ∃ v, a = .writeReg .ctrl v ∧ (v.getLsbD 0 = true ∨ v.getLsbD 1 = true) := by
  have hchanged : t.fault ≠ s.fault := fun hsame => Bool.noConfusion (hs.symm.trans (hsame.symm.trans ht))
  cases a with
  | hardwareReset => exact .inl rfl
  | writeReg r v =>
    obtain ⟨rfl, hbits⟩ := writeReg_leaves_fault hs h ht
    exact .inr ⟨v, rfl, hbits⟩
  | readReg r => cases h; exact absurd rfl hchanged
  | writeMem addr bytes => exact absurd (hostWriteMem_keeps_fault h) hchanged
  | readMem addr n => exact absurd (hostReadMem_keeps_fault h) hchanged

end Sys2Proof.Machine
end

section
/-! The obligations of spec/60_exceptions.md: faults, their entry and their return, and the host's actions. -/

namespace Sys2Proof

open Sys2Proof.Machine

/-- Settles O10: each action's effect, read off its own lemma; the memory write's from the laws of memory and the refill. -/
theorem hostActionsTakeEffect : Obligations.HostActionsTakeEffect := by
  intro s
  refine ⟨step_of_idle, fun a rest haction => ?_⟩
  obtain ⟨-, -, -, -, hignored⟩ := reservedOffsetsAndReadOnlyRegisters
  rw [step_of_action haction]
  refine ⟨rfl, ?arg, ?ctrl, ?hardwareReset, ?otherReg, ?readReg, ?readMem, ?writeMem⟩
  case arg => rintro v rfl; rfl
  case ctrl =>
    rintro v rfl
    exact ⟨fun hreset => congrArg _ (writeCtrl_of_reset hreset _),
      fun hreset hclear => congrArg _ (writeCtrl_of_clear hreset hclear _),
      fun hreset hclear => congrArg _ (writeCtrl_of_zeros hreset hclear _)⟩
  case hardwareReset => rintro rfl; rfl
  case otherReg =>
    rintro r v harg hcmd hctrl rfl
    exact hignored r v _ harg hcmd hctrl
  case readReg =>
    rintro r rfl
    rw [perform, readReg_takeAction]
    rfl
  case readMem =>
    rintro addr n rfl
    exact ⟨hostReadMem_of_past, fun hspace => ⟨_, Memory.readBytes_length s.mem addr.toNat n,
      fun j hj => (Memory.readBytes_getElem s.mem addr.toNat n j hj).symm, hostReadMem_of_inside hspace⟩⟩
  case writeMem =>
    rintro addr bytes rfl
    exact ⟨hostWriteMem_of_past, fun hspace hm hclear => ⟨_, hostWriteMem_of_clear hspace hclear, rfl,
      Memory.writeBytes_wf hm _ _, Memory.holdsBytes_writeBytes hm _ _, Memory.sameOutside_writeBytes hm _ _,
      refill_windowExact _⟩⟩

/-- Settles O13: a word that is no command, and a command that faults, leave the block in fault entry for that word. -/
theorem faultsArePrecise : Obligations.FaultsArePrecise := by
  intro w s t hs h ht
  obtain ⟨c, rfl⟩ := issueCommand_eq_faultEntry hs h ht
  exact ⟨c.code, c.code_range.1, c.code_range.2, rfl⟩

/-- Settles O18: an idle step keeps the fault, and only a reset or `FAULT_CLEAR` among the actions leaves it. -/
theorem faultIsSticky : Obligations.FaultIsSticky := by
  intro s t hs h ht
  obtain ⟨-, hidle⟩ | ⟨a, rest, haction, hperform⟩ := step_cases s
  · cases hidle.symm.trans h
    exact Bool.noConfusion (hs.symm.trans ht)
  · obtain rfl | ⟨v, rfl, hbits⟩ := perform_leaves_fault (s := takeAction rest s) hs (hperform.symm.trans h) ht
    · exact ⟨rest, .inl haction⟩
    · exact ⟨rest, .inr ⟨v, haction, hbits⟩⟩

/-- Settles O11: the action is the next, and the write is refused whole. -/
theorem hostWriteOfUnreadRegionHasNoMove : Obligations.HostWriteOfUnreadRegionHasNoMove := by
  intro s addr bytes rest haction hspace hhit
  exact (step_of_action haction).trans (hostWriteMem_of_hit (s := takeAction rest s) hspace hhit)

/-- Settles O12: only the write to `CMD` looks at the fault. -/
theorem commandsDroppedWhileFaulted : Obligations.CommandsDroppedWhileFaulted := by
  intro s rest hs
  refine ⟨fun w haction => ?_, fun v haction => ?_, fun v haction => ?_, fun r haction => ?_⟩
  · exact (step_of_action haction).trans (issueCommand_of_fault (s := takeAction rest s) hs w)
  · exact step_of_action haction
  · exact step_of_action haction
  · rw [step_of_action haction, perform, readReg_takeAction]
    rfl

/-- Settles O14: the record is cleared and nothing else, and the next command runs as if there had been no fault. -/
theorem faultClearReturns : Obligations.FaultClearReturns := by
  intro s v
  refine ⟨fun hclear hreset => ?_, fun w i hs hdecode => ?_, resetBlock s, rfl, rfl, rfl, rfl, rfl⟩
  · have hwrite : perform (.writeReg .ctrl v) s = .next (faultClear s) :=
      congrArg _ (writeCtrl_of_clear hreset hclear s)
    exact ⟨hwrite, fun hrecord hs => hwrite.trans (congrArg _ (faultClear_of_no_fault hrecord hs))⟩
  · exact ⟨issueCommand_of_fault hs w, issueCommand_of_ok (faultClear_fault s) hdecode⟩

end Sys2Proof
end

section
/-! SUPPORT. Every PUT of at least one bit or byte fails in an unbound packer (spec/10_state.md R38). -/

namespace Sys2Proof.Machine

section
variable {s : State}

/-- An unbound packer has no room for a bit (R38, R106). -/
theorem execPutValue_of_unbound {n : BitVec 6} (hcap : s.wCap = 0) (hnaf : s.wNaf = false) (hpos : 1 ≤ n.toNat)
    (hwidth : n.toNat ≤ 32) (hvalue : s.arg.toNat < 2 ^ n.toNat) :
    exec (.putValue n) s = .next { s with ok := false } := by
  have hspace : 8 * s.wCap.toNat < wpos s + n.toNat := by
    rw [hcap]
    exact Nat.add_pos_right _ hpos
  exact execPutValue_of_no_space hwidth hvalue hnaf hspace

/-- An unbound packer has no room for a byte-aligned field (R38, R109, R186). -/
theorem putBytes_of_unbound {i : Instr} {bytes : List Byte} (hcap : s.wCap = 0) (hpos : 0 < bytes.length) :
    putBytes i bytes s = .next { s with ok := false } := by
  have hspace : s.wCap.toNat < alignedOffset s + bytes.length := by
    rw [hcap]
    exact Nat.add_pos_right _ hpos
  exact putBytes_of_no_space hspace

end

end Sys2Proof.Machine
end

section
/-! The obligations of spec/70_reset_and_hazards.md: the two resets and the state after them. -/

namespace Sys2Proof

open Sys2Proof.Machine

/-- Settles O16: bit 1 of `CTRL` selects the reset of the platform's pin, and that reset has the values of R42. -/
theorem bothResetsClearTheBlock : Obligations.BothResetsClearTheBlock := by
  intro s v hreset
  have hsoft : perform (.writeReg .ctrl v) s = .next (resetBlock s) := congrArg _ (writeCtrl_of_reset hreset s)
  have hpin : perform .hardwareReset s = .next (resetBlock s) := rfl
  exact ⟨hsoft.trans hpin.symm, hpin⟩

/-- Settles O17: the registers are read off the reset state; a PUT fails since the packer is unbound, and a varint has a
byte at least. -/
theorem resetStateIsUnbound : Obligations.ResetStateIsUnbound := by
  refine ⟨by decide, rfl, rfl, rfl, rfl, rfl, rfl, rfl, ?_⟩
  intro v n esz s failed
  have hcap : s.wCap = 0 := rfl
  refine ⟨execPutValue_of_unbound hcap rfl, fun hpos hsize => ?_, putBytes_of_unbound hcap (vlqLen_pos _),
    putBytes_of_unbound hcap (vlqLen_pos _)⟩
  have hfield : 0 < (bytesLE n.toNat s.arg.toNat).length := by rwa [bytesLE_length]
  exact (execPutAligned_of_width hpos hsize).trans (putBytes_of_unbound hcap hfield)

end Sys2Proof
end
